-- ==== Sys2Proof/Word.lean ====
section
/-! DEFINITION. The widths of the block (`00_scope.md` R8, R12): the 32-bit word of the host port and of SHA-256, the
byte, and a byte array of fixed length. -/

namespace Sys2Proof

/-- A 32-bit value: a port word, a SHA-256 word, a scalar register (R8). -/
abbrev Word := BitVec 32

/-- One byte of a byte array (R12). -/
abbrev Byte := BitVec 8

/-- A byte array `X` of length `n`, with bytes `X[0] .. X[n-1]` (R12). -/
abbrev Bytes (n : Nat) := Vector Byte n

/-- `n` zero bytes. -/
def zeroBytes (n : Nat) : Bytes n := Vector.replicate n 0#8

end Sys2Proof
end

