-- ==== Sys2Proof/Syntax.lean ====
section
/-! DEFINITION. The block's instructions: the twelve commands of `30_encoding.md` R91, and the fields of a command word
(R90). A command carries no operand field and no immediate (R93), so no constructor has an argument. -/

namespace Sys2Proof

/-- The twelve commands, one constructor per row of `opcode_table.json` (R91). -/
inductive Instr where
  /-- NOP (R220). -/
  | nop
  /-- ENCODE_HEADER (R131). -/
  | encodeHeader
  /-- LOAD_HEADER (R135). -/
  | loadHeader
  /-- SET_NONCE (R136). -/
  | setNonce
  /-- COMPUTE_TARGET (R142). -/
  | computeTarget
  /-- HASH1 (R178). -/
  | hash1
  /-- HASH2 (R179). -/
  | hash2
  /-- SUBMIT (R205). -/
  | submit
  /-- RETIRE (R218). -/
  | retire
  /-- REARM (R219). -/
  | rearm
  /-- CLEAR_ERR (R221). -/
  | clearErr
  /-- SOFT_RESET (R222). -/
  | softReset
  deriving DecidableEq, Repr

/-- The two fields of a command word (R90): OPC in bits 7:0 and RSV in bits 31:8. -/
structure CommandWord where
  opc : BitVec 8
  rsv : BitVec 24
  deriving DecidableEq, Repr

/-- Why a command word is reserved (R92). -/
inductive Reserved where
  /-- RSV is not 0. -/
  | reservedBits
  /-- OPC is in 0x0C .. 0xFF. -/
  | reservedOpcode
  deriving DecidableEq, Repr

end Sys2Proof
end

