-- ==== Sys2Proof/WellFormed.lean ====
section
/-! DEFINITION. Which command words are well formed (`30_encoding.md` R90, R92). A command has no operand, so every
instruction of `Instr` is well formed; what can be ill formed is the word itself. -/

namespace Sys2Proof

/-- RSV must be 0 (R90, R92). -/
def CommandWord.rsvOk (w : CommandWord) : Bool := w.rsv == 0#24

/-- OPC must be one of 0x00 .. 0x0B (R91, R92). -/
def CommandWord.opcOk (w : CommandWord) : Bool := decide (w.opc.toNat < 12)

/-- A command word that is not reserved (R92). -/
def CommandWord.wf (w : CommandWord) : Bool := w.rsvOk && w.opcOk

/-- The OPC field of each command (R91). -/
def Instr.opc : Instr → BitVec 8
  | .nop => 0x00#8
  | .encodeHeader => 0x01#8
  | .loadHeader => 0x02#8
  | .setNonce => 0x03#8
  | .computeTarget => 0x04#8
  | .hash1 => 0x05#8
  | .hash2 => 0x06#8
  | .submit => 0x07#8
  | .retire => 0x08#8
  | .rearm => 0x09#8
  | .clearErr => 0x0A#8
  | .softReset => 0x0B#8

/-- An instruction is well formed when the word of its fields is: it holds of every one, there being no operand (R93). -/
def Instr.wf (i : Instr) : Bool := CommandWord.wf { opc := i.opc, rsv := 0#24 }

end Sys2Proof
end

