-- ==== Sys2Proof/Decode.lean ====
section
/-! DEFINITION. Decoding and encoding of command words (`30_encoding.md` R90 to R92, R96). The decoder is total: every
32-bit word is one of the twelve commands or is reserved, and a reserved word is rejected by name. A command word is a
u32 with no byte order (`20_memory.md` R62), so the decoder takes the word itself. -/

namespace Sys2Proof

/-- The fields of a command word: OPC in bits 7:0, RSV in bits 31:8 (R90). -/
def fieldsOf (w : Word) : CommandWord := { opc := w.extractLsb' 0 8, rsv := w.extractLsb' 8 24 }

/-- The command an OPC value selects, where RSV is 0 (R91); `none` for 0x0C .. 0xFF (R92). -/
def commandOfOpc (opc : Nat) : Option Instr :=
  match opc with
  | 0x00 => some .nop
  | 0x01 => some .encodeHeader
  | 0x02 => some .loadHeader
  | 0x03 => some .setNonce
  | 0x04 => some .computeTarget
  | 0x05 => some .hash1
  | 0x06 => some .hash2
  | 0x07 => some .submit
  | 0x08 => some .retire
  | 0x09 => some .rearm
  | 0x0A => some .clearErr
  | 0x0B => some .softReset
  | _ => none

/-- The decoder: RSV first, then OPC, as the first check of R94 reads them. -/
def decode (w : Word) : Except Reserved Instr :=
  let f := fieldsOf w
  if f.rsv ≠ 0#24 then .error .reservedBits
  else
    match commandOfOpc f.opc.toNat with
    | some i => .ok i
    | none => .error .reservedOpcode

/-- The command word of each command (R91, the table's column "command word"). -/
def encode : Instr → Word
  | .nop => 0x00000000#32
  | .encodeHeader => 0x00000001#32
  | .loadHeader => 0x00000002#32
  | .setNonce => 0x00000003#32
  | .computeTarget => 0x00000004#32
  | .hash1 => 0x00000005#32
  | .hash2 => 0x00000006#32
  | .submit => 0x00000007#32
  | .retire => 0x00000008#32
  | .rearm => 0x00000009#32
  | .clearErr => 0x0000000A#32
  | .softReset => 0x0000000B#32

/-- The word of an instruction as `opcode_table.json` numbers its bits: `nbits` bits of `w`, the bits above them 0. -/
def tableWord (nbits w : Nat) : Word := BitVec.ofNat 32 (w % 2 ^ nbits)

/-- What the decoder reads from such a word. -/
def decodeTableWord (nbits w : Nat) : Option Instr :=
  match decode (tableWord nbits w) with
  | .ok i => some i
  | .error _ => none

end Sys2Proof
end

