-- ==== Sys2Proof/Config.lean ====
section
/-! DEFINITION. What an implementation fixes and what the spec leaves open (`00_scope.md` R9 to R11,
`93_implementation_defined.md` I1, I2, I4 to I6). None of these constants has a body: nothing can be proved of a value
of one, so a claim that mentions one holds for every block the spec admits. -/

namespace Sys2Proof

/-- The parameter MAX_BATCH less one (R9, I4; log entry 5): a number below 134215680, so that
`1 <= MAX_BATCH <= 134215680` holds by its type. -/
opaque Config.maxBatchLessOne : Fin 134215680

/-- The parameter NUM_LANES less one (R10, I5; log entry 13): the number of physical pipelines is at least 1.
No rule depends on it and no definition of the model reads it. -/
opaque Config.numLanesLessOne : Nat

/-- NUM_LANES, at least 1 (R10). -/
def Config.numLanes : Nat := Config.numLanesLessOne + 1

/-- The level of the environment input lanes_ready before the environment first drives it
(R11, I2; log entry 6). -/
opaque Config.lanesReadyAtReset : Bool

/-- The byte that draw number `d` finds at port address `a` of the RESULT window where no lane step has written since
the last reset (R75, I1; log entry 7). -/
opaque Config.freeByte (d a : Nat) : Byte

/-- Which pending lane draw number `d` lets step when no event of the agenda says (R211, I6; log entry 3). -/
opaque Config.laneChoice (d : Nat) : Nat

end Sys2Proof
end

