-- ==== Sys2Proof/Machine/State.lean ====
section
/-! DEFINITION. The state of the block (`10_state.md` R20 to R49) as plain data, the events that can happen to it
(R20, `20_memory.md` R59), the reasons a step could stop, and the state after reset (`70_reset_and_hazards.md` R281). -/

namespace Sys2Proof.Machine

/-- STATUS.STATE, the search state (R23). The values 5, 6 and 7 are never held, so they have no constructor
(log entry 20). -/
inductive SearchState where
  | idle
  | headerLoaded
  | dispatched
  | resultsReady
  | solved
  deriving DecidableEq, Repr

/-- The error codes of ERR.CODE (`60_exceptions.md` R251). The codes 9 .. 255 are never held, so they have no
constructor (log entry 20); `malformedInput` is never raised by the block (R254). -/
inductive ErrCode where
  | none
  | malformedInput
  | invalidDifficulty
  | searchSpaceExhausted
  | deviceUnavailable
  | illegalCommand
  | reservedOpcode
  | badBatchSize
  | illegalAccess
  deriving DecidableEq, Repr

/-- A width in bytes other than 4, the one width the port carries (R16, R61). -/
abbrev OtherWidth := { n : Nat // n ≠ 4 }

/-- One atomic step of an agent of R20 or of the environment (R59, R280). -/
inductive Event where
  /-- The host performs `MemRead(addr, 4)` (`20_memory.md` R66). -/
  | read (addr : Word)
  /-- The host performs `MemWrite(addr, 4, v)` (`20_memory.md` R67); a write to CMD makes the controller execute `v`. -/
  | write (addr v : Word)
  /-- The host presents `MemRead(addr, n)`, `n` not 4, which decision D3 has raise ILLEGAL_ACCESS (log entry 21). -/
  | readWidth (addr : Word) (n : OtherWidth)
  /-- The host presents `MemWrite(addr, n, v)`, `n` not 4, which decision D3 has raise ILLEGAL_ACCESS (log entry 21). Its
  data is dropped whatever it is, so the event has none. -/
  | writeWidth (addr : Word) (n : OtherWidth)
  /-- Lane `i` takes its lane step (`42_dispatch.md` R210). -/
  | lane (i : Nat)
  /-- The controller takes the completion step (`42_dispatch.md` R213). -/
  | complete
  /-- The environment asserts rst_n (`70_reset_and_hazards.md` R280). -/
  | rstN
  /-- The environment drives the input lanes_ready to `level` (`00_scope.md` R11). -/
  | lanesReady (level : Bool)
  deriving DecidableEq, Repr

/-- The RESULT buffer (R42): a list of the bytes that lane steps have written since the last reset, each with its port
address, in one canonical form (`Memory.wf`). A byte that is not listed has no value of its own (R75). -/
abbrev Memory := List Host.Cell

/-- The canonical form: addresses strictly rise. An unlisted byte reads as no particular value, so no entry can equal
what an unlisted address reads as (log entry 9). -/
abbrev Memory.wf (m : Memory) : Prop := m.Pairwise (fun c d => c.1 < d.1)

/-- A set of lane indices, as the list of its members (R45, R46). -/
abbrev IndexSet := List Nat

/-- The canonical form of a set: members strictly rise (log entry 12). -/
abbrev IndexSet.wf (l : IndexSet) : Prop := l.Pairwise (· < ·)

/-- Why the block could stop with a fault. There is no constructor: no rule of the spec stops the block. Every error is
a recorded refusal after which the block goes on (`60_exceptions.md` R252, R258), and Idle waits for the next access
(R268). Safe: a step never answers a fault. -/
inductive Fault where
  deriving DecidableEq, Repr

/-- Why the model could refuse an instruction. -/
inductive Refusal where
  /-- Raised by an arm of `exec` for an instruction that has no meaning yet; safe. No arm of this model raises it. -/
  | notModelled (mnemonic : String)
  deriving DecidableEq, Repr

/-- Everything the spec gives the block, then the model's own fields. -/
structure State where
  /-- STATUS.STATE (R23). -/
  state : SearchState
  /-- STATUS.HDR_VALID (R25). -/
  hdrValid : Bool
  /-- STATUS.FOUND (R26). -/
  found : Bool
  /-- STATUS.NSR (R27). -/
  nsr : Bool
  /-- STATUS.OFFSET_HI, bit 32 of the nonce offset (R34). -/
  offsetHi : Bool
  /-- ERR.CODE (R33). -/
  err : ErrCode
  /-- ERR_INFO (R33). -/
  errInfo : Word
  /-- The two stored bits of IRQ_EN: bit 0 DONE_IE, bit 1 ERR_IE (R43). -/
  irqEn : BitVec 2
  /-- VERSION (R36). -/
  version : Word
  /-- TIME (R36). -/
  time : Word
  /-- BITS (R36). -/
  bits : Word
  /-- NONCE (R36). -/
  nonce : Word
  /-- NONCE_OFFSET, bits 31:0 of the nonce offset (R34). -/
  nonceOffset : Word
  /-- BATCH_SIZE (R35). -/
  batchSize : Word
  /-- PREV_HASH[0..31], in display order (R37). -/
  prevHash : Bytes 32
  /-- MERKLE_ROOT[0..31], in display order (R37). -/
  merkleRoot : Bytes 32
  /-- TARGET[0..31], big-endian (R38). -/
  target : Bytes 32
  /-- HDR[0..79] (R41). -/
  hdr : Bytes 80
  /-- SOL_NONCE (R39). -/
  solNonce : Word
  /-- SOL_DIGEST[0..31] (R39). -/
  solDigest : Bytes 32
  /-- DBG_DIGEST[0..31] (R40). -/
  dbgDigest : Bytes 32
  /-- STATUS.DBG_HIT (R28). -/
  dbgHit : Bool
  /-- PENDING, the lanes that have not stepped yet (R45). -/
  pending : IndexSet
  /-- HIT, the lanes whose bit is 1 (R46). -/
  hit : IndexSet
  /-- RESULT, the bytes written since the last reset, by port address (R42, R64, R75). -/
  result : Memory
  /-- The parameter MAX_BATCH less one: an argument of the model (R9, R49) that no step writes (log entry 5). -/
  maxBatchLessOne : Fin 134215680
  /-- The current level of the environment input lanes_ready (R11, R49; log entry 6). -/
  lanesReady : Bool
  /-- The model's own field: the events still to come, in their order (log entry 1). -/
  agenda : List Event
  /-- The model's own field: the data the port returned to the host's latest read (log entry 8). -/
  readData : Option Word
  /-- The model's own field: how many free values have been drawn (log entry 7). -/
  draws : Nat
  deriving DecidableEq, Repr

/-- MAX_BATCH (R9, R44). -/
def State.maxBatch (s : State) : Nat := s.maxBatchLessOne.val + 1

/-- The state after reset (R281). The parameter and the input are whatever the implementation and the environment make
them; no event is to come, nothing has been read and nothing has been drawn. -/
def State.reset : State where
  state := .idle
  hdrValid := false
  found := false
  nsr := false
  offsetHi := false
  err := .none
  errInfo := 0#32
  irqEn := 0#2
  version := 0#32
  time := 0#32
  bits := 0#32
  nonce := 0#32
  nonceOffset := 0#32
  batchSize := 0#32
  prevHash := zeroBytes 32
  merkleRoot := zeroBytes 32
  target := zeroBytes 32
  hdr := zeroBytes 80
  solNonce := 0#32
  solDigest := zeroBytes 32
  dbgDigest := zeroBytes 32
  dbgHit := false
  pending := []
  hit := []
  result := []
  maxBatchLessOne := Config.maxBatchLessOne
  lanesReady := Config.lanesReadyAtReset
  agenda := []
  readData := none
  draws := 0

end Sys2Proof.Machine
end

