-- ==== Sys2Proof/Machine/Operands.lean ====
section
/-! DEFINITION. The operand forms: byte order of words and byte arrays (`00_scope.md` R13), byte arrays seen as port words
(`20_memory.md` R62), and the address map (R61 to R65). -/

namespace Sys2Proof.Machine

/-! ## Words and bytes (R13) -/

/-- `x[hi:lo]` for the byte whose least significant bit is bit `lo` (R12). -/
def byteOf (x : Word) (lo : Nat) : Byte := x.extractLsb' lo 8

/-- BE32: four bytes, most significant first (R13). -/
def be32 (x : Word) : List Byte := [byteOf x 24, byteOf x 16, byteOf x 8, byteOf x 0]

/-- LE32: four bytes, least significant first (R13). -/
def le32 (x : Word) : List Byte := [byteOf x 0, byteOf x 8, byteOf x 16, byteOf x 24]

/-- The u32 whose bytes are `b3 b2 b1 b0`, `b3` most significant. -/
def wordOf (b3 b2 b1 b0 : Byte) : Word := b3 ++ b2 ++ b1 ++ b0

/-- Byte `i` of a byte array, 0 past its end. -/
def byteAt (X : List Byte) (i : Nat) : Byte := X.getD i 0#8

/-- BEword(X, k) (R13). -/
def beWord (X : List Byte) (k : Nat) : Word :=
  wordOf (byteAt X (4 * k)) (byteAt X (4 * k + 1)) (byteAt X (4 * k + 2)) (byteAt X (4 * k + 3))

/-- LEword(X, k) (R13). -/
def leWord (X : List Byte) (k : Nat) : Word :=
  wordOf (byteAt X (4 * k + 3)) (byteAt X (4 * k + 2)) (byteAt X (4 * k + 1)) (byteAt X (4 * k))

/-- BEval(X): the first byte is the most significant (R13). -/
def beVal (X : List Byte) : Nat := X.foldl (fun v b => v * 256 + b.toNat) 0

/-- LEval(X): the first byte is the least significant (R13). -/
def leVal (X : List Byte) : Nat := X.foldr (fun b v => b.toNat + 256 * v) 0

/-- The `n` bytes of `v` modulo `256 ^ n`, most significant first. -/
def beBytes (n v : Nat) : List Byte := (List.range n).map fun i => BitVec.ofNat 8 (v / 256 ^ (n - 1 - i))

/-- BE64 (R13). -/
def be64 (v : Nat) : List Byte := beBytes 8 v

/-- A list of bytes as an array of `n` bytes: cut after `n`, or filled with zero bytes. It unfolds only by name, so that no
definitional check compares two arrays byte by byte by chance. -/
@[irreducible] def Bytes.ofList (n : Nat) (X : List Byte) : Bytes n := Vector.ofFn fun i : Fin n => byteAt X i.val

/-- BE256(v): the 32 bytes with BEval equal to `v`, for `v < 2^256` (R13). -/
def be256 (v : Nat) : Bytes 32 := Bytes.ofList 32 (beBytes 32 v)

/-- rev(X): byte reversal of a whole array (R13). -/
def rev {n : Nat} (X : Bytes n) : Bytes n := X.reverse

/-! ## Byte arrays on the port (R62) -/

/-- The port word `k` of array `X`: LEword(X, k) (R62). -/
def portWord {n : Nat} (X : Bytes n) (k : Nat) : Word := leWord X.toList k

/-- `X[4k..4k+3] <- LE32(v)` (R62). It unfolds only by name, as `Bytes.ofList` does. -/
@[irreducible] def setPortWord {n : Nat} (X : Bytes n) (k : Nat) (v : Word) : Bytes n :=
  Vector.ofFn fun i : Fin n => if 4 * k ≤ i.val ∧ i.val < 4 * k + 4 then byteAt (le32 v) (i.val - 4 * k) else X[i]

/-! ## The address map (R63, R64) -/

/-- The scalar registers of R63, in the order of their offsets. -/
inductive Reg where
  | id | cmd | status | err | errInfo | irqEn | version | time | bits | nonce | nonceOffset | batchSize | solNonce
  | maxBatch
  deriving DecidableEq, Repr

/-- The byte arrays of R63. -/
inductive Arr where
  | prevHash | merkleRoot | target | solDigest | dbgDigest | hdr
  deriving DecidableEq, Repr

/-- A mapped word of the port: a register, word `k` of an array, or word `k` of RESULT slot `i` (R63, R64). -/
inductive Loc where
  | reg (r : Reg)
  | word (a : Arr) (k : Nat)
  | result (i k : Nat)
  deriving DecidableEq, Repr

/-- The offset of a register (R63). -/
def Reg.offset : Reg → Nat
  | .id => 0x000
  | .cmd => 0x004
  | .status => 0x008
  | .err => 0x00C
  | .errInfo => 0x010
  | .irqEn => 0x014
  | .version => 0x018
  | .time => 0x01C
  | .bits => 0x020
  | .nonce => 0x024
  | .nonceOffset => 0x028
  | .batchSize => 0x02C
  | .solNonce => 0x030
  | .maxBatch => 0x034

/-- The base offset of an array (R63). -/
def Arr.base : Arr → Nat
  | .prevHash => 0x040
  | .merkleRoot => 0x060
  | .target => 0x080
  | .solDigest => 0x0A0
  | .dbgDigest => 0x0C0
  | .hdr => 0x100

/-- How many words an array has on the port (R63). -/
def Arr.words : Arr → Nat
  | .hdr => 20
  | _ => 8

/-- The base of the RESULT window (R64). -/
def resultBase : Nat := 0x10000

/-- The port address of byte 0 of RESULT slot `i` (R64). -/
def slotBase (i : Nat) : Nat := resultBase + 32 * i

/-- The byte address of a mapped word (R63, R64). -/
def Loc.addr : Loc → Nat
  | .reg r => r.offset
  | .word a k => a.base + 4 * k
  | .result i k => slotBase i + 4 * k

/-- The scalar registers, in the order of R63. -/
def allRegs : List Reg :=
  [.id, .cmd, .status, .err, .errInfo, .irqEn, .version, .time, .bits, .nonce, .nonceOffset, .batchSize, .solNonce,
    .maxBatch]

/-- The byte arrays, in the order of R63. -/
def allArrs : List Arr := [.prevHash, .merkleRoot, .target, .solDigest, .dbgDigest, .hdr]

/-- Does byte address `a` lie in array `x` (R63)? -/
def Arr.holds (x : Arr) (a : Nat) : Bool := decide (x.base ≤ a ∧ a < x.base + 4 * x.words)

/-- What an aligned byte address is mapped to, where the RESULT window has `slots` slots; `none` where it is unmapped
(R63 to R65). -/
def locate (slots a : Nat) : Option Loc :=
  if resultBase ≤ a then
    if a < resultBase + 32 * slots then some (.result ((a - resultBase) / 32) ((a - resultBase) % 32 / 4)) else none
  else
    match allRegs.find? (fun r => r.offset == a) with
    | some r => some (.reg r)
    | none =>
      match allArrs.find? (fun x => x.holds a) with
      | some x => some (.word x ((a - x.base) / 4))
      | none => none

/-- `addr[1:0] != 0` (R61). -/
def misaligned (a : Word) : Bool := a.extractLsb' 0 2 != 0#2

/-- The access kind RO (R63, R67). -/
def Loc.readOnly : Loc → Bool
  | .reg .id | .reg .status | .reg .err | .reg .errInfo | .reg .solNonce | .reg .maxBatch => true
  | .word .solDigest _ | .word .dbgDigest _ => true
  | .result _ _ => true
  | _ => false

/-- The column "locked" of R63: a write is refused in Dispatched (R68). -/
def Loc.locked : Loc → Bool
  | .reg .version | .reg .time | .reg .bits | .reg .nonce | .reg .nonceOffset | .reg .batchSize => true
  | .word .prevHash _ | .word .merkleRoot _ | .word .target _ | .word .hdr _ => true
  | _ => false

/-- Batch-locked: a write is refused in ResultsReady too (R68). -/
def Loc.batchLocked : Loc → Bool
  | .reg .nonceOffset | .reg .batchSize => true
  | _ => false

/-- A read is refused in Dispatched (R69). -/
def Loc.barred : Loc → Bool
  | .reg .solNonce | .word .solDigest _ | .result _ _ => true
  | _ => false

end Sys2Proof.Machine
end

