-- ==== Sys2Proof/Machine/Flags.lean ====
section
/-! DEFINITION. The flags and status words: the encodings of STATE and ERR.CODE (`10_state.md` R23, R33), the comparator's
verdict that HIT and DBG_HIT hold (`42_dispatch.md` R200), the computed bits of STATUS (R29), the interrupt level
(`60_exceptions.md` R260) and the STATUS word (R32). -/

namespace Sys2Proof.Machine

/-- The 3-bit encoding of STATE (R23). -/
def SearchState.code : SearchState → Nat
  | .idle => 0
  | .headerLoaded => 1
  | .dispatched => 2
  | .resultsReady => 3
  | .solved => 4

/-- The number of an error code (R251). -/
def ErrCode.code : ErrCode → Nat
  | .none => 0
  | .malformedInput => 1
  | .invalidDifficulty => 2
  | .searchSpaceExhausted => 3
  | .deviceUnavailable => 4
  | .illegalCommand => 5
  | .reservedOpcode => 6
  | .badBatchSize => 7
  | .illegalAccess => 8

/-- accept(D, T): the reversed digest, as a big-endian integer, is strictly less than the target (R200). -/
def accept (D T : Bytes 32) : Bool := decide (beVal (rev D).toList < beVal T.toList)

/-- IRQ_EN.DONE_IE, bit 0 (R43). -/
def State.doneIE (s : State) : Bool := s.irqEn.getLsbD 0

/-- IRQ_EN.ERR_IE, bit 1 (R43). -/
def State.errIE (s : State) : Bool := s.irqEn.getLsbD 1

/-- STATUS.ERR_PEND: ERR.CODE is not 0 (R29). -/
def State.errPend (s : State) : Bool := decide (s.err ≠ .none)

/-- The level of the interrupt output (R260). -/
def State.irq (s : State) : Bool :=
  (s.doneIE && decide (s.state = .resultsReady)) || (s.errIE && s.errPend)

/-- The STATUS word (R32). -/
def State.statusWord (s : State) : Word :=
  BitVec.ofNat 32
    (s.state.code + 2 ^ 3 * s.hdrValid.toNat + 2 ^ 4 * s.found.toNat + 2 ^ 5 * s.nsr.toNat + 2 ^ 6 * s.offsetHi.toNat
      + 2 ^ 7 * s.errPend.toNat + 2 ^ 8 * s.irq.toNat + 2 ^ 9 * s.dbgHit.toNat + 2 ^ 10 * s.lanesReady.toNat)

/-- The ERR word: CODE in bits 7:0, bits 31:8 read 0 (R33, R72). -/
def State.errWord (s : State) : Word := BitVec.ofNat 32 s.err.code

/-- The IRQ_EN word: bits 31:2 read 0 (R43, R72). -/
def State.irqEnWord (s : State) : Word := s.irqEn.zeroExtend 32

/-- The 33-bit nonce offset OFF = OFFSET_HI * 2^32 + NONCE_OFFSET (R34). -/
def State.off (s : State) : Nat := s.offsetHi.toNat * 2 ^ 32 + s.nonceOffset.toNat

/-- The block's identification value, the ID register (R4, R30). -/
def idValue : Word := 0x574D4301#32

end Sys2Proof.Machine
end

