-- ==== Sys2Proof/Machine/Ops.lean ====
section
/-! DEFINITION. The operations the instructions share: the RESULT buffer and the sets of lanes, raising an error (the
block's way of taking an exception, `60_exceptions.md` R252) and clearing it (the return, R259), the reset of
`70_reset_and_hazards.md` R281, and the gate every command passes (`30_encoding.md` R94, R95). -/

namespace Sys2Proof.Machine

/-! ## The RESULT buffer (R42, R64, R75) -/

/-- The byte written at port address `a`, if a lane step has written it since the last reset. -/
def Memory.read? (m : Memory) (a : Nat) : Option Byte := (m.find? fun c => c.1 == a).map (·.2)

/-- Write byte `b` at address `a`, keeping the addresses rising. -/
def Memory.writeByte : Memory → Nat → Byte → Memory
  | [], a, b => [(a, b)]
  | c :: m, a, b =>
    if a < c.1 then (a, b) :: c :: m
    else if a = c.1 then (a, b) :: m
    else c :: Memory.writeByte m a b

/-- Write the bytes `X` at the addresses `a, a+1, ..`. -/
def Memory.writeBytes (m : Memory) (a : Nat) : List Byte → Memory
  | [] => m
  | b :: X => Memory.writeBytes (Memory.writeByte m a b) (a + 1) X

/-! ## Sets of lane indices (R45, R46) -/

/-- The set with `i` in it. -/
def IndexSet.add : IndexSet → Nat → IndexSet
  | [], i => [i]
  | j :: l, i => if i < j then i :: j :: l else if i = j then j :: l else j :: IndexSet.add l i

/-- The set without `i`. -/
def IndexSet.remove (l : IndexSet) (i : Nat) : IndexSet := l.filter (· ≠ i)

/-- Bit `i` made `b`: `HIT[i] <- b` (R210). -/
def IndexSet.put (l : IndexSet) (i : Nat) (b : Bool) : IndexSet := if b then l.add i else l.remove i

/-- The smallest member below `n`, if there is one (R213, R214). -/
def IndexSet.leastBelow (l : IndexSet) (n : Nat) : Option Nat := (l.filter (· < n)).min?

/-! ## Errors (R251, R252, R259) -/

/-- `raise E(info)`: record the error if none is recorded yet; the first error wins (R252). This is all that taking an
error saves: there is no program counter, mode or vector (R259). -/
def State.raise (s : State) (e : ErrCode) (info : Word) : State :=
  { s with
    err := if s.err = .none then e else s.err
    errInfo := if s.err = .none then info else s.errInfo }

/-- The return from the error state: `ERR <- 0; ERR_INFO <- 0` (R221, R259). -/
def State.clearError (s : State) : State := { s with err := .none, errInfo := 0#32 }

/-! ## Reset (R281) -/

/-- The reset of R281, in one atomic step. RESULT keeps no value (R75, R282); the parameter, the input and the model's
own fields are not part of the block's state and stay (log entry 14). -/
def State.resetBlock (s : State) : State :=
  { State.reset with
    maxBatchLessOne := s.maxBatchLessOne
    lanesReady := s.lanesReady
    agenda := s.agenda
    readData := s.readData
    draws := s.draws }

/-! ## The gate of a command (R94, R95) -/

/-- The commands that are executed while an error is pending (R94, R253). -/
def runsWhilePending : Instr → Bool
  | .nop | .clearErr | .softReset => true
  | _ => false

/-- Legal(op, STATE, HDR_VALID), the table of R95. -/
def legal (i : Instr) (st : SearchState) (hdrValid : Bool) : Bool :=
  match i, st with
  | .nop, _ => true
  | .encodeHeader, .dispatched | .encodeHeader, .resultsReady => false
  | .encodeHeader, _ => true
  | .loadHeader, .dispatched | .loadHeader, .resultsReady => false
  | .loadHeader, _ => true
  | .setNonce, .dispatched => false
  | .setNonce, _ => true
  | .computeTarget, .dispatched => false
  | .computeTarget, _ => true
  | .hash1, .dispatched => false
  | .hash1, _ => true
  | .hash2, .dispatched => false
  | .hash2, _ => true
  | .submit, .headerLoaded => true
  | .submit, _ => false
  | .retire, .resultsReady => true
  | .retire, _ => false
  | .rearm, .idle => hdrValid
  | .rearm, _ => false
  | .clearErr, _ => true
  | .softReset, .dispatched => false
  | .softReset, _ => true

/-- A command that is not reserved, as R94 orders its checks: dropped while an error is pending, ILLEGAL_COMMAND where
the state does not admit it, else its own effect. ERR_INFO is the command word, which is the word of `i` (R257,
log entry 11). -/
def runCommand (i : Instr) (effect : State → State) (s : State) : Host.Outcome State Fault Refusal :=
  if s.err ≠ .none ∧ runsWhilePending i = false then .next s
  else if legal i s.state s.hdrValid = false then .next (s.raise .illegalCommand (encode i))
  else .next (effect s)

/-! ## Entering HeaderLoaded with a new header (R131, R135) -/

/-- `HDR_VALID <- 1; STATE <- HeaderLoaded; FOUND <- 0; NSR <- 0`, which ENCODE_HEADER and LOAD_HEADER share. -/
def State.commitHeader (s : State) : State :=
  { s with hdrValid := true, state := .headerLoaded, found := false, nsr := false }

/-! ## Free values (R75) -/

/-- The byte the RESULT window shows at port address `a`: what a lane step wrote there, or a free value where none did
(R75, log entry 7). -/
def State.resultByte (s : State) (a : Nat) : Byte := (s.result.read? a).getD (Config.freeByte s.draws a)

/-- The state after a look at the RESULT addresses `as`: one more value is drawn if any of them was never written. -/
def State.drawIfUnwritten (s : State) (as : List Nat) : State :=
  if as.all fun a => (s.result.read? a).isSome then s else { s with draws := s.draws + 1 }

end Sys2Proof.Machine
end

