-- ==== Sys2Proof/Machine/Codec.lean ====
section
/-! DEFINITION. The header endianness converter and the compact-target expander (`40_codec.md`): the pure functions
`encode`, `decode`, `with_nonce` and `expand`, and the commands ENCODE_HEADER, LOAD_HEADER, SET_NONCE and
COMPUTE_TARGET. -/

namespace Sys2Proof.Machine

/-! ## Header construction (R131 to R137, R143) -/

/-- BlockHeaderFields, the typed fields of a header, the hashes in display order (R19, R132). -/
structure HeaderFields where
  version : Word
  prevHash : Bytes 32
  merkleRoot : Bytes 32
  time : Word
  bits : Word
  nonce : Word
  deriving DecidableEq, Repr

/-- The fields as the block's registers hold them (R36, R37). -/
def State.fields (s : State) : HeaderFields where
  version := s.version
  prevHash := s.prevHash
  merkleRoot := s.merkleRoot
  time := s.time
  bits := s.bits
  nonce := s.nonce

/-- `encode(version, ph, mr, time, bits, nonce)` (R132). -/
def encodeFields (f : HeaderFields) : Bytes 80 :=
  Bytes.ofList 80
    (le32 f.version ++ (rev f.prevHash).toList ++ (rev f.merkleRoot).toList ++ le32 f.time ++ le32 f.bits
      ++ le32 f.nonce)

/-- `X[a .. a+n-1]` as an array of `n` bytes (R12). -/
def slice {m : Nat} (X : Bytes m) (a n : Nat) : Bytes n := Bytes.ofList n (X.toList.drop a)

/-- `decode(h)`: the fields of an 80-byte header (R143). -/
def decodeFields (h : Bytes 80) : HeaderFields where
  version := portWord h 0
  prevHash := rev (slice h 4 32)
  merkleRoot := rev (slice h 36 32)
  time := portWord h 17
  bits := portWord h 18
  nonce := portWord h 19

/-- `with_nonce(header, nonce)`: only the last four bytes are overwritten (R137). -/
def withNonce (h : Bytes 80) (nonce : Word) : Bytes 80 := Bytes.ofList 80 (h.toList.take 76 ++ le32 nonce)

/-! ## Compact target (R138 to R141) -/

/-- exponent = bits[31:24] (R101). -/
def exponentOf (bits : Word) : Nat := (bits.extractLsb' 24 8).toNat

/-- mantissa = bits[23:0], with no sign (R101, R141). -/
def mantissaOf (bits : Word) : Nat := (bits.extractLsb' 0 24).toNat

/-- `expand(bits)`: the target, or `none` for INVALID_DIFFICULTY (R138 to R140). -/
def expand (bits : Word) : Option (Bytes 32) :=
  if exponentOf bits < 3 then none
  else
    let value := mantissaOf bits * 2 ^ (8 * (exponentOf bits - 3))
    if 2 ^ 256 ≤ value then none else some (be256 value)

/-! ## Commands -/

/-- ENCODE_HEADER (R131). -/
def execEncodeHeader (s : State) : Host.Outcome State Fault Refusal :=
  runCommand .encodeHeader (fun s => { s.commitHeader with hdr := encodeFields s.fields }) s

/-- LOAD_HEADER (R135): commits HDR as the host wrote it. -/
def execLoadHeader (s : State) : Host.Outcome State Fault Refusal :=
  runCommand .loadHeader State.commitHeader s

/-- SET_NONCE (R136). -/
def execSetNonce (s : State) : Host.Outcome State Fault Refusal :=
  runCommand .setNonce (fun s => { s with hdr := withNonce s.hdr s.nonce }) s

/-- The effect of COMPUTE_TARGET (R142). -/
def State.computeTarget (s : State) : State :=
  match expand s.bits with
  | none => s.raise .invalidDifficulty (encode .computeTarget)
  | some t => { s with target := t }

/-- COMPUTE_TARGET (R142). -/
def execComputeTarget (s : State) : Host.Outcome State Fault Refusal :=
  runCommand .computeTarget State.computeTarget s

end Sys2Proof.Machine
end

