-- ==== Sys2Proof/Machine/Sha256.lean ====
section
/-! DEFINITION. The SHA-256 compression pipeline and the double hash (`41_sha256.md` R160 to R177). Every addition is of
`BitVec 32`, that is modulo 2^32 (R174). The working registers of R21 are the values a computation passes on; none of
them outlives it (R175). -/

namespace Sys2Proof.Machine

/-! ## Functions and constants (R161 to R164) -/

/-- ROTR(n, x) (R14). -/
def rotr (n : Nat) (x : Word) : Word := (x >>> n) ||| (x <<< (32 - n))

/-- SHR(n, x) (R14). -/
def shr (n : Nat) (x : Word) : Word := x >>> n

/-- Ch (R161). -/
def ch (x y z : Word) : Word := (x &&& y) ^^^ (~~~x &&& z)

/-- Maj (R161). -/
def maj (x y z : Word) : Word := (x &&& y) ^^^ (x &&& z) ^^^ (y &&& z)

/-- Sigma0 (R161). -/
def bigSigma0 (x : Word) : Word := rotr 2 x ^^^ rotr 13 x ^^^ rotr 22 x

/-- Sigma1 (R161). -/
def bigSigma1 (x : Word) : Word := rotr 6 x ^^^ rotr 11 x ^^^ rotr 25 x

/-- sigma0 (R162). -/
def smallSigma0 (x : Word) : Word := rotr 7 x ^^^ rotr 18 x ^^^ shr 3 x

/-- sigma1 (R162). -/
def smallSigma1 (x : Word) : Word := rotr 17 x ^^^ rotr 19 x ^^^ shr 10 x

/-- Rows r0 and r1 of the table K (R163). -/
def roundConstants0 : List Word :=
  [0x428a2f98#32, 0x71374491#32, 0xb5c0fbcf#32, 0xe9b5dba5#32, 0x3956c25b#32, 0x59f111f1#32, 0x923f82a4#32, 0xab1c5ed5#32,
   0xd807aa98#32, 0x12835b01#32, 0x243185be#32, 0x550c7dc3#32, 0x72be5d74#32, 0x80deb1fe#32, 0x9bdc06a7#32, 0xc19bf174#32]

/-- Rows r2 and r3 of the table K (R163). -/
def roundConstants1 : List Word :=
  [0xe49b69c1#32, 0xefbe4786#32, 0x0fc19dc6#32, 0x240ca1cc#32, 0x2de92c6f#32, 0x4a7484aa#32, 0x5cb0a9dc#32, 0x76f988da#32,
   0x983e5152#32, 0xa831c66d#32, 0xb00327c8#32, 0xbf597fc7#32, 0xc6e00bf3#32, 0xd5a79147#32, 0x06ca6351#32, 0x14292967#32]

/-- Rows r4 and r5 of the table K (R163). -/
def roundConstants2 : List Word :=
  [0x27b70a85#32, 0x2e1b2138#32, 0x4d2c6dfc#32, 0x53380d13#32, 0x650a7354#32, 0x766a0abb#32, 0x81c2c92e#32, 0x92722c85#32,
   0xa2bfe8a1#32, 0xa81a664b#32, 0xc24b8b70#32, 0xc76c51a3#32, 0xd192e819#32, 0xd6990624#32, 0xf40e3585#32, 0x106aa070#32]

/-- Rows r6 and r7 of the table K (R163). -/
def roundConstants3 : List Word :=
  [0x19a4c116#32, 0x1e376c08#32, 0x2748774c#32, 0x34b0bcb5#32, 0x391c0cb3#32, 0x4ed8aa4a#32, 0x5b9cca4f#32, 0x682e6ff3#32,
   0x748f82ee#32, 0x78a5636f#32, 0x84c87814#32, 0x8cc70208#32, 0x90befffa#32, 0xa4506ceb#32, 0xbef9a3f7#32, 0xc67178f2#32]

/-- The constant table K[0..63] (R47, R163). -/
def roundConstants : List Word := roundConstants0 ++ roundConstants1 ++ roundConstants2 ++ roundConstants3

/-- K[t] (R163). -/
def K (t : Nat) : Word := roundConstants.getD t 0#32

/-- The eight words of a running digest state H[0..7], and of the working variables a .. h (R21, R170). -/
structure Words8 where
  a : Word
  b : Word
  c : Word
  d : Word
  e : Word
  f : Word
  g : Word
  h : Word
  deriving DecidableEq, Repr

/-- The initial hash value H0[0..7] (R47, R164). -/
def H0 : Words8 where
  a := 0x6a09e667#32
  b := 0xbb67ae85#32
  c := 0x3c6ef372#32
  d := 0xa54ff53a#32
  e := 0x510e527f#32
  f := 0x9b05688c#32
  g := 0x1f83d9ab#32
  h := 0x5be0cd19#32

/-! ## Padding (R165) -/

/-- z, the smallest number of zero bytes with `L + 1 + z` congruent to 56 modulo 64 (R165). -/
def padZeros (L : Nat) : Nat := (119 - L % 64) % 64

/-- Pad(M) (R165). -/
def pad (M : List Byte) : List Byte :=
  M ++ [0x80#8] ++ List.replicate (padZeros M.length) 0#8 ++ be64 (8 * M.length)

/-! ## Schedule and compression (R168 to R171) -/

/-- Block `j` of a padded message, P[64j .. 64j+63] (R168). -/
def blockOf (P : List Byte) (j : Nat) : List Byte := (P.drop (64 * j)).take 64

/-- The message words W[0..15] of a block (R168). -/
def messageWords (block : List Byte) : List Word := (List.range 16).map (beWord block)

/-- W[t] for `t = W.length`, from the words before it (R169). -/
def nextScheduleWord (W : List Word) : Word :=
  let t := W.length
  W.getD (t - 16) 0#32 + smallSigma0 (W.getD (t - 15) 0#32) + W.getD (t - 7) 0#32 + smallSigma1 (W.getD (t - 2) 0#32)

/-- The schedule with `n` more words (R169). -/
def extendSchedule : Nat → List Word → List Word
  | 0, W => W
  | n + 1, W => extendSchedule n (W ++ [nextScheduleWord W])

/-- The message schedule W[0..63] of a block (R168, R169). -/
def schedule (block : List Byte) : List Word := extendSchedule 48 (messageWords block)

/-- T1 of a round (R170). -/
def temp1 (v : Words8) (k w : Word) : Word := v.h + bigSigma1 v.e + ch v.e v.f v.g + k + w

/-- T2 of a round (R170). -/
def temp2 (v : Words8) : Word := bigSigma0 v.a + maj v.a v.b v.c

/-- The body of a round (R170). -/
def round (v : Words8) (k w : Word) : Words8 where
  h := v.g
  g := v.f
  f := v.e
  e := v.d + temp1 v k w
  d := v.c
  c := v.b
  b := v.a
  a := temp1 v k w + temp2 v

/-- The rounds 0 .. n-1 over the schedule `W`, from the working variables `v` (R170). -/
def rounds (W : List Word) (v : Words8) : Nat → Words8
  | 0 => v
  | n + 1 => round (rounds W v n) (K n) (W.getD n 0#32)

/-- H[i] + v_i, word by word (R171). -/
def Words8.add (H v : Words8) : Words8 where
  a := H.a + v.a
  b := H.b + v.b
  c := H.c + v.c
  d := H.d + v.d
  e := H.e + v.e
  f := H.f + v.f
  g := H.g + v.g
  h := H.h + v.h

/-- The running state after one more block: 64 rounds, then the addition (R170, R171). -/
def compress (H : Words8) (block : List Byte) : Words8 := H.add (rounds (schedule block) H 64)

/-- The running state after the first `n` blocks of a padded message (R173). -/
def compressBlocks (P : List Byte) : Nat → Words8
  | 0 => H0
  | n + 1 => compress (compressBlocks P n) (blockOf P n)

/-! ## Digests (R172, R173, R176) -/

/-- BE32(H[0]) ‖ .. ‖ BE32(H[7]) (R172). -/
def Words8.bytes (H : Words8) : List Byte :=
  be32 H.a ++ be32 H.b ++ be32 H.c ++ be32 H.d ++ be32 H.e ++ be32 H.f ++ be32 H.g ++ be32 H.h

/-- SHA256(M) (R173). It unfolds only by name, so that no definitional check runs a hash by chance. -/
@[irreducible] def sha256 (M : List Byte) : Bytes 32 :=
  Bytes.ofList 32 (compressBlocks (pad M) ((pad M).length / 64)).bytes

/-- SHA256d(M): the 32 digest bytes of the first hash, not reversed, are the message of the second (R176). -/
def sha256d (M : List Byte) : Bytes 32 := sha256 (sha256 M).toList

end Sys2Proof.Machine
end

