-- ==== Sys2Proof/Machine/Hash.lean ====
section
/-! DEFINITION. The hash commands HASH1 and HASH2 (`41_sha256.md` R178, R179) and the candidate of a nonce
(`42_dispatch.md` R202). Both commands hash HDR as it stands, its nonce bytes included (`70_reset_and_hazards.md` R294). -/

namespace Sys2Proof.Machine

/-- candidate(h, n): the double hash of the header with nonce `n` (R202). -/
def candidate (h : Bytes 80) (n : Word) : Bytes 32 := sha256d (withNonce h n).toList

/-- HASH1 (R178): one SHA-256 of the header. -/
def execHash1 (s : State) : Host.Outcome State Fault Refusal :=
  runCommand .hash1 (fun s => { s with dbgDigest := sha256 s.hdr.toList }) s

/-- HASH2 (R179): the double hash of the header and its verdict. -/
def execHash2 (s : State) : Host.Outcome State Fault Refusal :=
  runCommand .hash2
    (fun s => { s with dbgDigest := sha256d s.hdr.toList, dbgHit := accept (sha256d s.hdr.toList) s.target }) s

end Sys2Proof.Machine
end

