-- ==== Sys2Proof/Machine/Batch.lean ====
section
/-! DEFINITION. The nonce iterator and dispatch unit (`42_dispatch.md`): the commands SUBMIT, RETIRE and REARM, the lane
step and the completion step. -/

namespace Sys2Proof.Machine

/-! ## Submitting a batch (R205 to R208) -/

/-- The effect of SUBMIT, its checks in the order of R205. -/
def State.submit (s : State) : State :=
  if s.batchSize = 0#32 ∨ s.maxBatch < s.batchSize.toNat then s.raise .badBatchSize (encode .submit)
  else if 2 ^ 32 < s.off + s.batchSize.toNat then
    { s.raise .searchSpaceExhausted (encode .submit) with state := .idle, hdrValid := false }
  else if s.lanesReady = false then s.raise .deviceUnavailable (encode .submit)
  else { s with found := false, nsr := false, pending := List.range s.batchSize.toNat, state := .dispatched }

/-- SUBMIT (R205). -/
def execSubmit (s : State) : Host.Outcome State Fault Refusal := runCommand .submit State.submit s

/-! ## The lane step (R210) -/

/-- The nonce of lane `i`: NONCE_OFFSET + i as a u32 (R210). -/
def State.laneNonce (s : State) (i : Nat) : Word := s.nonceOffset + BitVec.ofNat 32 i

/-- The digest lane `i` computes (R210). -/
def State.laneDigest (s : State) (i : Nat) : Bytes 32 := candidate s.hdr (s.laneNonce i)

/-- The lane step of lane `i` (R210). -/
def State.laneStep (s : State) (i : Nat) : State :=
  { s with
    result := s.result.writeBytes (slotBase i) (s.laneDigest i).toList
    hit := s.hit.put i (accept (s.laneDigest i) s.target)
    pending := s.pending.remove i }

/-- When the lane step of lane `i` is enabled (R210). -/
def State.laneEnabled (s : State) (i : Nat) : Bool := decide (s.state = .dispatched ∧ i ∈ s.pending)

/-- Lane `i`'s turn: its lane step where that is enabled, nothing where it is not (log entry 2). -/
def State.laneTurn (s : State) (i : Nat) : State := if s.laneEnabled i then s.laneStep i else s

/-! ## The completion step (R213 to R215) -/

/-- The port addresses of the 32 bytes of RESULT slot `i` (R64). -/
def slotAddrs (i : Nat) : List Nat := (List.range 32).map (slotBase i + ·)

/-- RESULT[i] as the controller reads it (R213). In every state a run reaches, the slots it reads are written
(log entry 15). -/
def State.resultSlot (s : State) (i : Nat) : Bytes 32 := Bytes.ofList 32 ((slotAddrs i).map s.resultByte)

/-- The lane the batch reports: the smallest accepted index below BATCH_SIZE (R213, R214). -/
def State.winner (s : State) : Option Nat := s.hit.leastBelow s.batchSize.toNat

/-- The completion step (R213). -/
def State.completeBatch (s : State) : State :=
  match s.winner with
  | some m =>
    { s.drawIfUnwritten (slotAddrs m) with
      found := true
      nsr := false
      solNonce := s.laneNonce m
      solDigest := s.resultSlot m
      state := .resultsReady }
  | none => { s with found := false, nsr := true, state := .resultsReady }

/-- When the completion step is enabled (R45, R213). -/
def State.completionEnabled (s : State) : Bool := decide (s.state = .dispatched ∧ s.pending = [])

/-- The controller's turn: the completion step where that is enabled, nothing where it is not (log entry 2). -/
def State.completionTurn (s : State) : State := if s.completionEnabled then s.completeBatch else s

/-- The pending lane that steps when the block moves on its own, a free value; none where no lane is pending (R211; log
entry 3). -/
def State.freeLane (s : State) : Option Nat := s.pending[Config.laneChoice s.draws % s.pending.length]?

/-- The block left to itself, with no event to come (log entry 3): while a batch runs, a pending lane steps, which one
being a free value, and then the batch completes (R211, R292); otherwise the block waits for an access (R268). -/
def State.autonomous (s : State) : State :=
  if s.state = .dispatched then
    match s.freeLane with
    | none => s.completeBatch
    | some i => { s.laneStep i with draws := s.draws + 1 }
  else s

/-! ## Collecting and advancing (R218, R219) -/

/-- The effect of RETIRE (R218): OFF advances exactly, in 33 bits (log entry 10). -/
def State.retire (s : State) : State :=
  if s.found then { s with state := .solved }
  else
    let off := s.off + s.batchSize.toNat
    { s with
      nonceOffset := BitVec.ofNat 32 (off % 2 ^ 32)
      offsetHi := decide (off / 2 ^ 32 % 2 = 1)
      state := .idle }

/-- RETIRE (R218). -/
def execRetire (s : State) : Host.Outcome State Fault Refusal := runCommand .retire State.retire s

/-- REARM (R219). -/
def execRearm (s : State) : Host.Outcome State Fault Refusal :=
  runCommand .rearm (fun s => { s with state := .headerLoaded }) s

end Sys2Proof.Machine
end

