-- ==== Sys2Proof/Machine/Control.lean ====
section
/-! DEFINITION. The control commands NOP, CLEAR_ERR and SOFT_RESET (`42_dispatch.md` R220 to R222), executed even while
an error is pending. -/

namespace Sys2Proof.Machine

/-- NOP (R220): nothing. -/
def execNop (s : State) : Host.Outcome State Fault Refusal := runCommand .nop (fun s => s) s

/-- CLEAR_ERR (R221). -/
def execClearErr (s : State) : Host.Outcome State Fault Refusal := runCommand .clearErr State.clearError s

/-- SOFT_RESET (R222): the reset of R281. -/
def execSoftReset (s : State) : Host.Outcome State Fault Refusal := runCommand .softReset State.resetBlock s

end Sys2Proof.Machine
end

