-- ==== Sys2Proof/Machine/Dispatch.lean ====
section
/-! DEFINITION. The meaning of each command, one arm per constructor of `Instr`. -/

namespace Sys2Proof.Machine

def exec (i : Instr) (s : State) : Host.Outcome State Fault Refusal :=
  match i with
  | .nop => Sys2Proof.Machine.execNop s
  | .encodeHeader => Sys2Proof.Machine.execEncodeHeader s
  | .loadHeader => Sys2Proof.Machine.execLoadHeader s
  | .setNonce => Sys2Proof.Machine.execSetNonce s
  | .computeTarget => Sys2Proof.Machine.execComputeTarget s
  | .hash1 => Sys2Proof.Machine.execHash1 s
  | .hash2 => Sys2Proof.Machine.execHash2 s
  | .submit => Sys2Proof.Machine.execSubmit s
  | .retire => Sys2Proof.Machine.execRetire s
  | .rearm => Sys2Proof.Machine.execRearm s
  | .clearErr => Sys2Proof.Machine.execClearErr s
  | .softReset => Sys2Proof.Machine.execSoftReset s

end Sys2Proof.Machine
end

