-- ==== Sys2Proof/Machine/Port.lean ====
section
/-! DEFINITION. The host port (`20_memory.md` R60 to R75): what one read returns and what one write does, short of
executing a command word. -/

namespace Sys2Proof.Machine

/-! ## Reads (R66) -/

/-- The value of a scalar register on the port (R30 to R44); a read of CMD returns 0 (R74). -/
def State.regValue (s : State) : Reg → Word
  | .id => idValue
  | .cmd => 0#32
  | .status => s.statusWord
  | .err => s.errWord
  | .errInfo => s.errInfo
  | .irqEn => s.irqEnWord
  | .version => s.version
  | .time => s.time
  | .bits => s.bits
  | .nonce => s.nonce
  | .nonceOffset => s.nonceOffset
  | .batchSize => s.batchSize
  | .solNonce => s.solNonce
  | .maxBatch => BitVec.ofNat 32 s.maxBatch

/-- The port word `k` of a byte array (R62). -/
def State.arrWord (s : State) (k : Nat) : Arr → Word
  | .prevHash => portWord s.prevHash k
  | .merkleRoot => portWord s.merkleRoot k
  | .target => portWord s.target k
  | .solDigest => portWord s.solDigest k
  | .dbgDigest => portWord s.dbgDigest k
  | .hdr => portWord s.hdr k

/-- The port addresses of the four bytes of word `k` of RESULT slot `i` (R64). -/
def resultWordAddrs (i k : Nat) : List Nat := (List.range 4).map (slotBase i + 4 * k + ·)

/-- The word at a mapped location (R66, R75). -/
def State.valueAt (s : State) : Loc → Word
  | .reg r => s.regValue r
  | .word a k => s.arrWord k a
  | .result i k => leWord ((resultWordAddrs i k).map s.resultByte) 0

/-- The state after a read that is not refused: the draw of a free value, where one was shown (R75). -/
def State.afterRead (s : State) : Loc → State
  | .result i k => s.drawIfUnwritten (resultWordAddrs i k)
  | _ => s

/-- The port returns `v` to the host. -/
def State.answer (s : State) (v : Word) : State := { s with readData := some v }

/-- A refused access: ILLEGAL_ACCESS with the byte address as presented (R61, R65, R257). -/
def State.refuseAccess (s : State) (a : Word) : State := s.raise .illegalAccess a

/-- A refused read also returns 0 (R258). -/
def State.refuseRead (s : State) (a : Word) : State := (s.refuseAccess a).answer 0#32

/-- `MemRead(addr, 4)`, in the order of checks of R66. -/
def State.hostRead (s : State) (a : Word) : State :=
  if misaligned a then s.refuseRead a
  else
    match locate s.maxBatch a.toNat with
    | none => s.refuseRead a
    | some l =>
      if s.state = .dispatched ∧ l.barred then s.refuseRead a
      else (s.afterRead l).answer (s.valueAt l)

/-! ## Writes (R67) -/

/-- A write of `v` to a scalar register that R67 does not refuse. A register the host cannot write is not changed here:
R67 refuses it before. -/
def State.setReg (s : State) (v : Word) : Reg → State
  | .irqEn => { s with irqEn := v.extractLsb' 0 2 }
  | .version => { s with version := v }
  | .time => { s with time := v }
  | .bits => { s with bits := v }
  | .nonce => { s with nonce := v }
  | .nonceOffset => { s with nonceOffset := v, offsetHi := false }
  | .batchSize => { s with batchSize := v }
  | .id | .cmd | .status | .err | .errInfo | .solNonce | .maxBatch => s

/-- A write of `v` to word `k` of a byte array that R67 does not refuse (R62). -/
def State.setArr (s : State) (k : Nat) (v : Word) : Arr → State
  | .prevHash => { s with prevHash := setPortWord s.prevHash k v }
  | .merkleRoot => { s with merkleRoot := setPortWord s.merkleRoot k v }
  | .target => { s with target := setPortWord s.target k v }
  | .hdr => { s with hdr := setPortWord s.hdr k v }
  | .solDigest | .dbgDigest => s

/-- A write of `v` at a location that R67 does not refuse. -/
def State.setLoc (s : State) (v : Word) : Loc → State
  | .reg r => s.setReg v r
  | .word a k => s.setArr k v a
  | .result _ _ => s

/-- The locks of R68: in Dispatched every locked location, in ResultsReady the batch-locked ones. -/
def State.writeLocked (s : State) (l : Loc) : Bool :=
  (decide (s.state = .dispatched) && l.locked) || (decide (s.state = .resultsReady) && l.batchLocked)

/-- `MemWrite(addr, 4, v)`, in the order of checks of R67, where `execute` is what a write to CMD does (R73, R94). -/
def State.hostWrite (execute : Word → State → Host.Outcome State Fault Refusal) (s : State) (a v : Word) :
    Host.Outcome State Fault Refusal :=
  if misaligned a then .next (s.refuseAccess a)
  else
    match locate s.maxBatch a.toNat with
    | none => .next (s.refuseAccess a)
    | some l =>
      if l.readOnly then .next (s.refuseAccess a)
      else if l = .reg .cmd then execute v s
      else if s.writeLocked l then .next (s.refuseAccess a)
      else .next (s.setLoc v l)

end Sys2Proof.Machine
end

