-- ==== Sys2Proof/Machine/Execute.lean ====
section
/-! DEFINITION. Executing a command word (`30_encoding.md` R94) and performing one event of an agent or of the environment
(`10_state.md` R20). -/

namespace Sys2Proof.Machine

/-- `Execute(v)`: a reserved word raises RESERVED_OPCODE(v), any other word runs its command (R94). -/
def executeWord (v : Word) (s : State) : Host.Outcome State Fault Refusal :=
  match decode v with
  | .error _ => .next (s.raise .reservedOpcode v)
  | .ok i => exec i s

/-- One atomic step of the agent or of the environment that moves (R20, R59). -/
def perform (e : Event) (s : State) : Host.Outcome State Fault Refusal :=
  match e with
  | .read a => .next (s.hostRead a)
  | .write a v => s.hostWrite executeWord a v
  | .readWidth a _ => .next (s.refuseRead a)
  | .writeWidth a _ => .next (s.refuseAccess a)
  | .lane i => .next (s.laneTurn i)
  | .complete => .next s.completionTurn
  | .rstN => .next s.resetBlock
  | .lanesReady b => .next { s with lanesReady := b }

/-- The port address of CMD as a word (R63). -/
def cmdAddr : Word := BitVec.ofNat 32 Reg.cmd.offset

end Sys2Proof.Machine
end

