-- ==== Sys2Proof/Machine/Step.lean ====
section
/-! DEFINITION. One step of the machine: the first event of the agenda is performed, or, where there is none, the block
moves on its own (`10_state.md` R20; log entries 1 and 3). -/

namespace Sys2Proof.Machine

/-- One step. The block fetches nothing (R22, R84): a command arrives as a host write to CMD. -/
def step (s : State) : Host.Outcome State Fault Refusal :=
  match s.agenda with
  | [] => .next s.autonomous
  | e :: rest => perform e { s with agenda := rest }

/-- The state whose next event is the host's write of that command word to CMD (R73; log entry 4). -/
def State.withFetchWord (s : State) (nbits w : Nat) : State :=
  { s with agenda := .write cmdAddr (tableWord nbits w) :: s.agenda }

end Sys2Proof.Machine
end

