-- ==== Sys2Proof/Machine/HostCodec.lean ====
section
/-! DEFINITION. The host text codec (`40_codec.md` R146 to R151): host software that turns a block template into the
register writes the block is loaded by, and a digest into its display string. Its only error is MalformedInput, which
the block itself never raises (`60_exceptions.md` R254). -/

namespace Sys2Proof.Machine

/-- The error of the host codec (R146 to R151). -/
inductive HostError where
  /-- MalformedInput: raised by host software only; nothing is written to the block. -/
  | malformedInput
  deriving DecidableEq, Repr

/-- The value of a hexadecimal digit, in either letter case (R146). -/
def hexVal (c : Char) : Option Nat :=
  let n := c.toNat
  if 48 ≤ n ∧ n ≤ 57 then some (n - 48)
  else if 97 ≤ n ∧ n ≤ 102 then some (n - 87)
  else if 65 ≤ n ∧ n ≤ 70 then some (n - 55)
  else none

/-- The bytes that pairs of hexadecimal digits denote, high nibble first; `none` for a non-hexadecimal character or an
odd digit (R146). -/
def pairBytes : List Char → Option (List Byte)
  | [] => some []
  | [_] => none
  | a :: b :: s =>
    match hexVal a, hexVal b, pairBytes s with
    | some x, some y, some X => some (BitVec.ofNat 8 (16 * x + y) :: X)
    | _, _, _ => none

/-- `hex_bytes(s, n)`: exactly `2n` hexadecimal characters, with no truncation or padding (R146). -/
def hexBytes (s : List Char) (n : Nat) : Except HostError (List Byte) :=
  if s.length = 2 * n then
    match pairBytes s with
    | some X => .ok X
    | none => .error .malformedInput
  else .error .malformedInput

/-- The lowercase hexadecimal digit of a nibble (R150). -/
def hexDigit (n : Nat) : Char := if n < 10 then Char.ofNat (48 + n) else Char.ofNat (87 + n)

/-- Two lowercase hexadecimal characters of a byte, high nibble first (R150). -/
def byteHex (b : Byte) : List Char := [hexDigit (b.toNat / 16), hexDigit (b.toNat % 16)]

/-- display(D): the 64 lowercase hexadecimal characters of rev(D) (`30_encoding.md` R105, R150). -/
def display (D : Bytes 32) : List Char := (rev D).toList.flatMap byteHex

/-- A value of a JSON object's member, as far as the template's rules tell values apart (R147 to R149, log entry 16). -/
inductive JsonValue where
  | str (s : List Char)
  | int (v : Int)
  | other
  deriving DecidableEq, Repr

/-- The member names R151 knows; any other member is ignored. -/
inductive MemberName where
  | version | previousblockhash | merkleroot | time | bits | other
  deriving DecidableEq, Repr

/-- A block template: the members of a JSON object, in their order (R151, log entry 16). -/
abbrev Template := List (MemberName × JsonValue)

/-- The member of that name; MalformedInput where it is absent (R151). -/
def Template.member (t : Template) (n : MemberName) : Except HostError JsonValue :=
  match t.find? fun m => m.1 == n with
  | some m => .ok m.2
  | none => .error .malformedInput

/-- An integer field: a JSON integer in `0 .. 2^32 - 1` (R148). -/
def intField : JsonValue → Except HostError Word
  | .int v => if 0 ≤ v ∧ v ≤ 2 ^ 32 - 1 then .ok (BitVec.ofNat 32 v.toNat) else .error .malformedInput
  | _ => .error .malformedInput

/-- A hash field: 64 hexadecimal characters, as 32 bytes in display order (R147). -/
def hashField : JsonValue → Except HostError (Bytes 32)
  | .str s => (hexBytes s 32).map (Bytes.ofList 32)
  | _ => .error .malformedInput

/-- The field `bits`: 8 hexadecimal characters read as a hexadecimal number (R149). -/
def bitsField : JsonValue → Except HostError Word
  | .str s => (hexBytes s 4).map fun X => BitVec.ofNat 32 (beVal X)
  | _ => .error .malformedInput

/-- What a template holds. It has no nonce (R151). -/
structure TemplateFields where
  version : Word
  prevHash : Bytes 32
  merkleRoot : Bytes 32
  time : Word
  bits : Word
  deriving DecidableEq, Repr

/-- Reading a template: all five members must be present and pass their rules (R151). -/
def parseTemplate (t : Template) : Except HostError TemplateFields := do
  let version ← (t.member .version).bind intField
  let prevHash ← (t.member .previousblockhash).bind hashField
  let merkleRoot ← (t.member .merkleroot).bind hashField
  let time ← (t.member .time).bind intField
  let bits ← (t.member .bits).bind bitsField
  .ok { version, prevHash, merkleRoot, time, bits }

/-- The host's write of `v` at a mapped word. -/
def writeAt (l : Loc) (v : Word) : Event := .write (BitVec.ofNat 32 l.addr) v

/-- `wrbytes ARRAY, X`: a write of LEword(X, k) to each word k of the array that `X` covers (`30_encoding.md` R111). -/
def writeBytesEvents (a : Arr) (X : List Byte) : List Event :=
  (List.range (X.length / 4)).map fun k => writeAt (.word a k) (leWord X k)

/-- The register writes of a template that is well formed (R147 to R149). The rules give no order; the model takes VERSION,
PREV_HASH, MERKLE_ROOT, TIME, BITS (log entry 22). Within an array the order is that of `wrbytes` (R111). -/
def TemplateFields.writes (f : TemplateFields) : List Event :=
  [writeAt (.reg .version) f.version] ++ writeBytesEvents .prevHash f.prevHash.toList
    ++ writeBytesEvents .merkleRoot f.merkleRoot.toList ++ [writeAt (.reg .time) f.time, writeAt (.reg .bits) f.bits]

/-- What the host does to the block with a template: its writes, or nothing where it is malformed (R151). -/
def templateWrites (t : Template) : List Event :=
  match parseTemplate t with
  | .ok f => f.writes
  | .error _ => []

/-- The nonce, when given, follows the rule of the integer fields and is written to NONCE (R148). -/
def nonceWrites (v : JsonValue) : List Event :=
  match intField v with
  | .ok n => [writeAt (.reg .nonce) n]
  | .error _ => []

end Sys2Proof.Machine
end

