-- ==== Sys2Proof/Machine/HostProgram.lean ====
section
/-! DEFINITION. Host programs (`30_encoding.md` R110 to R113): their lines and pseudo-instructions, the text they are
written in, their encoding as transactions, and how a host performs one against the block. The block knows nothing of
them: it sees one access at a time (log entry 17). -/

namespace Sys2Proof.Machine

/-! ## Lines, expansions and transactions (R110 to R112) -/

/-- `loc`: a mapped word by name, or a raw byte address (R110). -/
inductive HostLoc where
  | named (l : Loc)
  | raw (a : Word)
  deriving DecidableEq, Repr

/-- The byte address of a `loc` (R110). -/
def HostLoc.addr : HostLoc → Word
  | .named l => BitVec.ofNat 32 l.addr
  | .raw a => a

/-- The lines a program's pseudo-instructions expand to: `wr`, `rd` with the value the rules give, and the two polls,
which repeat a read (R110, R111). -/
inductive HostLine where
  | wr (l : HostLoc) (v : Word)
  | rd (l : HostLoc) (expected : Option Word)
  | poll (l : HostLoc) (mask v : Word)
  | pollne (l : HostLoc) (mask v : Word)
  deriving DecidableEq, Repr

/-- A line as written: an instruction or a pseudo-instruction (R110, R111). -/
inductive SourceLine where
  | line (l : HostLine)
  | cmd (i : Instr)
  | wrbytes (a : Arr) (X : List Byte)
  | rdbytes (a : Arr)
  | waitDone
  deriving DecidableEq, Repr

/-- Word `k` of an array as a `loc`. -/
def arrLoc (a : Arr) (k : Nat) : HostLoc := .named (.word a k)

/-- The expansion of a line (R111). -/
def SourceLine.expand : SourceLine → List HostLine
  | .line l => [l]
  | .cmd i => [.wr (.named (.reg .cmd)) (encode i)]
  | .wrbytes a X => (List.range (X.length / 4)).map fun k => .wr (arrLoc a k) (leWord X k)
  | .rdbytes a => (List.range a.words).map fun k => .rd (arrLoc a k) none
  | .waitDone => [.pollne (.named (.reg .status)) 0x7#32 0x2#32]

/-- One transaction of a program's encoding: a write with its data word, or a read (R112). -/
inductive Transaction where
  | w (addr data : Word)
  | r (addr : Word)
  deriving DecidableEq, Repr

/-- The encoding of a line: a poll encodes as the read it repeats, which the model takes once, since how often it is
repeated is no part of the program (R112; log entry 23). `HostRun.performed` has it once for each repetition. -/
def HostLine.transaction : HostLine → Transaction
  | .wr l v => .w l.addr v
  | .rd l _ | .poll l _ _ | .pollne l _ _ => .r l.addr

/-- The encoding of a program (R112). -/
def encodeProgram (p : List SourceLine) : List Transaction := (p.flatMap SourceLine.expand).map HostLine.transaction

/-- The host-port access a line performs (R110). -/
def HostLine.event : HostLine → Event
  | .wr l v => .write l.addr v
  | .rd l _ | .poll l _ _ | .pollne l _ _ => .read l.addr

/-- Is the line performed once more after its read returned `v` (R111)? -/
def HostLine.repeats (v : Word) : HostLine → Bool
  | .wr _ _ | .rd _ _ => false
  | .poll _ mask x => (v &&& mask) != x
  | .pollne _ mask x => (v &&& mask) == x

/-! ## Performing a program (R113) -/

/-- A host performing a program: the lines still to perform, and the block. -/
structure HostRun where
  lines : List HostLine
  block : State
  deriving DecidableEq, Repr

/-- The block after the event `e`, whatever else was to come. -/
def State.after (s : State) (e : Event) : Host.Outcome State Fault Refusal :=
  step { s with agenda := e :: s.agenda }

/-- The host's turn: it performs the access of its first line, and keeps the line if that is a poll whose condition does
not hold yet (R111). -/
def HostRun.hostTurn (r : HostRun) : Host.Outcome HostRun Fault Refusal :=
  match r.lines with
  | [] => .next r
  | l :: rest =>
    match r.block.after l.event with
    | .next b => .next { lines := if l.repeats (b.readData.getD 0#32) then l :: rest else rest, block := b }
    | .fault f => .fault f
    | .refused x => .refused x

/-- Another agent's turn, or the environment's. -/
def HostRun.otherTurn (r : HostRun) (e : Event) : Host.Outcome HostRun Fault Refusal :=
  match r.block.after e with
  | .next b => .next { r with block := b }
  | .fault f => .fault f
  | .refused x => .refused x

/-- Whose turn it is in a run (R20). The host is the port's only master (R59), so no other turn performs an access. -/
inductive Turn where
  /-- The host performs the access of its first line. -/
  | host
  /-- Lane `i` takes its lane step (R210). -/
  | lane (i : Nat)
  /-- The controller takes the completion step (R213). -/
  | complete
  /-- The environment asserts rst_n (R280). -/
  | rstN
  /-- The environment drives the input lanes_ready to `level` (R11). -/
  | lanesReady (level : Bool)
  /-- The block moves on its own, the lane being a free value (log entry 3). -/
  | block
  deriving DecidableEq, Repr

/-- One turn of a run. -/
def HostRun.turn (r : HostRun) : Turn → Host.Outcome HostRun Fault Refusal
  | .host => r.hostTurn
  | .lane i => r.otherTurn (.lane i)
  | .complete => r.otherTurn .complete
  | .rstN => r.otherTurn .rstN
  | .lanesReady level => r.otherTurn (.lanesReady level)
  | .block => .next { r with block := r.block.autonomous }

/-- A run under a finite schedule, which may be any (R211). `FairRun` is an endless run under a fair one (R292). -/
def HostRun.run : HostRun → List Turn → Host.Outcome HostRun Fault Refusal
  | r, [] => .next r
  | r, t :: turns =>
    match r.turn t with
    | .next r' => r'.run turns
    | .fault f => .fault f
    | .refused x => .refused x

/-- The transactions the host performs under a finite schedule, a poll's read once for each time it is performed, as the
listings of `95_test_vectors.md` show it (R112; log entry 23). -/
def HostRun.performed : HostRun → List Turn → List Transaction
  | _, [] => []
  | r, t :: turns =>
    (if t = .host then (r.lines.take 1).map HostLine.transaction else []) ++
      match r.turn t with
      | .next r' => r'.performed turns
      | .fault _ | .refused _ => []

/-- The end of a run: the last transaction has been performed and no batch is executing (R113). -/
def HostRun.ended (r : HostRun) : Bool := r.lines.isEmpty && decide (r.block.state ≠ .dispatched)

/-! ## The text of a program (R110, R111; log entry 19) -/

/-- The name of a register (R63). -/
def Reg.name : Reg → String
  | .id => "ID"
  | .cmd => "CMD"
  | .status => "STATUS"
  | .err => "ERR"
  | .errInfo => "ERR_INFO"
  | .irqEn => "IRQ_EN"
  | .version => "VERSION"
  | .time => "TIME"
  | .bits => "BITS"
  | .nonce => "NONCE"
  | .nonceOffset => "NONCE_OFFSET"
  | .batchSize => "BATCH_SIZE"
  | .solNonce => "SOL_NONCE"
  | .maxBatch => "MAX_BATCH"

/-- The name of an array (R63). -/
def Arr.name : Arr → String
  | .prevHash => "PREV_HASH"
  | .merkleRoot => "MERKLE_ROOT"
  | .target => "TARGET"
  | .solDigest => "SOL_DIGEST"
  | .dbgDigest => "DBG_DIGEST"
  | .hdr => "HDR"

/-- The mnemonic of a command (R91). -/
def mnemonicOf : Instr → String
  | .nop => "NOP"
  | .encodeHeader => "ENCODE_HEADER"
  | .loadHeader => "LOAD_HEADER"
  | .setNonce => "SET_NONCE"
  | .computeTarget => "COMPUTE_TARGET"
  | .hash1 => "HASH1"
  | .hash2 => "HASH2"
  | .submit => "SUBMIT"
  | .retire => "RETIRE"
  | .rearm => "REARM"
  | .clearErr => "CLEAR_ERR"
  | .softReset => "SOFT_RESET"

/-- The twelve commands, in the order of R91. -/
def allInstrs : List Instr :=
  [.nop, .encodeHeader, .loadHeader, .setNonce, .computeTarget, .hash1, .hash2, .submit, .retire, .rearm, .clearErr,
    .softReset]

/-- The words of a line: cut at blanks, a comma a word of its own, up to the comment. `cur` is the word being read. -/
def lexLine (cur : List Char) : List Char → List (List Char)
  | [] => if cur.isEmpty then [] else [cur]
  | c :: s =>
    let done := if cur.isEmpty then [] else [cur]
    if c = ';' then done
    else if c = ' ' ∨ c = '\t' then done ++ lexLine [] s
    else if c = ',' then done ++ [[',']] ++ lexLine [] s
    else lexLine (cur ++ [c]) s

/-- The value of one or more decimal digits. -/
def decimal (s : List Char) : Option Nat :=
  if s.isEmpty then none
  else s.foldl (fun v c => if '0' ≤ c ∧ c ≤ '9' then v.map (fun n => 10 * n + (c.toNat - 48)) else none) (some 0)

/-- The value of 1 to 8 hexadecimal digits. -/
def hexNumber (s : List Char) : Option Nat :=
  if s.isEmpty ∨ 8 < s.length then none
  else s.foldl (fun v c => v.bind fun n => (hexVal c).map fun x => 16 * n + x) (some 0)

/-- `imm32`: 0x and 1 to 8 hexadecimal digits, or a decimal number below 2^32 (R110). -/
def parseImm : List Char → Option Word
  | '0' :: 'x' :: s => (hexNumber s).map (BitVec.ofNat 32)
  | s => (decimal s).bind fun n => if n < 2 ^ 32 then some (BitVec.ofNat 32 n) else none

/-- `s` without the prefix `p`. -/
def stripPrefix : List Char → List Char → Option (List Char)
  | [], s => some s
  | _ :: _, [] => none
  | c :: p, d :: s => if c = d then stripPrefix p s else none

/-- The array of that name. -/
def parseArr (s : List Char) : Option Arr := allArrs.find? fun a => a.name.toList = s

/-- `.w` and a word number below `n` (R110). -/
def parseWordIndex (s : List Char) (n : Nat) : Option Nat :=
  match s with
  | '.' :: 'w' :: k => (decimal k).bind fun k => if k < n then some k else none
  | _ => none

/-- `RESULT[i].wk`, `s` being what follows the opening bracket (R110). -/
def parseResult (s : List Char) : Option HostLoc :=
  let i := s.takeWhile (· ≠ ']')
  match decimal i, parseWordIndex (s.drop (i.length + 1)) 8 with
  | some i, some k => if slotBase i + 4 * k < 2 ^ 32 then some (.named (.result i k)) else none
  | _, _ => none

/-- `loc` (R110). -/
def parseLoc (s : List Char) : Option HostLoc :=
  match s with
  | '@' :: '0' :: 'x' :: a => (hexNumber a).map fun n => .raw (BitVec.ofNat 32 n)
  | '@' :: a => (hexNumber a).map fun n => .raw (BitVec.ofNat 32 n)
  | _ =>
    match allRegs.find? fun r => r.name.toList = s with
    | some r => some (.named (.reg r))
    | none =>
      match stripPrefix "RESULT[".toList s with
      | some t => parseResult t
      | none =>
        (allArrs.findSome? fun a =>
          ((stripPrefix a.name.toList s).bind (parseWordIndex · a.words)).map fun k => arrLoc a k)

/-- `loc, mask, v`, the operands of a poll (R111). -/
def parsePoll (make : HostLoc → Word → Word → HostLine) : List (List Char) → Option SourceLine
  | [l, [','], m, [','], v] =>
    match parseLoc l, parseImm m, parseImm v with
    | some l, some m, some v => some (.line (make l m v))
    | _, _, _ => none
  | _ => none

/-- A line from its words (R110, R111). -/
def parseWords : List (List Char) → Option SourceLine
  | [] => none
  | op :: args =>
    if op = "wr".toList then
      match args with
      | [l, [','], v] =>
        match parseLoc l, parseImm v with
        | some l, some v => some (.line (.wr l v))
        | _, _ => none
      | _ => none
    else if op = "rd".toList then
      match args with
      | [l] => (parseLoc l).map fun l => .line (.rd l none)
      | [l, ['-', '>'], v] =>
        match parseLoc l, parseImm v with
        | some l, some v => some (.line (.rd l (some v)))
        | _, _ => none
      | _ => none
    else if op = "cmd".toList then
      match args with
      | [n] => (allInstrs.find? fun i => (mnemonicOf i).toList = n).map .cmd
      | _ => none
    else if op = "wrbytes".toList then
      match args with
      | [a, [','], x] =>
        match parseArr a, pairBytes x with
        | some a, some X => if X.length % 4 = 0 ∧ X.length ≤ 4 * a.words then some (.wrbytes a X) else none
        | _, _ => none
      | _ => none
    else if op = "rdbytes".toList then
      match args with
      | [a] => (parseArr a).map .rdbytes
      | _ => none
    else if op = "poll".toList then parsePoll .poll args
    else if op = "pollne".toList then parsePoll .pollne args
    else if op = "wait_done".toList then if args.isEmpty then some .waitDone else none
    else none

/-- A line of a program from its text, `none` where R110 and R111 give it no meaning. -/
def parseLine (s : String) : Option SourceLine := parseWords (lexLine [] s.toList)

end Sys2Proof.Machine
end

