-- ==== Sys2Proof/Safety.lean ====
section
/-! DEFINITION. What claims about the block are stated in: the invariants of a state, the states a run reaches, the agendas
that describe a batch and a search, the fair schedules, and what the host's text denotes. -/

namespace Sys2Proof.Machine

/-! ## Invariants -/

/-- The bytes of RESULT slot `i` are all written, and are the digest `D` (R42, R64). -/
def State.slotHolds (s : State) (i : Nat) (D : Bytes 32) : Prop :=
  ∀ (j : Nat) (h : j < 32), s.result.read? (slotBase i + j) = some D[j]

/-- What holds of every state a run reaches, whatever the host and the environment do. -/
structure State.Inv (s : State) : Prop where
  /-- RESULT is in canonical form (log entry 9). -/
  resultWf : s.result.wf
  /-- Only bytes of the RESULT window are written (R64). -/
  resultIn : ∀ c ∈ s.result, resultBase ≤ c.1 ∧ c.1 < resultBase + 32 * s.maxBatch
  /-- PENDING is in canonical form (log entry 12). -/
  pendingWf : s.pending.wf
  /-- PENDING holds lanes of the batch (R45). -/
  pendingIn : ∀ i ∈ s.pending, i < s.batchSize.toNat
  /-- Lanes exist only while STATE = Dispatched (R20). -/
  pendingOnly : s.state ≠ .dispatched → s.pending = []
  /-- HIT is in canonical form (log entry 12). -/
  hitWf : s.hit.wf
  /-- HIT has one bit per slot (R46). -/
  hitIn : ∀ i ∈ s.hit, i < s.maxBatch
  /-- OFF never exceeds 2^32 (R34). -/
  offLe : s.off ≤ 2 ^ 32
  /-- A batch has a legal size and ends within the nonce space (R205), and NONCE_OFFSET and BATCH_SIZE still describe it
  until RETIRE (R68). -/
  batchRange : s.state = .dispatched ∨ s.state = .resultsReady →
    1 ≤ s.batchSize.toNat ∧ s.batchSize.toNat ≤ s.maxBatch ∧ s.off + s.batchSize.toNat ≤ 2 ^ 32
  /-- Outside Idle a header is loaded (R24, R25). -/
  header : s.state ≠ .idle → s.hdrValid = true
  /-- FOUND is 1 only in ResultsReady and Solved (R24, R26). -/
  foundOnly : s.found = true → s.state = .resultsReady ∨ s.state = .solved
  /-- FOUND and NSR are never both 1 (R26, R27). -/
  exclusive : ¬(s.found = true ∧ s.nsr = true)
  /-- In ResultsReady the last batch's verdict is known (R26, R27). -/
  verdict : s.state = .resultsReady → s.found = true ∨ s.nsr = true
  /-- Solved is entered with FOUND = 1 (R24). -/
  solvedFound : s.state = .solved → s.found = true
  /-- MALFORMED_INPUT is never raised by the block (R254). -/
  neverMalformed : s.err ≠ .malformedInput
  /-- With no error recorded ERR_INFO is 0 (R33, R251). -/
  noErrorNoInfo : s.err = .none → s.errInfo = 0#32

/-- What the lanes of the running batch have done so far (R210): the slot of a lane that has stepped holds its digest, and
its HIT bit the verdict. -/
def State.BatchDone (s : State) : Prop :=
  s.state = .dispatched → ∀ i < s.batchSize.toNat, i ∉ s.pending →
    s.slotHolds i (candidate s.hdr (s.nonceOffset + BitVec.ofNat 32 i)) ∧
    (i ∈ s.hit ↔ accept (candidate s.hdr (s.nonceOffset + BitVec.ofNat 32 i)) s.target = true)

/-- The states that runs from reset reach, for any parameter, input and events (R280; log entry 18). -/
inductive State.Reachable : State → Prop where
  | reset (m : Fin 134215680) (level : Bool) (events : List Event) :
    State.Reachable { State.reset with maxBatchLessOne := m, lanesReady := level, agenda := events }
  | step {s t : State} : State.Reachable s → Machine.step s = .next t → State.Reachable t

/-! ## Agendas -/

/-- The host writes the word of a command to CMD (R73). -/
def commandEvent (i : Instr) : Event := .write cmdAddr (encode i)

/-- The lane steps of the lanes `order`, in that order, then the completion step (R211, R213). -/
def batchEvents (order : List Nat) : List Event := order.map .lane ++ [.complete]

/-- One round of the host's search loop of R224: SUBMIT, the batch, RETIRE, REARM. -/
def searchRound (order : List Nat) : List Event :=
  [commandEvent .submit] ++ batchEvents order ++ [commandEvent .retire, commandEvent .rearm]

/-- The first `k` rounds, round `r` stepping its lanes in the order `order r`. -/
def searchRounds (order : Nat → List Nat) (k : Nat) : List Event :=
  (List.range k).flatMap fun r => searchRound (order r)

/-- The nonce `n` of the nonce space is accepted for the header and target of `s` (R202, R200). -/
def State.accepts (s : State) (n : Nat) : Prop :=
  accept (candidate s.hdr (BitVec.ofNat 32 n)) s.target = true

/-- The state after all the events of `events`, none being left, if every step answers a next state. -/
def State.runAll (s : State) (events : List Event) : Host.Outcome State Fault Refusal :=
  Host.Core.run Sys2Proof.core events.length { s with agenda := events }

/-! ## Fair schedules (R292) -/

/-- At this turn lane `i` takes its lane step, if that is enabled in `s`. -/
def Turn.TakesLane (s : State) (i : Nat) : Turn → Prop
  | .lane j => j = i
  | .block => s.freeLane = some i
  | .host | .complete | .rstN | .lanesReady _ => False

/-- At this turn the controller takes the completion step, if that is enabled in `s`. -/
def Turn.TakesCompletion (s : State) : Turn → Prop
  | .complete => True
  | .block => s.freeLane = none
  | .host | .lane _ | .rstN | .lanesReady _ => False

/-- An endless run of a host and the block, `ρ n` being where it stands before turn `n`, under a schedule that is weakly
fair to the lanes and to the controller (R292). It says nothing of the order of the steps (R211), of when the host's turns
come, or of what the host does. -/
structure FairRun (ρ : Nat → HostRun) (turns : Nat → Turn) : Prop where
  /-- Every turn answers the run's next place. -/
  steps : ∀ n, (ρ n).turn (turns n) = .next (ρ (n + 1))
  /-- The lane step of a pending lane eventually occurs, unless rst_n comes first. -/
  lanes : ∀ n i, (ρ n).block.state = .dispatched → i ∈ (ρ n).block.pending →
    ∃ m ≥ n, (turns m).TakesLane (ρ m).block i ∨ turns m = .rstN
  /-- Once no lane is pending the completion step eventually occurs, unless rst_n comes first. -/
  completion : ∀ n, (ρ n).block.state = .dispatched → (ρ n).block.pending = [] →
    ∃ m ≥ n, (turns m).TakesCompletion (ρ m).block ∨ turns m = .rstN

/-- The host goes on: its turn comes again and again. R292 is about the block and does not ask for it. -/
def HostActs (turns : Nat → Turn) : Prop := ∀ n, ∃ m ≥ n, turns m = .host

/-! ## Host text -/

/-- `c` is the hexadecimal digit of value `d`, in either letter case (R146). -/
def HexDigit (c : Char) (d : Nat) : Prop :=
  "0123456789abcdef".toList[d]? = some c ∨ "0123456789ABCDEF".toList[d]? = some c

/-- `s` is a string of exactly `k` hexadecimal characters (R146). -/
def HexString (s : List Char) (k : Nat) : Prop := s.length = k ∧ ∀ c ∈ s, ∃ d, HexDigit c d

/-- The hexadecimal text `s` denotes the bytes `X`: two characters for each byte, high nibble first (R146). -/
def HexDenotes (s : List Char) (X : List Byte) : Prop :=
  s.length = 2 * X.length ∧
  ∀ (i : Nat) (_ : i < X.length), ∃ c c' x y,
    s[2 * i]? = some c ∧ s[2 * i + 1]? = some c' ∧ HexDigit c x ∧ HexDigit c' y ∧ X[i].toNat = 16 * x + y

/-- A value that the rule of the member's name admits (R146 to R149). -/
def JsonValue.Fits (x : JsonValue) : MemberName → Prop
  | .version | .time => ∃ v : Nat, v ≤ 2 ^ 32 - 1 ∧ x = .int v
  | .previousblockhash | .merkleroot => ∃ s, HexString s 64 ∧ x = .str s
  | .bits => ∃ s, HexString s 8 ∧ x = .str s
  | .other => True

/-- The template has the member `n` with value `x`, and no other value of it: so it does not matter which of two members
of one name counts (R151; log entry 16). -/
def Template.Has (T : Template) (n : MemberName) (x : JsonValue) : Prop := (n, x) ∈ T ∧ ∀ m ∈ T, m.1 = n → m.2 = x

end Sys2Proof.Machine
end

