-- ==== Sys2Proof/Certificates/Slice0/Obligations.lean ====
section
/-! DEFINITION. The statements about the block, for the provers. Each docstring says which rule of `spec/` it formalises,
or that it is derived. In a statement about a command, `s` is the state in which the command word is executed. -/

open Sys2Proof Sys2Proof.Machine

/-! ## Decoding and encoding -/

/-- Derived from R90, R91: the twelve command words, read bit for bit from the table of R91, decode to the commands they
stand for. -/
def Obligations.CommandWordsDecode : Prop :=
  decode 0x00000000#32 = .ok .nop ∧ decode 0x00000001#32 = .ok .encodeHeader ∧
  decode 0x00000002#32 = .ok .loadHeader ∧ decode 0x00000003#32 = .ok .setNonce ∧
  decode 0x00000004#32 = .ok .computeTarget ∧ decode 0x00000005#32 = .ok .hash1 ∧
  decode 0x00000006#32 = .ok .hash2 ∧ decode 0x00000007#32 = .ok .submit ∧
  decode 0x00000008#32 = .ok .retire ∧ decode 0x00000009#32 = .ok .rearm ∧
  decode 0x0000000A#32 = .ok .clearErr ∧ decode 0x0000000B#32 = .ok .softReset

/-- Derived from R90, R91, R96: decoding and encoding agree in both directions. Every well-formed instruction is what
its encoding decodes to, and a word that decodes to an instruction is that instruction's encoding. -/
def Obligations.DecodeEncodeAgree : Prop :=
  (∀ i : Instr, i.wf = true → decode (encode i) = .ok i) ∧
  (∀ (w : Word) (i : Instr), decode w = .ok i → i.wf = true ∧ w = encode i)

/-- R92: every word with RSV not 0, and every word with OPC in 0x0C .. 0xFF, is reserved; executing it raises
RESERVED_OPCODE(word), which the first error recorded keeps out of ERR (R252), and has no other effect; no other word is
reserved, and NOP is the only command that does nothing in every state. -/
def Obligations.ReservedWordsRaise : Prop :=
  (∀ w : Word,
    ((∃ r, decode w = .error r) ↔ (w.extractLsb' 8 24 ≠ 0#24 ∨ 0x0C ≤ (w.extractLsb' 0 8).toNat)) ∧
    ∀ s : State, (w.extractLsb' 8 24 ≠ 0#24 ∨ 0x0C ≤ (w.extractLsb' 0 8).toNat) →
      perform (.write 0x00000004#32 w) s =
        .next { s with
          err := if s.err = .none then .reservedOpcode else s.err
          errInfo := if s.err = .none then w else s.errInfo }) ∧
  ∀ i : Instr, (∀ s : State, exec i s = .next s) ↔ i = .nop

/-- Derived from R20, R22, R73, R94: where the next event is a host write of `v` to CMD and `v` decodes to `i`, a step
is `exec i` of the state less that event; and the state `withFetchWord` gives is such a state. That the write stands
first in the agenda is the model's form (log entries 1 and 4). -/
def Obligations.StepRunsDecodedCommand : Prop :=
  (∀ (s : State) (v : Word) (i : Instr) (rest : List Event),
    s.agenda = .write 0x00000004#32 v :: rest → decode v = .ok i → step s = exec i { s with agenda := rest }) ∧
  (∀ (s : State) (v : Word) (i : Instr), decode v = .ok i → step (s.withFetchWord 32 v.toNat) = exec i s)

/-! ## The gate of a command -/

/-- Derived from R94, R253 (its commands clause): while an error is pending, every command but NOP, CLEAR_ERR and
SOFT_RESET is dropped with no effect and no record. -/
def Obligations.PendingErrorDropsCommands : Prop :=
  ∀ (i : Instr) (s : State), s.err ≠ .none → i ≠ .nop → i ≠ .clearErr → i ≠ .softReset → exec i s = .next s

/-- Derived from R94, R95, R257: a command that R95 does not admit in the state raises ILLEGAL_COMMAND with its command
word, and has no other effect. The "no" entries of the table are written out. -/
def Obligations.IllegalCommandsRaise : Prop :=
  ∀ (i : Instr) (w : Word) (s : State), decode w = .ok i → s.err = .none →
    ((i = .submit ∧ s.state ≠ .headerLoaded) ∨ (i = .retire ∧ s.state ≠ .resultsReady) ∨
      (i = .rearm ∧ ¬(s.state = .idle ∧ s.hdrValid = true)) ∨
      ((i = .encodeHeader ∨ i = .loadHeader) ∧ (s.state = .dispatched ∨ s.state = .resultsReady)) ∨
      ((i = .setNonce ∨ i = .computeTarget ∨ i = .hash1 ∨ i = .hash2 ∨ i = .softReset) ∧ s.state = .dispatched)) →
    exec i s = .next { s with err := .illegalCommand, errInfo := w }

/-! ## Control commands -/

/-- R220: NOP, command word 0x00000000, does nothing, in every state and even while an error is pending. -/
def Obligations.NopDoesNothing : Prop :=
  decode 0x00000000#32 = .ok .nop ∧ ∀ s : State, exec .nop s = .next s

/-- R221: CLEAR_ERR, command word 0x0000000A, clears ERR and ERR_INFO in every state, while an error is pending too, so
that ERR_PEND becomes 0; every other register is unchanged. -/
def Obligations.ClearErrClearsTheError : Prop :=
  decode 0x0000000A#32 = .ok .clearErr ∧
  ∀ s : State, exec .clearErr s = .next { s with err := .none, errInfo := 0#32 } ∧
    ({ s with err := .none, errInfo := 0#32 } : State).errPend = false

/-- Derived from R222, R280, R281 and, for what the reset leaves alone, log entry 14: SOFT_RESET outside Dispatched,
while an error is pending too, gives every register its reset value and leaves RESULT with no written byte; the
parameter, the input and the model's own fields stay. In Dispatched with an error pending it is dropped. -/
def Obligations.SoftResetResets : Prop :=
  (∀ s : State, s.state ≠ .dispatched →
    exec .softReset s =
      .next
        { state := .idle, hdrValid := false, found := false, nsr := false, dbgHit := false, offsetHi := false,
          err := .none, errInfo := 0#32, irqEn := 0#2, version := 0#32, time := 0#32, bits := 0#32, nonce := 0#32,
          nonceOffset := 0#32, batchSize := 0#32, prevHash := Vector.replicate 32 0#8,
          merkleRoot := Vector.replicate 32 0#8, target := Vector.replicate 32 0#8, hdr := Vector.replicate 80 0#8,
          solNonce := 0#32, solDigest := Vector.replicate 32 0#8, dbgDigest := Vector.replicate 32 0#8, pending := [],
          hit := [], result := [], maxBatchLessOne := s.maxBatchLessOne, lanesReady := s.lanesReady,
          agenda := s.agenda, readData := s.readData, draws := s.draws }) ∧
  (∀ s : State, s.state = .dispatched → s.err ≠ .none → exec .softReset s = .next s)

/-- Derived from R280, R281, R282 and, for what the reset leaves alone, log entry 14: rst_n does the same in every
state, Dispatched included, where it aborts the batch: no lane is pending any more, so neither a lane step nor the
completion step of that batch follows. -/
def Obligations.ResetInputResets : Prop :=
  ∀ (s : State) (rest : List Event), s.agenda = .rstN :: rest →
    step s =
      .next
        { State.reset with
          maxBatchLessOne := s.maxBatchLessOne, lanesReady := s.lanesReady, agenda := rest, readData := s.readData,
          draws := s.draws } ∧
    ∀ t : State, step s = .next t → t.state = .idle ∧ t.pending = [] ∧ t.result = [] ∧
      (∀ i, perform (.lane i) t = .next t) ∧ perform .complete t = .next t

/-! ## Header codec -/

/-- R131: ENCODE_HEADER, command word 0x00000001, legal in Idle, HeaderLoaded and Solved only, writes HDR from the field
registers, sets HDR_VALID and STATE = HeaderLoaded and clears FOUND and NSR; nothing else changes. -/
def Obligations.EncodeHeaderLoadsTheFields : Prop :=
  decode 0x00000001#32 = .ok .encodeHeader ∧
  (∀ s : State, s.err = .none → (s.state = .dispatched ∨ s.state = .resultsReady) →
    exec .encodeHeader s = .next { s with err := .illegalCommand, errInfo := 0x00000001#32 }) ∧
  ∀ s : State, s.err = .none → (s.state = .idle ∨ s.state = .headerLoaded ∨ s.state = .solved) →
    exec .encodeHeader s =
      .next { s with
        hdr := encodeFields
          { version := s.version, prevHash := s.prevHash, merkleRoot := s.merkleRoot, time := s.time, bits := s.bits,
            nonce := s.nonce }
        hdrValid := true, state := .headerLoaded, found := false, nsr := false }

/-- R133, R134: byte by byte, the integer fields stand little-endian at their offsets and the hash fields byte-reversed.
-/
def Obligations.HeaderBytesOfTheFields : Prop :=
  ∀ f : HeaderFields,
    (∀ i (h : i < 4),
      (encodeFields f)[i] = f.version.extractLsb' (8 * i) 8 ∧ (encodeFields f)[68 + i] = f.time.extractLsb' (8 * i) 8 ∧
      (encodeFields f)[72 + i] = f.bits.extractLsb' (8 * i) 8 ∧
      (encodeFields f)[76 + i] = f.nonce.extractLsb' (8 * i) 8) ∧
    (∀ j (h : j < 32),
      (encodeFields f)[4 + j] = f.prevHash[31 - j] ∧ (encodeFields f)[36 + j] = f.merkleRoot[31 - j])

/-- R144: decode and encode of a header are inverse, in both directions. -/
def Obligations.HeaderRoundTrip : Prop :=
  (∀ f : HeaderFields, decodeFields (encodeFields f) = f) ∧ (∀ h : Bytes 80, encodeFields (decodeFields h) = h)

/-- R135: LOAD_HEADER, command word 0x00000002, legal in Idle, HeaderLoaded and Solved only, commits HDR as it
stands. -/
def Obligations.LoadHeaderCommitsHdr : Prop :=
  decode 0x00000002#32 = .ok .loadHeader ∧
  (∀ s : State, s.err = .none → (s.state = .dispatched ∨ s.state = .resultsReady) →
    exec .loadHeader s = .next { s with err := .illegalCommand, errInfo := 0x00000002#32 }) ∧
  ∀ s : State, s.err = .none → (s.state = .idle ∨ s.state = .headerLoaded ∨ s.state = .solved) →
    exec .loadHeader s = .next { s with hdrValid := true, state := .headerLoaded, found := false, nsr := false }

/-- R136: SET_NONCE, command word 0x00000003, legal in every state but Dispatched, writes NONCE little-endian to
HDR[76..79]; every other byte of HDR and everything else is unchanged. -/
def Obligations.SetNonceWritesTheLastFourBytes : Prop :=
  decode 0x00000003#32 = .ok .setNonce ∧
  (∀ s : State, s.err = .none → s.state = .dispatched →
    exec .setNonce s = .next { s with err := .illegalCommand, errInfo := 0x00000003#32 }) ∧
  ∀ s : State, s.err = .none → s.state ≠ .dispatched →
    ∃ h : Bytes 80, exec .setNonce s = .next { s with hdr := h } ∧
      (∀ i (_ : i < 76), h[i] = s.hdr[i]) ∧ (∀ i (_ : i < 4), h[76 + i] = s.nonce.extractLsb' (8 * i) 8)

/-! ## Compact target -/

/-- R138, R139, R141: with exponent = bits[31:24] and mantissa = bits[23:0], unsigned, expand fails below exponent 3 and
where mantissa * 2^(8*(exponent-3)) is at or above 2^256, and otherwise gives the 32 bytes whose big-endian value that
is. -/
def Obligations.ExpandCompactTarget : Prop :=
  ∀ bits : Word,
    ((bits.toNat / 2 ^ 24 < 3 ∨ 2 ^ 256 ≤ bits.toNat % 2 ^ 24 * 2 ^ (8 * (bits.toNat / 2 ^ 24 - 3))) →
      expand bits = none) ∧
    (3 ≤ bits.toNat / 2 ^ 24 → bits.toNat % 2 ^ 24 * 2 ^ (8 * (bits.toNat / 2 ^ 24 - 3)) < 2 ^ 256 →
      ∃ t : Bytes 32, expand bits = some t ∧
        beVal t.toList = bits.toNat % 2 ^ 24 * 2 ^ (8 * (bits.toNat / 2 ^ 24 - 3)))

/-- Derived from R140: exactly when a compact target with exponent 3 or more overflows 256 bits. -/
def Obligations.OverflowingCompactTargets : Prop :=
  ∀ bits : Word, 3 ≤ bits.toNat / 2 ^ 24 →
    (expand bits = none ↔
      (bits.toNat / 2 ^ 24 = 33 ∧ 2 ^ 16 ≤ bits.toNat % 2 ^ 24) ∨
      (bits.toNat / 2 ^ 24 = 34 ∧ 2 ^ 8 ≤ bits.toNat % 2 ^ 24) ∨
      (35 ≤ bits.toNat / 2 ^ 24 ∧ bits.toNat % 2 ^ 24 ≠ 0))

/-- Derived from R142: COMPUTE_TARGET, command word 0x00000004, legal in every state but Dispatched, writes the expanded
target, or records INVALID_DIFFICULTY with the command word and changes nothing else. -/
def Obligations.ComputeTargetExpandsBits : Prop :=
  decode 0x00000004#32 = .ok .computeTarget ∧
  (∀ s : State, s.err = .none → s.state = .dispatched →
    exec .computeTarget s = .next { s with err := .illegalCommand, errInfo := 0x00000004#32 }) ∧
  ∀ s : State, s.err = .none → s.state ≠ .dispatched →
    (∀ t, expand s.bits = some t → exec .computeTarget s = .next { s with target := t }) ∧
    (expand s.bits = none →
      exec .computeTarget s = .next { s with err := .invalidDifficulty, errInfo := 0x00000004#32 })

/-! ## SHA-256 -/

/-- R165: Pad(M) appends 0x80, the smallest number of zero bytes that makes the length 56 modulo 64, and the bit length
as a 64-bit big-endian integer; the padded length is a multiple of 64. -/
def Obligations.PaddingIsMinimal : Prop :=
  ∀ M : List Byte, M.length < 2 ^ 61 →
    ∃ (z : Nat) (L : List Byte),
      pad M = M ++ [0x80#8] ++ List.replicate z 0#8 ++ L ∧ L.length = 8 ∧ beVal L = 8 * M.length ∧
      (M.length + 1 + z) % 64 = 56 ∧ (∀ z', (M.length + 1 + z') % 64 = 56 → z ≤ z') ∧ (pad M).length % 64 = 0

/-- R169: the schedule of a block has 64 words; the first 16 are the block's big-endian words and each later one follows
the recurrence. -/
def Obligations.ScheduleRecurrence : Prop :=
  ∀ block : List Byte,
    (schedule block).length = 64 ∧ (∀ t < 16, (schedule block).getD t 0#32 = beWord block t) ∧
    ∀ t, 16 ≤ t → t < 64 →
      (schedule block).getD t 0#32 =
        (schedule block).getD (t - 16) 0#32 + smallSigma0 ((schedule block).getD (t - 15) 0#32)
          + (schedule block).getD (t - 7) 0#32 + smallSigma1 ((schedule block).getD (t - 2) 0#32)

/-- Derived from R102, R181: the running state after block 0 of the padded header is the same for every nonce. -/
def Obligations.MidstateIgnoresTheNonce : Prop :=
  ∀ (h : Bytes 80) (n n' : Word),
    compressBlocks (pad (withNonce h n).toList) 1 = compressBlocks (pad (withNonce h n').toList) 1

/-- Derived from `95_test_vectors.md` V-S2 and V-W5: known answers of SHA-256 and of the double hash. -/
def Obligations.Sha256KnownAnswers : Prop :=
  (sha256 [0x61#8, 0x62#8, 0x63#8]).toList =
    [0xba#8, 0x78#8, 0x16#8, 0xbf#8, 0x8f#8, 0x01#8, 0xcf#8, 0xea#8, 0x41#8, 0x41#8, 0x40#8, 0xde#8, 0x5d#8, 0xae#8,
      0x22#8, 0x23#8, 0xb0#8, 0x03#8, 0x61#8, 0xa3#8, 0x96#8, 0x17#8, 0x7a#8, 0x9c#8, 0xb4#8, 0x10#8, 0xff#8, 0x61#8,
      0xf2#8, 0x00#8, 0x15#8, 0xad#8] ∧
  (sha256d (Vector.replicate 80 0#8 : Bytes 80).toList).toList =
    [0x4b#8, 0xe7#8, 0x57#8, 0x0e#8, 0x8f#8, 0x70#8, 0xeb#8, 0x09#8, 0x36#8, 0x40#8, 0xc8#8, 0x46#8, 0x82#8, 0x74#8,
      0xba#8, 0x75#8, 0x97#8, 0x45#8, 0xa7#8, 0xaa#8, 0x2b#8, 0x7d#8, 0x25#8, 0xab#8, 0x1e#8, 0x04#8, 0x21#8, 0xb2#8,
      0x59#8, 0x84#8, 0x50#8, 0x14#8]

/-- R178: HASH1, command word 0x00000005, legal in every state but Dispatched, puts SHA-256 of the 80 header bytes in
DBG_DIGEST and changes nothing else. -/
def Obligations.Hash1HashesHdr : Prop :=
  decode 0x00000005#32 = .ok .hash1 ∧
  (∀ s : State, s.err = .none → s.state = .dispatched →
    exec .hash1 s = .next { s with err := .illegalCommand, errInfo := 0x00000005#32 }) ∧
  ∀ s : State, s.err = .none → s.state ≠ .dispatched →
    exec .hash1 s = .next { s with dbgDigest := sha256 s.hdr.toList }

/-- Derived from R179: HASH2, command word 0x00000006, legal in every state but Dispatched, puts the double hash of the
header in DBG_DIGEST, its verdict against TARGET in DBG_HIT, and changes nothing else. -/
def Obligations.Hash2HashesHdrTwice : Prop :=
  decode 0x00000006#32 = .ok .hash2 ∧
  (∀ s : State, s.err = .none → s.state = .dispatched →
    exec .hash2 s = .next { s with err := .illegalCommand, errInfo := 0x00000006#32 }) ∧
  ∀ s : State, s.err = .none → s.state ≠ .dispatched →
    exec .hash2 s =
      .next { s with
        dbgDigest := sha256 (sha256 s.hdr.toList).toList
        dbgHit := accept (sha256 (sha256 s.hdr.toList).toList) s.target }

/-- R180: HASH2 after SET_NONCE with NONCE = n gives the digest and the verdict that the lane whose nonce is n gives,
with the same HDR[0..75] and TARGET. -/
def Obligations.Hash2AgreesWithTheLane : Prop :=
  ∀ (s r : State) (i : Nat), s.err = .none → s.state ≠ .dispatched →
    r.state = .dispatched → i ∈ r.pending → r.nonceOffset + BitVec.ofNat 32 i = s.nonce →
    (∀ j (_ : j < 76), r.hdr[j] = s.hdr[j]) → r.target = s.target →
    ∃ t u v : State, exec .setNonce s = .next t ∧ exec .hash2 t = .next u ∧ perform (.lane i) r = .next v ∧
      v.slotHolds i u.dbgDigest ∧ (i ∈ v.hit ↔ u.dbgHit = true)

/-! ## Comparator -/

/-- R200, R201: a candidate is accepted exactly when the digest, read as a little-endian integer, is strictly below the
target, read as a big-endian one; that is when the first byte in which the reversed digest and the target differ is
smaller; a tie is rejected. -/
def Obligations.ComparatorIsStrictLess : Prop :=
  ∀ D T : Bytes 32,
    (accept D T = true ↔ leVal D.toList < beVal T.toList) ∧
    (accept D T = true ↔
      ∃ (i : Nat) (_ : i < 32), (rev D)[i].toNat < T[i].toNat ∧ ∀ (j : Nat) (_ : j < i), (rev D)[j] = T[j]) ∧
    (rev D = T → accept D T = false)

/-! ## Dispatch -/

/-- Derived from R205, R206, R207, R208, R256: SUBMIT's own errors, in their priority, and all that each changes. -/
def Obligations.SubmitErrors : Prop :=
  ∀ s : State, s.err = .none → s.state = .headerLoaded →
    (s.batchSize.toNat = 0 ∨ s.maxBatch < s.batchSize.toNat →
      exec .submit s = .next { s with err := .badBatchSize, errInfo := 0x00000007#32 }) ∧
    (1 ≤ s.batchSize.toNat → s.batchSize.toNat ≤ s.maxBatch →
      2 ^ 32 < s.offsetHi.toNat * 2 ^ 32 + s.nonceOffset.toNat + s.batchSize.toNat →
      exec .submit s =
        .next { s with err := .searchSpaceExhausted, errInfo := 0x00000007#32, state := .idle, hdrValid := false }) ∧
    (1 ≤ s.batchSize.toNat → s.batchSize.toNat ≤ s.maxBatch →
      s.offsetHi.toNat * 2 ^ 32 + s.nonceOffset.toNat + s.batchSize.toNat ≤ 2 ^ 32 → s.lanesReady = false →
      exec .submit s = .next { s with err := .deviceUnavailable, errInfo := 0x00000007#32 })

/-- Derived from R205: an accepted SUBMIT, command word 0x00000007, makes every lane 0 .. BATCH_SIZE-1 pending, clears
FOUND and NSR, enters Dispatched and changes nothing else; the batch then ends within the nonce space. That PENDING is
held as the strictly rising list of its members is no part of R205 but the model's choice (log entry 12). -/
def Obligations.SubmitDispatchesTheBatch : Prop :=
  decode 0x00000007#32 = .ok .submit ∧
  ∀ s : State, s.err = .none → s.state = .headerLoaded → 1 ≤ s.batchSize.toNat → s.batchSize.toNat ≤ s.maxBatch →
    s.offsetHi.toNat * 2 ^ 32 + s.nonceOffset.toNat + s.batchSize.toNat ≤ 2 ^ 32 → s.lanesReady = true →
    (∃ t : State, exec .submit s = .next t ∧
      t = { s with found := false, nsr := false, pending := t.pending, state := .dispatched } ∧
      (∀ i, i ∈ t.pending ↔ i < s.batchSize.toNat) ∧ t.pending.Pairwise (· < ·)) ∧
    s.offsetHi = false ∧ s.nonceOffset.toNat + s.batchSize.toNat - 1 ≤ 2 ^ 32 - 1

/-- Derived from R210, R212: the lane step of a pending lane writes the candidate of its nonce to its own RESULT slot
and the verdict to its own HIT bit and takes the lane out of PENDING; every other slot's bytes, every other HIT bit and
all other state are unchanged. -/
def Obligations.LaneStepWritesOnlyItsOwn : Prop :=
  ∀ (s : State) (i : Nat), s.state = .dispatched → i ∈ s.pending →
    ∃ t : State, perform (.lane i) s = .next t ∧
      t = { s with result := t.result, hit := t.hit, pending := t.pending } ∧
      t.slotHolds i (candidate s.hdr (s.nonceOffset + BitVec.ofNat 32 i)) ∧
      (∀ a, a < 0x10000 + 32 * i ∨ 0x10000 + 32 * i + 32 ≤ a → t.result.read? a = s.result.read? a) ∧
      (i ∈ t.hit ↔ accept (candidate s.hdr (s.nonceOffset + BitVec.ofNat 32 i)) s.target = true) ∧
      (∀ j, j ≠ i → (j ∈ t.hit ↔ j ∈ s.hit)) ∧ (∀ j, j ∈ t.pending ↔ j ∈ s.pending ∧ j ≠ i)

/-- Derived from R211: the outcome of a batch is the same for every order of its lane steps. Any two orders of the same
lane steps, followed by the completion step, take a state whose RESULT and HIT are in canonical form to one and the same
state. The agenda that gives the order and the canonical forms are the model's (log entries 1, 9 and 12). -/
def Obligations.LaneOrderDoesNotMatter : Prop :=
  ∀ (s : State) (order order' : List Nat), s.result.wf → s.hit.wf → s.state = .dispatched → order.Perm order' →
    ∃ t : State, s.runAll (batchEvents order) = .next t ∧ s.runAll (batchEvents order') = .next t

/-- R213, R214, R215: the completion step. With an accepted lane, the smallest such lane gives SOL_NONCE and SOL_DIGEST
and FOUND is 1; with none, NSR is 1 and the SOL registers are unchanged; STATE becomes ResultsReady; nothing else
changes, ERR included. -/
def Obligations.CompletionReportsTheLowestLane : Prop :=
  ∀ s : State, s.state = .dispatched → s.pending = [] →
    (∀ (m : Nat) (D : Bytes 32), m < s.batchSize.toNat → m ∈ s.hit → (∀ i < m, i ∉ s.hit) → s.slotHolds m D →
      perform .complete s =
        .next { s with
          found := true, nsr := false, solNonce := s.nonceOffset + BitVec.ofNat 32 m, solDigest := D,
          state := .resultsReady }) ∧
    ((∀ i < s.batchSize.toNat, i ∉ s.hit) →
      perform .complete s = .next { s with found := false, nsr := true, state := .resultsReady })

/-- Derived from R210, R211, R213, R214, R215, R216: a whole batch. From a dispatched state with all lanes of the batch
pending, the lane steps in any order and then the completion step end in ResultsReady with the digest of nonce
NONCE_OFFSET + i in RESULT slot i for every lane i, and with the smallest accepted nonce of the batch reported, or NSR
where there is none. The agenda is the model's (log entry 1). -/
def Obligations.BatchComputesEveryCandidate : Prop :=
  ∀ (s : State) (order : List Nat), s.state = .dispatched → s.pending = List.range s.batchSize.toNat →
    order.Perm (List.range s.batchSize.toNat) →
    ∃ t : State, s.runAll (batchEvents order) = .next t ∧ t.state = .resultsReady ∧ t.pending = [] ∧
      t.hdr = s.hdr ∧ t.target = s.target ∧ t.nonceOffset = s.nonceOffset ∧ t.batchSize = s.batchSize ∧ t.err = s.err ∧
      (∀ i < s.batchSize.toNat, t.slotHolds i (candidate s.hdr (s.nonceOffset + BitVec.ofNat 32 i))) ∧
      (∀ m < s.batchSize.toNat,
        accept (candidate s.hdr (s.nonceOffset + BitVec.ofNat 32 m)) s.target = true →
        (∀ i < m, accept (candidate s.hdr (s.nonceOffset + BitVec.ofNat 32 i)) s.target = false) →
        t.found = true ∧ t.nsr = false ∧ t.solNonce = s.nonceOffset + BitVec.ofNat 32 m ∧
          t.solDigest = candidate s.hdr (s.nonceOffset + BitVec.ofNat 32 m)) ∧
      ((∀ i < s.batchSize.toNat, accept (candidate s.hdr (s.nonceOffset + BitVec.ofNat 32 i)) s.target = false) →
        t.found = false ∧ t.nsr = true ∧ t.solNonce = s.solNonce ∧ t.solDigest = s.solDigest)

/-- Derived from R218: RETIRE, command word 0x00000008, legal in ResultsReady. With FOUND it enters Solved; without, the
33-bit offset advances exactly by BATCH_SIZE and it enters Idle. The advance is at most 2^32 in every state a run
reaches (`State.Inv.batchRange`, which is the hypothesis of the second clause). -/
def Obligations.RetireAdvancesTheOffset : Prop :=
  decode 0x00000008#32 = .ok .retire ∧
  ∀ s : State, s.err = .none → s.state = .resultsReady →
    (s.found = true → exec .retire s = .next { s with state := .solved }) ∧
    (s.found = false → s.offsetHi.toNat * 2 ^ 32 + s.nonceOffset.toNat + s.batchSize.toNat ≤ 2 ^ 32 →
      ∃ (lo : Word) (hi : Bool),
        exec .retire s = .next { s with nonceOffset := lo, offsetHi := hi, state := .idle } ∧
        hi.toNat * 2 ^ 32 + lo.toNat = s.offsetHi.toNat * 2 ^ 32 + s.nonceOffset.toNat + s.batchSize.toNat)

/-- R219: REARM, command word 0x00000009, legal only in Idle with HDR_VALID = 1, enters HeaderLoaded and changes nothing
else; with no error pending it is ILLEGAL_COMMAND with HDR_VALID = 0 or outside Idle. -/
def Obligations.RearmReentersHeaderLoaded : Prop :=
  decode 0x00000009#32 = .ok .rearm ∧
  ∀ s : State, s.err = .none →
    (s.state = .idle → s.hdrValid = true → exec .rearm s = .next { s with state := .headerLoaded }) ∧
    (s.hdrValid = false ∨ s.state ≠ .idle →
      exec .rearm s = .next { s with err := .illegalCommand, errInfo := 0x00000009#32 })

/-! ## Frames and whole-machine rules -/

/-- Derived from R93: no command but SOFT_RESET changes a byte of RESULT, a HIT bit, the SOL registers or IRQ_EN, and no
command changes a field register, PREV_HASH, MERKLE_ROOT or BATCH_SIZE but SOFT_RESET. -/
def Obligations.CommandsLeaveTheBuffers : Prop :=
  ∀ (i : Instr) (s t : State), i ≠ .softReset → exec i s = .next t →
    (∀ a, t.result.read? a = s.result.read? a) ∧ t.hit = s.hit ∧ t.solNonce = s.solNonce ∧
    t.solDigest = s.solDigest ∧ t.irqEn = s.irqEn ∧ t.version = s.version ∧ t.time = s.time ∧ t.bits = s.bits ∧
    t.nonce = s.nonce ∧ t.prevHash = s.prevHash ∧ t.merkleRoot = s.merkleRoot ∧ t.batchSize = s.batchSize ∧
    (i ≠ .submit → t.pending = s.pending) ∧ (i ≠ .retire → t.nonceOffset = s.nonceOffset ∧ t.offsetHi = s.offsetHi) ∧
    (i ≠ .computeTarget → t.target = s.target) ∧ (i ≠ .encodeHeader → i ≠ .setNonce → t.hdr = s.hdr) ∧
    (i ≠ .hash1 → i ≠ .hash2 → t.dbgDigest = s.dbgDigest) ∧ (i ≠ .hash2 → t.dbgHit = s.dbgHit) ∧
    (i ≠ .encodeHeader → i ≠ .loadHeader → i ≠ .submit → t.found = s.found ∧ t.nsr = s.nsr ∧
      (i ≠ .retire → i ≠ .rearm → t.state = s.state))

/-- Derived from R24: the only transitions of STATUS.STATE. Every step that does not leave it unchanged is a row of the
table: the event it performs is the row's, or, with no event to come, it is the completion step that the block left to
itself takes (log entries 1 and 3). -/
def Obligations.OnlyTheseTransitions : Prop :=
  ∀ s t : State, step s = .next t →
    t.state = s.state ∨
    (s.agenda = [] ∧ s.state = .dispatched ∧ s.pending = [] ∧ t.state = .resultsReady) ∨
    ∃ (e : Event) (rest : List Event), s.agenda = e :: rest ∧
      (((e = .write 0x00000004#32 0x00000001#32 ∨ e = .write 0x00000004#32 0x00000002#32) ∧
          (s.state = .idle ∨ s.state = .headerLoaded ∨ s.state = .solved) ∧ t.state = .headerLoaded) ∨
        (e = .write 0x00000004#32 0x00000009#32 ∧ s.state = .idle ∧ s.hdrValid = true ∧ t.state = .headerLoaded) ∨
        (e = .write 0x00000004#32 0x00000007#32 ∧ s.state = .headerLoaded ∧ t.err = .none ∧ t.state = .dispatched) ∨
        (e = .write 0x00000004#32 0x00000007#32 ∧ s.state = .headerLoaded ∧ t.err = .searchSpaceExhausted ∧
          t.state = .idle) ∨
        (e = .complete ∧ s.state = .dispatched ∧ s.pending = [] ∧ t.state = .resultsReady) ∨
        (e = .write 0x00000004#32 0x00000008#32 ∧ s.state = .resultsReady ∧ s.found = true ∧ t.state = .solved) ∨
        (e = .write 0x00000004#32 0x00000008#32 ∧ s.state = .resultsReady ∧ s.found = false ∧ t.state = .idle) ∨
        (e = .write 0x00000004#32 0x0000000B#32 ∧ s.state ≠ .dispatched ∧ t.state = .idle) ∨
        (e = .rstN ∧ t.state = .idle))

/-- Derived from R68, R81, R95, R216: while a batch runs, nothing but rst_n changes an input of the lanes, and nothing
but rst_n and the completion step leaves Dispatched. -/
def Obligations.BatchInputsAreFrozen : Prop :=
  ∀ s t : State, s.state = .dispatched → (∀ rest, s.agenda ≠ .rstN :: rest) → step s = .next t →
    t.hdr = s.hdr ∧ t.target = s.target ∧ t.nonceOffset = s.nonceOffset ∧ t.offsetHi = s.offsetHi ∧
    t.batchSize = s.batchSize ∧ (t.state = .dispatched ∨ (t.state = .resultsReady ∧ s.pending = []))

/-- Derived from R252, R258, R268, log entries 1 and 3: no step stops; whatever the state and the event, there is a next
state. -/
def Obligations.EveryStepAnswers : Prop := ∀ s : State, ∃ t : State, step s = .next t

/-- Derived from R113, R292: a batch completes. Left to itself it does so within one step for each pending lane and one
for the completion, which is the model's schedule (log entry 3). In a run under any fair schedule a batch that rst_n
does not abort reaches ResultsReady, whatever the host performs; a run whose host has no line left ends; and where the
host goes on, its wait_done terminates, and STATE is not Dispatched then, rst_n or not. The form of a run is the model's
(log entry 17). -/
def Obligations.BatchesComplete : Prop :=
  (∀ s : State, s.state = .dispatched → s.agenda = [] →
    ∃ t : State, Host.Core.run Sys2Proof.core (s.pending.length + 1) s = .next t ∧ t.state = .resultsReady) ∧
  ∀ (ρ : Nat → HostRun) (turns : Nat → Turn), FairRun ρ turns →
    (∀ n, (ρ n).block.state = .dispatched → (∀ m ≥ n, turns m ≠ .rstN) →
      ∃ m ≥ n, (ρ m).block.state = .resultsReady) ∧
    (∀ n, (ρ n).lines = [] → ∃ m ≥ n, (ρ m).ended = true) ∧
    (HostActs turns → ∀ (n : Nat) (rest : List HostLine), (ρ n).lines = SourceLine.expand .waitDone ++ rest →
      ∃ m ≥ n, (ρ m).lines = rest ∧ (ρ m).block.state ≠ .dispatched)

/-! ## The host port -/

/-- Derived from R16, R61, R65, R252, R257: an access to a misaligned address, or to an unmapped one, and an access of
another width than 4 to any address, raises ILLEGAL_ACCESS with the byte address as presented (the first error recorded
stays); a read returns 0 and a write is dropped. R16 and R61 give the port no other width; that an access of another
width is refused is decision D3, and how is the model's reading (log entry 21). -/
def Obligations.BadAccessesAreRefused : Prop :=
  (∀ (s : State) (a v : Word),
    (a.toNat % 4 ≠ 0 ∨ (0x038 ≤ a.toNat ∧ a.toNat < 0x040) ∨ (0x0E0 ≤ a.toNat ∧ a.toNat < 0x100) ∨
      (0x150 ≤ a.toNat ∧ a.toNat < 0x10000) ∨ 0x10000 + 32 * s.maxBatch ≤ a.toNat) →
    perform (.read a) s =
      .next { s with
        err := if s.err = .none then .illegalAccess else s.err
        errInfo := if s.err = .none then a else s.errInfo
        readData := some 0#32 } ∧
    perform (.write a v) s =
      .next { s with
        err := if s.err = .none then .illegalAccess else s.err
        errInfo := if s.err = .none then a else s.errInfo }) ∧
  ∀ (s : State) (a : Word) (n : OtherWidth),
    perform (.readWidth a n) s =
      .next { s with
        err := if s.err = .none then .illegalAccess else s.err
        errInfo := if s.err = .none then a else s.errInfo
        readData := some 0#32 } ∧
    perform (.writeWidth a n) s =
      .next { s with
        err := if s.err = .none then .illegalAccess else s.err
        errInfo := if s.err = .none then a else s.errInfo }

/-- Derived from R67, R68: a write to a read-only location, in Dispatched to a locked one, and in ResultsReady to
NONCE_OFFSET or BATCH_SIZE, is refused with ILLEGAL_ACCESS and changes nothing else. -/
def Obligations.RefusedWrites : Prop :=
  ∀ (s : State) (a v : Word), a.toNat % 4 = 0 →
    ((a.toNat = 0x000 ∨ a.toNat = 0x008 ∨ a.toNat = 0x00C ∨ a.toNat = 0x010 ∨ a.toNat = 0x030 ∨ a.toNat = 0x034 ∨
        (0x0A0 ≤ a.toNat ∧ a.toNat < 0x0E0) ∨ (0x10000 ≤ a.toNat ∧ a.toNat < 0x10000 + 32 * s.maxBatch)) ∨
      (s.state = .dispatched ∧
        ((0x018 ≤ a.toNat ∧ a.toNat < 0x030) ∨ (0x040 ≤ a.toNat ∧ a.toNat < 0x0A0) ∨
          (0x100 ≤ a.toNat ∧ a.toNat < 0x150))) ∨
      (s.state = .resultsReady ∧ (a.toNat = 0x028 ∨ a.toNat = 0x02C))) →
    perform (.write a v) s =
      .next { s with
        err := if s.err = .none then .illegalAccess else s.err
        errInfo := if s.err = .none then a else s.errInfo }

/-- Derived from R36, R67, R68, R71, R72: a write to a scalar register that is not refused. IRQ_EN is never locked and
keeps bits 1:0; a write to NONCE_OFFSET clears OFFSET_HI too. -/
def Obligations.ScalarWritesLand : Prop :=
  ∀ (s : State) (v : Word),
    perform (.write 0x00000014#32 v) s = .next { s with irqEn := v.extractLsb' 0 2 } ∧
    (s.state ≠ .dispatched →
      perform (.write 0x00000018#32 v) s = .next { s with version := v } ∧
      perform (.write 0x0000001C#32 v) s = .next { s with time := v } ∧
      perform (.write 0x00000020#32 v) s = .next { s with bits := v } ∧
      perform (.write 0x00000024#32 v) s = .next { s with nonce := v } ∧
      (s.state ≠ .resultsReady →
        perform (.write 0x00000028#32 v) s = .next { s with nonceOffset := v, offsetHi := false } ∧
        perform (.write 0x0000002C#32 v) s = .next { s with batchSize := v }))

/-- Derived from R37, R38, R41, R62, R67: outside Dispatched, a write to word k of PREV_HASH, MERKLE_ROOT, TARGET or HDR
sets that array's bytes 4k .. 4k+3 to the word's bytes, least significant first, and changes nothing else. -/
def Obligations.ArrayWritesLand : Prop :=
  ∀ (s : State) (k : Nat) (v : Word), s.state ≠ .dispatched →
    (k < 8 →
      (∃ X : Bytes 32, perform (.write (BitVec.ofNat 32 (0x040 + 4 * k)) v) s = .next { s with prevHash := X } ∧
        ∀ j (_ : j < 32), X[j] = if 4 * k ≤ j ∧ j < 4 * k + 4 then v.extractLsb' (8 * (j - 4 * k)) 8 else s.prevHash[j]) ∧
      (∃ X : Bytes 32, perform (.write (BitVec.ofNat 32 (0x060 + 4 * k)) v) s = .next { s with merkleRoot := X } ∧
        ∀ j (_ : j < 32),
          X[j] = if 4 * k ≤ j ∧ j < 4 * k + 4 then v.extractLsb' (8 * (j - 4 * k)) 8 else s.merkleRoot[j]) ∧
      (∃ X : Bytes 32, perform (.write (BitVec.ofNat 32 (0x080 + 4 * k)) v) s = .next { s with target := X } ∧
        ∀ j (_ : j < 32), X[j] = if 4 * k ≤ j ∧ j < 4 * k + 4 then v.extractLsb' (8 * (j - 4 * k)) 8 else s.target[j])) ∧
    (k < 20 →
      ∃ X : Bytes 80, perform (.write (BitVec.ofNat 32 (0x100 + 4 * k)) v) s = .next { s with hdr := X } ∧
        ∀ j (_ : j < 80), X[j] = if 4 * k ≤ j ∧ j < 4 * k + 4 then v.extractLsb' (8 * (j - 4 * k)) 8 else s.hdr[j])

/-- Derived from R63, R66, R74: what a read of each scalar register but STATUS and ERR returns (those two have a
statement of their own, `Obligations.StatusAndErrReads`); nothing else changes. SOL_NONCE is refused in Dispatched. The
data returned stands in the model's own field `readData` (log entry 8). -/
def Obligations.ScalarReads : Prop :=
  ∀ s : State,
    perform (.read 0x00000000#32) s = .next { s with readData := some 0x574D4301#32 } ∧
    perform (.read 0x00000004#32) s = .next { s with readData := some 0#32 } ∧
    perform (.read 0x00000010#32) s = .next { s with readData := some s.errInfo } ∧
    perform (.read 0x00000014#32) s = .next { s with readData := some (s.irqEn.zeroExtend 32) } ∧
    perform (.read 0x00000018#32) s = .next { s with readData := some s.version } ∧
    perform (.read 0x0000001C#32) s = .next { s with readData := some s.time } ∧
    perform (.read 0x00000020#32) s = .next { s with readData := some s.bits } ∧
    perform (.read 0x00000024#32) s = .next { s with readData := some s.nonce } ∧
    perform (.read 0x00000028#32) s = .next { s with readData := some s.nonceOffset } ∧
    perform (.read 0x0000002C#32) s = .next { s with readData := some s.batchSize } ∧
    (s.state ≠ .dispatched → perform (.read 0x00000030#32) s = .next { s with readData := some s.solNonce }) ∧
    perform (.read 0x00000034#32) s = .next { s with readData := some (BitVec.ofNat 32 s.maxBatch) }

/-- Derived from R62, R63, R66: a read of word k of a byte array returns the word whose bits 8b+7:8b are byte 4k+b, and
changes nothing else. SOL_DIGEST is refused in Dispatched. The data returned stands in `readData` (log entry 8). -/
def Obligations.ArrayReads : Prop :=
  ∀ (s : State) (k b : Nat) (hb : b < 4),
    (∀ hk : k < 8,
      (∃ v : Word, perform (.read (BitVec.ofNat 32 (0x040 + 4 * k))) s = .next { s with readData := some v } ∧
        v.extractLsb' (8 * b) 8 = s.prevHash[4 * k + b]) ∧
      (∃ v : Word, perform (.read (BitVec.ofNat 32 (0x060 + 4 * k))) s = .next { s with readData := some v } ∧
        v.extractLsb' (8 * b) 8 = s.merkleRoot[4 * k + b]) ∧
      (∃ v : Word, perform (.read (BitVec.ofNat 32 (0x080 + 4 * k))) s = .next { s with readData := some v } ∧
        v.extractLsb' (8 * b) 8 = s.target[4 * k + b]) ∧
      (s.state ≠ .dispatched →
        ∃ v : Word, perform (.read (BitVec.ofNat 32 (0x0A0 + 4 * k))) s = .next { s with readData := some v } ∧
          v.extractLsb' (8 * b) 8 = s.solDigest[4 * k + b]) ∧
      (∃ v : Word, perform (.read (BitVec.ofNat 32 (0x0C0 + 4 * k))) s = .next { s with readData := some v } ∧
        v.extractLsb' (8 * b) 8 = s.dbgDigest[4 * k + b])) ∧
    (∀ hk : k < 20,
      ∃ v : Word, perform (.read (BitVec.ofNat 32 (0x100 + 4 * k))) s = .next { s with readData := some v } ∧
        v.extractLsb' (8 * b) 8 = s.hdr[4 * k + b])

/-- Derived from R64, R66, R75: a read of the RESULT window outside Dispatched. A slot that holds a digest gives the
word of its bytes 4k .. 4k+3 and changes nothing else; a slot of which no byte is written gives some word, a free value,
with no error and no change of the block's state. The free value and its counter `draws` are the model's (log entries 7
and 8). -/
def Obligations.ResultReads : Prop :=
  ∀ (s : State) (i k : Nat), s.state ≠ .dispatched → i < s.maxBatch → k < 8 →
    (∀ D : Bytes 32, s.slotHolds i D →
      ∃ v : Word, perform (.read (BitVec.ofNat 32 (0x10000 + 32 * i + 4 * k))) s =
          .next { s with readData := some v } ∧
        ∀ b (_ : b < 4), v.extractLsb' (8 * b) 8 = byteAt D.toList (4 * k + b)) ∧
    ((∀ j < 32, s.result.read? (0x10000 + 32 * i + j) = none) →
      ∃ v : Word, perform (.read (BitVec.ofNat 32 (0x10000 + 32 * i + 4 * k))) s =
        .next { s with readData := some v, draws := s.draws + 1 })

/-- R69: the completion barrier on reads. In Dispatched, a read of SOL_NONCE, SOL_DIGEST or a RESULT word returns 0 and
raises ILLEGAL_ACCESS with its address; nothing else changes. The data returned stands in `readData` (log entry 8). -/
def Obligations.ResultsAreBarredDuringABatch : Prop :=
  ∀ (s : State) (a : Word), s.state = .dispatched → a.toNat % 4 = 0 →
    (a.toNat = 0x030 ∨ (0x0A0 ≤ a.toNat ∧ a.toNat < 0x0C0) ∨
      (0x10000 ≤ a.toNat ∧ a.toNat < 0x10000 + 32 * s.maxBatch)) →
    perform (.read a) s =
      .next { s with
        err := if s.err = .none then .illegalAccess else s.err
        errInfo := if s.err = .none then a else s.errInfo
        readData := some 0#32 }

/-- Derived from R29, R32, R33, R72: the fields of the STATUS and ERR words as a read returns them, in every state; the
reserved bits read 0 and nothing else changes. The data returned stands in `readData` (log entry 8). -/
def Obligations.StatusAndErrReads : Prop :=
  ∀ s : State,
    (∃ v : Word, perform (.read 0x00000008#32) s = .next { s with readData := some v } ∧
      (v.extractLsb' 0 3).toNat =
        (match s.state with
          | .idle => 0 | .headerLoaded => 1 | .dispatched => 2 | .resultsReady => 3 | .solved => 4) ∧
      v.getLsbD 3 = s.hdrValid ∧ v.getLsbD 4 = s.found ∧ v.getLsbD 5 = s.nsr ∧ v.getLsbD 6 = s.offsetHi ∧
      v.getLsbD 7 = decide (s.err ≠ .none) ∧ v.getLsbD 8 = s.irq ∧ v.getLsbD 9 = s.dbgHit ∧
      v.getLsbD 10 = s.lanesReady ∧ ∀ n, 11 ≤ n → v.getLsbD n = false) ∧
    (∃ v : Word, perform (.read 0x0000000C#32) s = .next { s with readData := some v } ∧
      v.toNat =
        (match s.err with
          | .none => 0 | .malformedInput => 1 | .invalidDifficulty => 2 | .searchSpaceExhausted => 3
          | .deviceUnavailable => 4 | .illegalCommand => 5 | .reservedOpcode => 6 | .badBatchSize => 7
          | .illegalAccess => 8))

/-- Derived from R260: after a host write of IRQ_EN, in any state, the interrupt output is high exactly when the
completion event or a pending error is enabled by the bits written. -/
def Obligations.InterruptLevel : Prop :=
  ∀ (s : State) (v : Word),
    ∃ t : State, perform (.write 0x00000014#32 v) s = .next t ∧
      (t.irq = true ↔ (v.getLsbD 0 = true ∧ s.state = .resultsReady) ∨ (v.getLsbD 1 = true ∧ s.err ≠ .none))

/-- Derived from R70: a read changes nothing but the data returned, a draw of a free value, and, where it is refused,
the error record. `readData` and `draws` are the model's own fields (log entries 7 and 8). -/
def Obligations.ReadsHaveNoOtherEffect : Prop :=
  ∀ (s : State) (a : Word),
    ∃ (v : Word) (d : Nat),
      perform (.read a) s = .next { s with readData := some v, draws := d } ∨
      (v = 0#32 ∧
        perform (.read a) s =
          .next { s with
            readData := some v
            err := if s.err = .none then .illegalAccess else s.err
            errInfo := if s.err = .none then a else s.errInfo })

/-- Derived from R63, R64: the address map. Every mapped word is found at its own address, and no two at the same. -/
def Obligations.AddressMapIsExact : Prop :=
  ∀ (slots a : Nat) (l : Loc), a % 4 = 0 →
    (locate slots a = some l ↔
      l.addr = a ∧
      (match l with
        | .reg _ => True
        | .word x k => k < x.words
        | .result i k => i < slots ∧ k < 8))

/-! ## Invariants -/

/-- Derived from R281: the state after reset meets the invariant, with any parameter, input and events to come. -/
def Obligations.ResetMeetsTheInvariant : Prop :=
  ∀ (m : Fin 134215680) (level : Bool) (events : List Event),
    ({ State.reset with maxBatchLessOne := m, lanesReady := level, agenda := events } : State).Inv

/-- Derived from R20, R24, R34, R42, R45, R46, R64, R254: every step from a state that meets the invariant gives one
that meets it, whatever event comes. The canonical forms are the model's (log entries 9 and 12). -/
def Obligations.StepKeepsTheInvariant : Prop :=
  ∀ s t : State, s.Inv → step s = .next t → t.Inv

/-- Derived from R81, R210, R213: the slots and HIT bits of the lanes that have stepped hold what R210 says, and every
step keeps that so while the batch runs. -/
def Obligations.StepKeepsTheBatchFacts : Prop :=
  ∀ s t : State, s.Inv → s.BatchDone → step s = .next t → t.BatchDone

/-- Derived from R24, R34, R38, R200, R210, R213, R281: in every state a run from reset reaches, with any parameter,
input and events, the invariant and the batch facts hold, and where the completion step is taken from such a state and
reports a solution, SOL_DIGEST right after that step is the candidate of SOL_NONCE and TARGET accepts it. Of later
states, in which the host may rewrite TARGET or HDR, nothing is said. The canonical forms in the invariant are the
model's (log entries 9 and 12). -/
def Obligations.ReachableStatesAreSound : Prop :=
  ∀ s : State, s.Reachable →
    s.Inv ∧ s.BatchDone ∧
    ∀ t : State, s.state = .dispatched → s.pending = [] → perform .complete s = .next t → t.found = true →
      accept t.solDigest t.target = true ∧ t.solDigest = candidate t.hdr t.solNonce

/-! ## The search -/

/-- Derived from R213, R214, R218, R219, R223: if the host only submits, retires and re-arms from offset `s.off` on,
with HDR and TARGET unchanged, and the first accepted nonce from there lies in batch k, then that batch reports it:
rounds 0 .. k-1 end without a solution, and batch k ends in ResultsReady with SOL_NONCE the smallest accepted nonce at
or above the start. RETIRE then enters Solved. The lanes of each batch may step in any order. The agenda is the model's
(log entry 1). -/
def Obligations.FirstSolutionInNonceOrder : Prop :=
  ∀ (s : State) (k n : Nat) (order : Nat → List Nat), s.Inv → s.state = .headerLoaded → s.err = .none →
    s.lanesReady = true → 1 ≤ s.batchSize.toNat → s.batchSize.toNat ≤ s.maxBatch →
    s.off + (k + 1) * s.batchSize.toNat ≤ 2 ^ 32 → (∀ r, (order r).Perm (List.range s.batchSize.toNat)) →
    s.off + k * s.batchSize.toNat ≤ n → n < s.off + (k + 1) * s.batchSize.toNat →
    s.accepts n → (∀ n', s.off ≤ n' → n' < n → ¬s.accepts n') →
    ∃ t : State,
      s.runAll (searchRounds order k ++ [commandEvent .submit] ++ batchEvents (order k) ++ [commandEvent .retire]) =
        .next t ∧
      t.state = .solved ∧ t.found = true ∧ t.solNonce = BitVec.ofNat 32 n ∧
      t.solDigest = candidate s.hdr (BitVec.ofNat 32 n) ∧ t.err = .none

/-- Derived from R201, R207, R224: with TARGET = 0 the host loop SUBMIT, batch, RETIRE, REARM never finds a solution and
never wraps the offset: after the k rounds that fit below 2^32, the next SUBMIT raises SEARCH_SPACE_EXHAUSTED, in Idle
with no valid header. The agenda is the model's (log entry 1). -/
def Obligations.ExhaustionTerminates : Prop :=
  ∀ (s : State) (k : Nat) (order : Nat → List Nat), s.Inv → s.state = .headerLoaded → s.err = .none →
    s.lanesReady = true → 1 ≤ s.batchSize.toNat → s.batchSize.toNat ≤ s.maxBatch →
    beVal s.target.toList = 0 → (∀ r, (order r).Perm (List.range s.batchSize.toNat)) →
    s.off + k * s.batchSize.toNat ≤ 2 ^ 32 → 2 ^ 32 < s.off + (k + 1) * s.batchSize.toNat →
    ∃ t : State,
      s.runAll (searchRounds order k ++ [commandEvent .submit]) = .next t ∧
      t.err = .searchSpaceExhausted ∧ t.errInfo = 0x00000007#32 ∧ t.state = .idle ∧ t.hdrValid = false ∧
      t.off = s.off + k * s.batchSize.toNat

/-! ## The host's side -/

/-- Derived from R146, R150: the display string of a digest has 64 characters and reads back as the reversed digest. -/
def Obligations.DisplayReadsBack : Prop :=
  ∀ D : Bytes 32, (display D).length = 64 ∧ hexBytes (display D) 32 = .ok (rev D).toList

/-- Derived from R146, R147, R148, R149, R151: what the host does with a template. Where its five members are integers
in 0 .. 2^32 - 1 and hexadecimal strings of 64, 64 and 8 characters, its writes, outside Dispatched, leave exactly the
integers in VERSION and TIME, the bytes the texts denote in PREV_HASH and MERKLE_ROOT, in text order, and in BITS the
number whose bytes the text denotes, most significant first, and change nothing else. Where a member is missing, is an
integer out of range or a string of the wrong length or with a non-hexadecimal character, or is of another kind, nothing
is written. A nonce, when given, follows the rule of the integers and goes to NONCE. Whatever a template is, its writes
are those of the fields read from it, or none. A template is a list of members (log entry 16). -/
def Obligations.TemplateLoadsTheFields : Prop :=
  (∀ (T : Template) (version time : Nat) (prevHash merkleRoot bits : List Char),
    T.Has .version (.int version) → version ≤ 2 ^ 32 - 1 → T.Has .time (.int time) → time ≤ 2 ^ 32 - 1 →
    T.Has .previousblockhash (.str prevHash) → HexString prevHash 64 →
    T.Has .merkleroot (.str merkleRoot) → HexString merkleRoot 64 → T.Has .bits (.str bits) → HexString bits 8 →
    ∃ (P M : Bytes 32) (B : Word),
      HexDenotes prevHash P.toList ∧ HexDenotes merkleRoot M.toList ∧
      HexDenotes bits [B.extractLsb' 24 8, B.extractLsb' 16 8, B.extractLsb' 8 8, B.extractLsb' 0 8] ∧
      ∀ s : State, s.state ≠ .dispatched →
        s.runAll (templateWrites T) =
          .next { s with
            version := BitVec.ofNat 32 version, prevHash := P, merkleRoot := M, time := BitVec.ofNat 32 time, bits := B,
            agenda := [] }) ∧
  (∀ (T : Template) (n : MemberName), n ≠ .other → (∀ m ∈ T, m.1 = n → ¬m.2.Fits n) → templateWrites T = []) ∧
  (∀ v : Nat, v ≤ 2 ^ 32 - 1 → ∀ s : State, s.state ≠ .dispatched →
    s.runAll (nonceWrites (.int v)) = .next { s with nonce := BitVec.ofNat 32 v, agenda := [] }) ∧
  (∀ x : JsonValue, (∀ v : Nat, v ≤ 2 ^ 32 - 1 → x ≠ .int v) → nonceWrites x = []) ∧
  ∀ T : Template,
    (∀ e, parseTemplate T = .error e → templateWrites T = []) ∧
    (∀ f, parseTemplate T = .ok f → ∀ s : State, s.state ≠ .dispatched →
      s.runAll (templateWrites T) =
        .next { s with
          version := f.version, prevHash := f.prevHash, merkleRoot := f.merkleRoot, time := f.time, bits := f.bits,
          agenda := [] })

/-- Derived from R73, R110, R111: `cmd NAME` performed by a host on a block with no other event to come executes the
command, and the host goes on to its next line. The host's turn is the model's (log entry 17). -/
def Obligations.HostCommandRunsExec : Prop :=
  ∀ (i : Instr) (s t : State) (rest : List HostLine), s.agenda = [] → exec i s = .next t →
    HostRun.hostTurn { lines := SourceLine.expand (.cmd i) ++ rest, block := s } =
      .next { lines := rest, block := t }
end

