-- ==== Sys2Proof/Laws/Memory.lean ====
section
/-! SUPPORT. The laws of the RESULT buffer and of the sets of lanes: reading after a write, what a write leaves alone, and
that every operation keeps the canonical form, in which equal contents are equal lists. -/

namespace Sys2Proof.Machine

/-! ## The RESULT buffer -/

@[simp] theorem Memory.read?_nil (a : Nat) : Memory.read? [] a = none := rfl

theorem Memory.read?_cons (c : Host.Cell) (m : Memory) (a : Nat) :
    Memory.read? (c :: m) a = if c.1 = a then some c.2 else Memory.read? m a := by
  unfold Memory.read?
  by_cases h : c.1 = a <;> simp [h]

/-- A read after a byte is written: the byte at its address, what was there everywhere else. -/
theorem Memory.read?_writeByte (m : Memory) (a : Nat) (b : Byte) (x : Nat) :
    (m.writeByte a b).read? x = if x = a then some b else m.read? x := by
  induction m with
  | nil =>
    simp only [Memory.writeByte, Memory.read?_cons, Memory.read?_nil]
    by_cases h : a = x <;> simp [h, eq_comm]
  | cons c m ih =>
    simp only [Memory.writeByte]
    split
    · simp only [Memory.read?_cons]
      by_cases h : x = a
      · simp [h]
      · simp [h, Ne.symm h]
    · split
      · rename_i h1 h2
        simp only [Memory.read?_cons]
        by_cases h : x = a
        · simp [h]
        · simp [h, ← h2, Ne.symm h]
      · rename_i h1 h2
        simp only [Memory.read?_cons, ih]
        by_cases h : x = a
        · subst h; simp [Ne.symm h2]
        · simp [h]

/-- A read after bytes are written at `a, a+1, ..`. -/
theorem Memory.read?_writeBytes (X : List Byte) (m : Memory) (a x : Nat) :
    (m.writeBytes a X).read? x = if a ≤ x then (X[x - a]?).or (m.read? x) else m.read? x := by
  induction X generalizing m a with
  | nil => simp [Memory.writeBytes]
  | cons b X ih =>
    simp only [Memory.writeBytes, ih, Memory.read?_writeByte]
    rcases Nat.lt_trichotomy x a with h | h | h
    · simp [show ¬ a + 1 ≤ x by omega, show ¬ a ≤ x by omega, show x ≠ a by omega]
    · subst h; simp
    · obtain ⟨d, rfl⟩ : ∃ d, x = a + 1 + d := ⟨x - (a + 1), by omega⟩
      simp [show a + 1 + d - a = d + 1 by omega, show a ≤ a + 1 + d by omega, show a + 1 + d ≠ a by omega]

/-- Every address of the buffer after a byte is written is the byte's or was there before. -/
theorem Memory.mem_writeByte {m : Memory} {a : Nat} {b : Byte} {c : Host.Cell} (h : c ∈ m.writeByte a b) :
    c = (a, b) ∨ c ∈ m := by
  induction m with
  | nil => simpa [Memory.writeByte] using h
  | cons d m ih =>
    simp only [Memory.writeByte] at h
    split at h
    · simpa using h
    · split at h
      · rcases List.mem_cons.1 h with h | h
        · exact .inl h
        · exact .inr (List.mem_cons_of_mem _ h)
      · rcases List.mem_cons.1 h with h | h
        · exact .inr (h ▸ List.mem_cons_self)
        · exact (ih h).imp id (List.mem_cons_of_mem _)

/-- Writing a byte keeps the canonical form. -/
theorem Memory.wf_writeByte {m : Memory} (a : Nat) (b : Byte) (h : m.wf) : (m.writeByte a b).wf := by
  induction m with
  | nil => simp [Memory.writeByte, Memory.wf]
  | cons c m ih =>
    obtain ⟨hc, hm⟩ := List.pairwise_cons.1 h
    simp only [Memory.writeByte]
    split
    · rename_i hlt
      refine List.pairwise_cons.2 ⟨fun d hd => ?_, h⟩
      rcases List.mem_cons.1 hd with rfl | hd
      · exact hlt
      · exact Nat.lt_trans hlt (hc d hd)
    · split
      · rename_i _ he
        refine List.pairwise_cons.2 ⟨fun d hd => ?_, hm⟩
        have := hc d hd
        simp only [he]; exact this
      · rename_i h1 h2
        refine List.pairwise_cons.2 ⟨fun d hd => ?_, ih hm⟩
        rcases Memory.mem_writeByte hd with rfl | hd
        · show c.1 < a; omega
        · exact hc d hd

/-- Writing bytes keeps the canonical form. -/
theorem Memory.wf_writeBytes (X : List Byte) {m : Memory} (a : Nat) (h : m.wf) : (m.writeBytes a X).wf := by
  induction X generalizing m a with
  | nil => exact h
  | cons b X ih => exact ih (a + 1) (Memory.wf_writeByte a b h)

/-- Where the written bytes lie. -/
theorem Memory.mem_writeBytes {X : List Byte} {m : Memory} {a : Nat} {c : Host.Cell} (h : c ∈ m.writeBytes a X) :
    (a ≤ c.1 ∧ c.1 < a + X.length) ∨ c ∈ m := by
  induction X generalizing m a with
  | nil => exact .inr h
  | cons b X ih =>
    rcases ih h with h | h
    · exact .inl ⟨by omega, by simp only [List.length_cons]; omega⟩
    · rcases Memory.mem_writeByte h with rfl | h
      · exact .inl (by simp)
      · exact .inr h

/-- Where nothing at or below `a` is listed, `a` reads as unwritten. -/
theorem Memory.read?_eq_none_of_lt {m : Memory} {a : Nat} (h : ∀ c ∈ m, a < c.1) : m.read? a = none := by
  induction m with
  | nil => rfl
  | cons c m ih =>
    have h1 := h c List.mem_cons_self
    rw [Memory.read?_cons, if_neg (by omega)]
    exact ih fun d hd => h d (List.mem_cons_of_mem _ hd)

/-- In canonical form, equal contents are equal lists. -/
theorem Memory.ext {m n : Memory} (hm : m.wf) (hn : n.wf) (h : ∀ a, m.read? a = n.read? a) : m = n := by
  induction m generalizing n with
  | nil =>
    cases n with
    | nil => rfl
    | cons d n => have := h d.1; simp [Memory.read?_cons] at this
  | cons c m ih =>
    obtain ⟨hc, hm'⟩ := List.pairwise_cons.1 hm
    cases n with
    | nil => have := h c.1; simp [Memory.read?_cons] at this
    | cons d n =>
      obtain ⟨hd, hn'⟩ := List.pairwise_cons.1 hn
      have hcd : c.1 = d.1 := by
        rcases Nat.lt_trichotomy c.1 d.1 with hlt | he | hlt
        · have := h c.1
          rw [Memory.read?_cons, if_pos rfl, Memory.read?_eq_none_of_lt (m := d :: n)] at this
          · simp at this
          · intro x hx
            rcases List.mem_cons.1 hx with rfl | hx
            · exact hlt
            · exact Nat.lt_trans hlt (hd x hx)
        · exact he
        · have := h d.1
          rw [Memory.read?_cons (c := d), if_pos rfl, Memory.read?_eq_none_of_lt (m := c :: m)] at this
          · simp at this
          · intro x hx
            rcases List.mem_cons.1 hx with rfl | hx
            · exact hlt
            · exact Nat.lt_trans hlt (hc x hx)
      have hv : c.2 = d.2 := by
        have := h c.1
        simpa [Memory.read?_cons, hcd] using this
      have : c = d := Prod.ext hcd hv
      subst this
      congr 1
      refine ih hm' hn' fun a => ?_
      have := h a
      rw [Memory.read?_cons, Memory.read?_cons] at this
      by_cases ha : c.1 = a
      · subst ha
        rw [Memory.read?_eq_none_of_lt hc, Memory.read?_eq_none_of_lt hd]
      · simpa [ha] using this

/-! ## Sets of lanes -/

@[simp] theorem IndexSet.mem_add {l : IndexSet} {i j : Nat} : j ∈ l.add i ↔ j = i ∨ j ∈ l := by
  induction l with
  | nil => simp [IndexSet.add]
  | cons k l ih =>
    simp only [IndexSet.add]
    split
    · simp
    · split
      · rename_i _ h; subst h; simp
      · simp only [List.mem_cons, ih]; tauto

@[simp] theorem IndexSet.mem_remove {l : IndexSet} {i j : Nat} : j ∈ l.remove i ↔ j ∈ l ∧ j ≠ i := by
  simp [IndexSet.remove]

@[simp] theorem IndexSet.mem_put {l : IndexSet} {i j : Nat} {b : Bool} :
    j ∈ l.put i b ↔ (j = i ∧ b = true) ∨ (j ≠ i ∧ j ∈ l) := by
  cases b <;> simp [IndexSet.put]
  · tauto
  · by_cases h : j = i <;> simp [h]

theorem IndexSet.wf_add {l : IndexSet} (i : Nat) (h : l.wf) : (l.add i).wf := by
  induction l with
  | nil => simp [IndexSet.add, IndexSet.wf]
  | cons k l ih =>
    obtain ⟨hk, hl⟩ := List.pairwise_cons.1 h
    simp only [IndexSet.add]
    split
    · rename_i hlt
      refine List.pairwise_cons.2 ⟨fun d hd => ?_, h⟩
      rcases List.mem_cons.1 hd with rfl | hd
      · exact hlt
      · exact Nat.lt_trans hlt (hk d hd)
    · split
      · exact h
      · refine List.pairwise_cons.2 ⟨fun d hd => ?_, ih hl⟩
        rcases IndexSet.mem_add.1 hd with rfl | hd
        · omega
        · exact hk d hd

theorem IndexSet.wf_remove {l : IndexSet} (i : Nat) (h : l.wf) : (l.remove i).wf :=
  List.Pairwise.sublist List.filter_sublist h

theorem IndexSet.wf_put {l : IndexSet} (i : Nat) (b : Bool) (h : l.wf) : (l.put i b).wf := by
  unfold IndexSet.put
  split
  · exact IndexSet.wf_add i h
  · exact IndexSet.wf_remove i h

/-- In canonical form, sets with the same members are equal lists. -/
theorem IndexSet.ext {l k : IndexSet} (hl : l.wf) (hk : k.wf) (h : ∀ i, i ∈ l ↔ i ∈ k) : l = k := by
  have nl : l.Nodup := hl.imp fun h => Nat.ne_of_lt h
  have nk : k.Nodup := hk.imp fun h => Nat.ne_of_lt h
  exact ((List.perm_ext_iff_of_nodup nl nk).2 h).eq_of_pairwise
    (fun a b _ _ h1 h2 => absurd h1 (Nat.lt_asymm h2)) hl hk

/-- The least member below a bound (R214). -/
theorem IndexSet.leastBelow_eq_some {l : IndexSet} {n m : Nat} :
    l.leastBelow n = some m ↔ m ∈ l ∧ m < n ∧ ∀ i ∈ l, i < n → m ≤ i := by
  unfold IndexSet.leastBelow
  rw [List.min?_eq_some_iff]
  simp only [List.mem_filter, decide_eq_true_eq]
  constructor
  · rintro ⟨⟨h1, h2⟩, h3⟩; exact ⟨h1, h2, fun i hi hn => h3 i ⟨hi, hn⟩⟩
  · rintro ⟨h1, h2, h3⟩; exact ⟨⟨h1, h2⟩, fun i hi => h3 i hi.1 hi.2⟩

/-- There is none exactly when no member lies below the bound. -/
theorem IndexSet.leastBelow_eq_none {l : IndexSet} {n : Nat} : l.leastBelow n = none ↔ ∀ i ∈ l, n ≤ i := by
  unfold IndexSet.leastBelow
  rw [List.min?_eq_none_iff, List.filter_eq_nil_iff]
  simp

end Sys2Proof.Machine
end

