-- ==== Sys2Proof/Laws/Operands.lean ====
section
/-! SUPPORT. The laws of the operand forms: bytes of words, byte arrays and their port words, the integer values of byte
arrays, and the address map. -/

namespace Sys2Proof.Machine

/-! ## Bytes of arrays -/

@[simp] theorem byteAt_toList {n : Nat} (X : Bytes n) (i : Nat) (h : i < n) : byteAt X.toList i = X[i] := by
  simp [byteAt, List.getD_eq_getElem?_getD, h]

theorem byteAt_append (X Y : List Byte) (i : Nat) :
    byteAt (X ++ Y) i = if i < X.length then byteAt X i else byteAt Y (i - X.length) := by
  unfold byteAt
  split
  · rename_i h; rw [List.getD_append _ _ _ _ h]
  · rename_i h; rw [List.getD_append_right _ _ _ _ (by omega)]

@[simp] theorem Bytes.getElem_ofList (n : Nat) (X : List Byte) (i : Nat) (h : i < n) :
    (Bytes.ofList n X)[i] = byteAt X i := by
  simp [Bytes.ofList]

/-- Two arrays of one length are equal when their bytes are. -/
theorem Bytes.ext {n : Nat} {X Y : Bytes n} (h : ∀ i (_ : i < n), X[i] = Y[i]) : X = Y := Vector.ext fun i hi => h i hi

@[simp] theorem Bytes.ofList_toList {n : Nat} (X : Bytes n) : Bytes.ofList n X.toList = X :=
  Bytes.ext fun i hi => by simp [hi]

theorem Bytes.toList_ofList {n : Nat} {X : List Byte} (h : X.length = n) : (Bytes.ofList n X).toList = X := by
  refine List.ext_getElem (by simp [h]) fun i h1 h2 => ?_
  have hi : i < n := by simpa using h1
  have : (Bytes.ofList n X).toList[i] = (Bytes.ofList n X)[i] := by simp
  rw [this, Bytes.getElem_ofList n X i hi, byteAt, List.getD_eq_getElem _ _ h2]

@[simp] theorem getElem_rev {n : Nat} (X : Bytes n) (i : Nat) (h : i < n) : (rev X)[i] = X[n - 1 - i] := by
  simp [rev]

@[simp] theorem rev_rev {n : Nat} (X : Bytes n) : rev (rev X) = X := by simp [rev]

@[simp] theorem toList_rev {n : Nat} (X : Bytes n) : (rev X).toList = X.toList.reverse := by
  simp [rev]

@[simp] theorem le32_length (x : Word) : (le32 x).length = 4 := by simp [le32]
@[simp] theorem be32_length (x : Word) : (be32 x).length = 4 := by simp [be32]

/-- Byte `i` of LE32(x) is x[8i+7:8i] (R13). -/
theorem byteAt_le32 (x : Word) (i : Nat) (h : i < 4) : byteAt (le32 x) i = x.extractLsb' (8 * i) 8 := by
  interval_cases i <;> rfl

/-- The bits of a word made of four bytes. -/
theorem getLsbD_wordOf (b3 b2 b1 b0 : Byte) (i : Nat) :
    (wordOf b3 b2 b1 b0).getLsbD i =
      if i < 8 then b0.getLsbD i else if i < 16 then b1.getLsbD (i - 8)
      else if i < 24 then b2.getLsbD (i - 16) else b3.getLsbD (i - 24) := by
  have h : (wordOf b3 b2 b1 b0).getLsbD i = ((b3 ++ b2 ++ b1 ++ b0 : BitVec (8 + 8 + 8 + 8))).getLsbD i := rfl
  rw [h, BitVec.getLsbD_append, BitVec.getLsbD_append, BitVec.getLsbD_append]
  by_cases h0 : i < 8
  · simp [h0]
  · by_cases h1 : i < 16
    · simp [h0, h1, show i - 8 < 8 by omega]
    · by_cases h2 : i < 24
      · simp [h0, h1, h2, show ¬ i - 8 < 8 by omega, show i - 8 - 8 < 8 by omega, show i - 16 = i - 8 - 8 by omega]
      · simp [h0, h1, h2, show ¬ i - 8 < 8 by omega, show ¬ i - 8 - 8 < 8 by omega, show i - 24 = i - 8 - 8 - 8 by omega]

/-- The bytes of a word made of four bytes. -/
theorem extract_wordOf (b3 b2 b1 b0 : Byte) :
    (wordOf b3 b2 b1 b0).extractLsb' 0 8 = b0 ∧ (wordOf b3 b2 b1 b0).extractLsb' 8 8 = b1 ∧
    (wordOf b3 b2 b1 b0).extractLsb' 16 8 = b2 ∧ (wordOf b3 b2 b1 b0).extractLsb' 24 8 = b3 := by
  refine ⟨?_, ?_, ?_, ?_⟩ <;> refine BitVec.eq_of_getLsbD_eq fun i hi => ?_ <;>
    simp only [BitVec.getLsbD_extractLsb', hi, decide_true, Bool.true_and, getLsbD_wordOf]
  · simp [hi]
  · simp [show ¬ 8 + i < 8 by omega, show 8 + i < 16 by omega]
  · simp [show ¬ 16 + i < 8 by omega, show ¬ 16 + i < 16 by omega, show 16 + i < 24 by omega]
  · simp [show ¬ 24 + i < 8 by omega, show ¬ 24 + i < 16 by omega, show ¬ 24 + i < 24 by omega]

/-- Byte `b` of LEword(X, k) is X[4k + b] (R13). -/
theorem extract_leWord (X : List Byte) (k b : Nat) (h : b < 4) :
    (leWord X k).extractLsb' (8 * b) 8 = byteAt X (4 * k + b) := by
  obtain ⟨h0, h1, h2, h3⟩ :=
    extract_wordOf (byteAt X (4 * k + 3)) (byteAt X (4 * k + 2)) (byteAt X (4 * k + 1)) (byteAt X (4 * k))
  interval_cases b <;> assumption

/-- A word is the word of its bytes. -/
theorem wordOf_bytes (x : Word) : wordOf (byteOf x 24) (byteOf x 16) (byteOf x 8) (byteOf x 0) = x := by
  refine BitVec.eq_of_getLsbD_eq fun i hi => ?_
  rw [getLsbD_wordOf]
  simp only [byteOf, BitVec.getLsbD_extractLsb']
  split
  · simp [*]
  · split
    · simp [show i - 8 < 8 by omega, show 8 + (i - 8) = i by omega]
    · split
      · simp [show i - 16 < 8 by omega, show 16 + (i - 16) = i by omega]
      · simp [show i - 24 < 8 by omega, show 24 + (i - 24) = i by omega]

/-- LEword of LE32(x) is x (R144). -/
theorem leWord_of_le32 {X : List Byte} {k : Nat} {x : Word}
    (h : ∀ b < 4, byteAt X (4 * k + b) = x.extractLsb' (8 * b) 8) : leWord X k = x := by
  have h0 := h 0 (by omega); have h1 := h 1 (by omega); have h2 := h 2 (by omega); have h3 := h 3 (by omega)
  simp only [Nat.add_zero, Nat.mul_zero, Nat.mul_one] at h0 h1 h2 h3
  unfold leWord
  rw [h0, h1, h2, h3]
  exact wordOf_bytes x

/-- The bytes of an array after a port write (R62). -/
theorem getElem_setPortWord {n : Nat} (X : Bytes n) (k : Nat) (v : Word) (j : Nat) (h : j < n) :
    (setPortWord X k v)[j] = if 4 * k ≤ j ∧ j < 4 * k + 4 then v.extractLsb' (8 * (j - 4 * k)) 8 else X[j] := by
  unfold setPortWord
  rw [Vector.getElem_ofFn]
  split
  · rw [byteAt_le32 _ _ (by omega)]
  · rfl

/-! ## Integer values (R13) -/

/-- BEval(rev(X)) = LEval(X) (R13). -/
theorem beVal_reverse (X : List Byte) : beVal X.reverse = leVal X := by
  unfold beVal leVal
  rw [List.foldl_reverse]
  congr 1
  funext b v
  omega

theorem beVal_append_singleton (X : List Byte) (b : Byte) : beVal (X ++ [b]) = beVal X * 256 + b.toNat := by
  simp [beVal]

theorem leVal_cons (b : Byte) (X : List Byte) : leVal (b :: X) = b.toNat + 256 * leVal X := rfl

theorem beVal_eq_leVal (X : List Byte) : beVal X = leVal X.reverse := by
  rw [← beVal_reverse, List.reverse_reverse]

theorem leVal_lt (X : List Byte) : leVal X < 256 ^ X.length := by
  induction X with
  | nil => simp [leVal]
  | cons b X ih =>
    rw [leVal_cons, List.length_cons, Nat.pow_succ]
    have := b.isLt
    omega

theorem beVal_lt (X : List Byte) : beVal X < 256 ^ X.length := by
  rw [beVal_eq_leVal]; simpa using leVal_lt X.reverse

@[simp] theorem beBytes_length (n v : Nat) : (beBytes n v).length = n := by simp [beBytes]

theorem beBytes_succ (n v : Nat) : beBytes (n + 1) v = beBytes n (v / 256) ++ [BitVec.ofNat 8 v] := by
  refine List.ext_getElem (by simp) fun i h1 h2 => ?_
  have hi : i < n + 1 := by simpa using h1
  rcases Nat.lt_or_eq_of_le (Nat.le_of_lt_succ hi) with h | rfl
  · rw [List.getElem_append_left (by simpa using h)]
    simp only [beBytes, List.getElem_map, List.getElem_range, Nat.div_div_eq_div_mul]
    rw [← Nat.pow_succ', show n + 1 - 1 - i = (n - 1 - i).succ by omega]
  · simp [beBytes]

/-- The value of the `n` bytes of `v` is `v` modulo `256 ^ n`. -/
theorem beVal_beBytes (n v : Nat) : beVal (beBytes n v) = v % 256 ^ n := by
  induction n generalizing v with
  | zero => simp [beBytes, beVal, Nat.mod_one]
  | succ n ih =>
    rw [beBytes_succ, beVal_append_singleton, ih, Nat.pow_succ', Nat.mod_mul, BitVec.toNat_ofNat]
    omega

/-- BEval(BE256(v)) = v (R13). -/
theorem beVal_be256 {v : Nat} (h : v < 2 ^ 256) : beVal (be256 v).toList = v := by
  rw [be256, Bytes.toList_ofList (beBytes_length 32 v), beVal_beBytes, Nat.mod_eq_of_lt]
  have : (256 : Nat) ^ 32 = 2 ^ 256 := by norm_num
  omega

/-! ## The address map (R61 to R65) -/

theorem misaligned_iff (a : Word) : misaligned a = true ↔ a.toNat % 4 ≠ 0 := by
  unfold misaligned
  rw [bne_iff_ne, ne_eq, ← BitVec.toNat_inj]
  simp

/-- An address inside the RESULT window (R64). -/
theorem locate_window {slots a : Nat} (h : resultBase ≤ a) (h' : a < resultBase + 32 * slots) :
    locate slots a = some (.result ((a - resultBase) / 32) ((a - resultBase) % 32 / 4)) := by
  simp [locate, h, h']

/-- Word `k` of slot `i` is found at its address (R64). -/
theorem locate_result {slots i k : Nat} (hi : i < slots) (hk : k < 8) :
    locate slots (slotBase i + 4 * k) = some (.result i k) := by
  unfold slotBase
  rw [locate_window (by omega) (by omega)]
  congr 2 <;> omega

/-- Past the RESULT window everything is unmapped (R65). -/
theorem locate_above {slots a : Nat} (h : resultBase + 32 * slots ≤ a) : locate slots a = none := by
  have : resultBase ≤ a := by omega
  simp [locate, this, show ¬ a < resultBase + 32 * slots by omega]

/-- A register is found at its offset (R63). -/
theorem locate_reg (slots : Nat) (r : Reg) : locate slots r.offset = some (.reg r) := by
  cases r <;> rfl

/-- Below the RESULT window no register has an offset outside its list (R63). -/
theorem find_reg_none {a : Nat} (h : ∀ r : Reg, r.offset ≠ a) : allRegs.find? (fun r => r.offset == a) = none := by
  simp [allRegs, h]

/-- Word `k` of an array is found at its address (R63). -/
theorem locate_word (slots : Nat) (x : Arr) (k : Nat) (hk : k < x.words) :
    locate slots (x.base + 4 * k) = some (.word x k) := by
  cases x <;> simp only [Arr.words] at hk <;> interval_cases k <;> rfl

/-- What the address map finds, by cases. -/
theorem locate_cases {slots a : Nat} {l : Loc} (h : locate slots a = some l) :
    (∃ r : Reg, l = .reg r ∧ a = r.offset) ∨
    (∃ (x : Arr) (k : Nat), l = .word x k ∧ x.base + 4 * k ≤ a ∧ a < x.base + 4 * k + 4 ∧ k < x.words) ∨
    (∃ i k, l = .result i k ∧ i < slots ∧ k < 8 ∧ slotBase i + 4 * k ≤ a ∧ a < slotBase i + 4 * k + 4) := by
  unfold locate at h
  split at h
  · rename_i hb
    split at h
    · injection h with h
      refine .inr (.inr ⟨_, _, h.symm, by omega, by omega, ?_, ?_⟩) <;> unfold slotBase <;> omega
    · cases h
  · split at h
    · rename_i r hr
      injection h with h
      have := List.find?_some hr
      exact .inl ⟨r, h.symm, (by simpa using this : r.offset = a).symm⟩
    · split at h
      · rename_i x hx
        injection h with h
        have := List.find?_some hx
        simp only [Arr.holds, decide_eq_true_eq] at this
        exact .inr (.inl ⟨x, _, h.symm, by omega, by omega, by omega⟩)
      · cases h

/-- An aligned address inside an array is one of its words (R63). -/
theorem locate_inside {slots a : Nat} (x : Arr) (hm : a % 4 = 0) (h : x.base ≤ a) (h' : a < x.base + 4 * x.words) :
    ∃ k, k < x.words ∧ a = x.base + 4 * k ∧ locate slots a = some (.word x k) := by
  have hb : x.base % 4 = 0 := by cases x <;> rfl
  refine ⟨(a - x.base) / 4, by omega, by omega, ?_⟩
  have := locate_word slots x ((a - x.base) / 4) (by omega)
  rwa [show x.base + 4 * ((a - x.base) / 4) = a by omega] at this

/-- The address of a word of an array fits the port (R63). -/
theorem toNat_wordAddr (x : Arr) {k : Nat} (hk : k < x.words) :
    (BitVec.ofNat 32 (x.base + 4 * k)).toNat = x.base + 4 * k := by
  rw [BitVec.toNat_ofNat, Nat.mod_eq_of_lt]
  cases x <;> simp only [Arr.base, Arr.words] at * <;> omega

/-- Byte `b` of port word `k` of an array (R62). -/
theorem extract_portWord {n : Nat} (X : Bytes n) (k b : Nat) (hb : b < 4) (h : 4 * k + b < n) :
    (portWord X k).extractLsb' (8 * b) 8 = X[4 * k + b] := by
  rw [portWord, extract_leWord _ _ _ hb, byteAt_toList _ _ h]

/-- Two lists of bytes of one length with one value are one list (R13). -/
theorem beVal_inj {X Y : List Byte} (h : X.length = Y.length) (e : beVal X = beVal Y) : X = Y := by
  induction X using List.reverseRecOn generalizing Y with
  | nil => simpa using h.symm
  | append_singleton X x ih =>
    rcases List.eq_nil_or_concat Y with rfl | ⟨Y, y, rfl⟩
    · simp at h
    · rw [List.concat_eq_append] at *
      rw [beVal_append_singleton, beVal_append_singleton] at e
      have hx := x.isLt
      have hy := y.isLt
      simp only [List.length_append, List.length_cons, List.length_nil, Nat.add_right_cancel_iff] at h
      rw [ih h (by omega), BitVec.eq_of_toNat_eq (show x.toNat = y.toNat by omega)]

end Sys2Proof.Machine
end

