-- ==== Sys2Proof/Laws/Command.lean ====
section
/-! SUPPORT. What a command can do: the gate of R94 once for all commands, the effect each command has when it passes, and
the inversion of `exec` that every invariant is proved from. -/

namespace Sys2Proof.Machine

/-- The effect of each command once it has passed the checks of R94. -/
def effectOf : Instr → State → State
  | .nop, s => s
  | .encodeHeader, s => { s.commitHeader with hdr := encodeFields s.fields }
  | .loadHeader, s => s.commitHeader
  | .setNonce, s => { s with hdr := withNonce s.hdr s.nonce }
  | .computeTarget, s => s.computeTarget
  | .hash1, s => { s with dbgDigest := sha256 s.hdr.toList }
  | .hash2, s => { s with dbgDigest := sha256d s.hdr.toList, dbgHit := accept (sha256d s.hdr.toList) s.target }
  | .submit, s => s.submit
  | .retire, s => s.retire
  | .rearm, s => { s with state := .headerLoaded }
  | .clearErr, s => s.clearError
  | .softReset, s => s.resetBlock

theorem exec_eq (i : Instr) (s : State) : exec i s = runCommand i (effectOf i) s := by cases i <;> rfl

/-- The gate drops a command while an error is pending (R253). -/
theorem runCommand_dropped {i : Instr} {f : State → State} {s : State} (he : s.err ≠ .none)
    (hi : runsWhilePending i = false) : runCommand i f s = .next s := by
  simp [runCommand, he, hi]

/-- The gate refuses a command the state does not admit (R95). -/
theorem runCommand_illegal {i : Instr} {f : State → State} {s : State}
    (he : s.err = .none ∨ runsWhilePending i = true) (hl : legal i s.state s.hdrValid = false) :
    runCommand i f s = .next (s.raise .illegalCommand (encode i)) := by
  rcases he with he | he <;> simp [runCommand, he, hl]

/-- A command that passes has its effect (R94). -/
theorem runCommand_passes {i : Instr} {f : State → State} {s : State}
    (he : s.err = .none ∨ runsWhilePending i = true) (hl : legal i s.state s.hdrValid = true) :
    runCommand i f s = .next (f s) := by
  rcases he with he | he <;> simp [runCommand, he, hl]

/-- A command that passes has its effect (R94). -/
theorem exec_passes {i : Instr} {s : State} (he : s.err = .none ∨ runsWhilePending i = true)
    (hl : legal i s.state s.hdrValid = true) : exec i s = .next (effectOf i s) := by
  rw [exec_eq, runCommand_passes he hl]

/-- All that a command can do (R94). -/
theorem exec_cases {i : Instr} {s t : State} (h : exec i s = .next t) :
    (s.err ≠ .none ∧ runsWhilePending i = false ∧ t = s) ∨
    ((s.err = .none ∨ runsWhilePending i = true) ∧ legal i s.state s.hdrValid = false ∧
      t = s.raise .illegalCommand (encode i)) ∨
    ((s.err = .none ∨ runsWhilePending i = true) ∧ legal i s.state s.hdrValid = true ∧ t = effectOf i s) := by
  rw [exec_eq, runCommand] at h
  split at h
  · rename_i h1; injection h with h; exact .inl ⟨h1.1, h1.2, h.symm⟩
  · rename_i h1
    have he : s.err = .none ∨ runsWhilePending i = true := by
      by_cases he : s.err = .none
      · exact .inl he
      · exact .inr (by simpa [he] using h1)
    split at h
    · rename_i h2; injection h with h; exact .inr (.inl ⟨he, h2, h.symm⟩)
    · rename_i h2; injection h with h; exact .inr (.inr ⟨he, by simpa using h2, h.symm⟩)

/-- All that SUBMIT's effect can be (R205). -/
theorem submit_cases (s : State) :
    ((s.batchSize = 0#32 ∨ s.maxBatch < s.batchSize.toNat) ∧ s.submit = s.raise .badBatchSize (encode .submit)) ∨
    (1 ≤ s.batchSize.toNat ∧ s.batchSize.toNat ≤ s.maxBatch ∧ 2 ^ 32 < s.off + s.batchSize.toNat ∧
      s.submit = { s.raise .searchSpaceExhausted (encode .submit) with state := .idle, hdrValid := false }) ∨
    (1 ≤ s.batchSize.toNat ∧ s.batchSize.toNat ≤ s.maxBatch ∧ s.off + s.batchSize.toNat ≤ 2 ^ 32 ∧
      s.lanesReady = false ∧ s.submit = s.raise .deviceUnavailable (encode .submit)) ∨
    (1 ≤ s.batchSize.toNat ∧ s.batchSize.toNat ≤ s.maxBatch ∧ s.off + s.batchSize.toNat ≤ 2 ^ 32 ∧
      s.lanesReady = true ∧
      s.submit =
        { s with found := false, nsr := false, pending := List.range s.batchSize.toNat, state := .dispatched }) := by
  unfold State.submit
  split
  · exact .inl ⟨‹_›, rfl⟩
  · rename_i h1
    rw [not_or, ← BitVec.toNat_inj] at h1
    have hb : 1 ≤ s.batchSize.toNat ∧ s.batchSize.toNat ≤ s.maxBatch := by
      have := h1.1; simp at this; omega
    split
    · exact .inr (.inl ⟨hb.1, hb.2, by omega, rfl⟩)
    · split
      · rename_i h3
        exact .inr (.inr (.inl ⟨hb.1, hb.2, by omega, h3, rfl⟩))
      · rename_i h3
        exact .inr (.inr (.inr ⟨hb.1, hb.2, by omega, by simpa using h3, rfl⟩))

/-- All that COMPUTE_TARGET can do once it has passed the gate (R142). -/
theorem computeTarget_cases (s : State) :
    (expand s.bits = none ∧ s.computeTarget = s.raise .invalidDifficulty (encode .computeTarget)) ∨
    ∃ t, expand s.bits = some t ∧ s.computeTarget = { s with target := t } := by
  unfold State.computeTarget
  cases h : expand s.bits with
  | none => exact .inl ⟨rfl, rfl⟩
  | some t => exact .inr ⟨t, rfl, rfl⟩

/-- A number up to 2^32 in its 33 bits (R34). -/
theorem off_split (x : Nat) (h : x ≤ 2 ^ 32) :
    (decide (x / 2 ^ 32 % 2 = 1)).toNat * 2 ^ 32 + (BitVec.ofNat 32 (x % 2 ^ 32)).toNat = x := by
  rw [BitVec.toNat_ofNat]
  by_cases c : x / 2 ^ 32 % 2 = 1
  · rw [decide_eq_true c, Bool.toNat_true]; omega
  · rw [decide_eq_false c, Bool.toNat_false]; omega

/-- All that RETIRE can do once it has passed the gate (R218). -/
theorem retire_cases (s : State) :
    (s.found = true ∧ s.retire = { s with state := .solved }) ∨
    (s.found = false ∧ ∃ (lo : Word) (hi : Bool),
      s.retire = { s with nonceOffset := lo, offsetHi := hi, state := .idle } ∧
      (s.off + s.batchSize.toNat ≤ 2 ^ 32 → hi.toNat * 2 ^ 32 + lo.toNat = s.off + s.batchSize.toNat)) := by
  by_cases hf : s.found = true
  · exact .inl ⟨hf, by rw [State.retire, if_pos hf]⟩
  · exact .inr ⟨by simpa using hf, _, _, by rw [State.retire, if_neg hf], off_split _⟩

end Sys2Proof.Machine
end

