-- ==== Sys2Proof/Laws/State.lean ====
section
/-! SUPPORT. The fields of a state after each shared update, one lemma a field, each true by unfolding. -/

namespace Sys2Proof.Machine

/-! ## After `raise` (R252) -/

@[simp] theorem State.raise_state (s : State) (e : ErrCode) (info : Word) : (s.raise e info).state = s.state := rfl
@[simp] theorem State.raise_hdrValid (s : State) (e : ErrCode) (info : Word) : (s.raise e info).hdrValid = s.hdrValid := rfl
@[simp] theorem State.raise_found (s : State) (e : ErrCode) (info : Word) : (s.raise e info).found = s.found := rfl
@[simp] theorem State.raise_nsr (s : State) (e : ErrCode) (info : Word) : (s.raise e info).nsr = s.nsr := rfl
@[simp] theorem State.raise_dbgHit (s : State) (e : ErrCode) (info : Word) : (s.raise e info).dbgHit = s.dbgHit := rfl
@[simp] theorem State.raise_offsetHi (s : State) (e : ErrCode) (info : Word) : (s.raise e info).offsetHi = s.offsetHi := rfl
@[simp] theorem State.raise_err (s : State) (e : ErrCode) (info : Word) : (s.raise e info).err = if s.err = .none then e else s.err := rfl
@[simp] theorem State.raise_errInfo (s : State) (e : ErrCode) (info : Word) : (s.raise e info).errInfo = if s.err = .none then info else s.errInfo := rfl
@[simp] theorem State.raise_irqEn (s : State) (e : ErrCode) (info : Word) : (s.raise e info).irqEn = s.irqEn := rfl
@[simp] theorem State.raise_version (s : State) (e : ErrCode) (info : Word) : (s.raise e info).version = s.version := rfl
@[simp] theorem State.raise_time (s : State) (e : ErrCode) (info : Word) : (s.raise e info).time = s.time := rfl
@[simp] theorem State.raise_bits (s : State) (e : ErrCode) (info : Word) : (s.raise e info).bits = s.bits := rfl
@[simp] theorem State.raise_nonce (s : State) (e : ErrCode) (info : Word) : (s.raise e info).nonce = s.nonce := rfl
@[simp] theorem State.raise_nonceOffset (s : State) (e : ErrCode) (info : Word) : (s.raise e info).nonceOffset = s.nonceOffset := rfl
@[simp] theorem State.raise_batchSize (s : State) (e : ErrCode) (info : Word) : (s.raise e info).batchSize = s.batchSize := rfl
@[simp] theorem State.raise_prevHash (s : State) (e : ErrCode) (info : Word) : (s.raise e info).prevHash = s.prevHash := rfl
@[simp] theorem State.raise_merkleRoot (s : State) (e : ErrCode) (info : Word) : (s.raise e info).merkleRoot = s.merkleRoot := rfl
@[simp] theorem State.raise_target (s : State) (e : ErrCode) (info : Word) : (s.raise e info).target = s.target := rfl
@[simp] theorem State.raise_hdr (s : State) (e : ErrCode) (info : Word) : (s.raise e info).hdr = s.hdr := rfl
@[simp] theorem State.raise_solNonce (s : State) (e : ErrCode) (info : Word) : (s.raise e info).solNonce = s.solNonce := rfl
@[simp] theorem State.raise_solDigest (s : State) (e : ErrCode) (info : Word) : (s.raise e info).solDigest = s.solDigest := rfl
@[simp] theorem State.raise_dbgDigest (s : State) (e : ErrCode) (info : Word) : (s.raise e info).dbgDigest = s.dbgDigest := rfl
@[simp] theorem State.raise_pending (s : State) (e : ErrCode) (info : Word) : (s.raise e info).pending = s.pending := rfl
@[simp] theorem State.raise_hit (s : State) (e : ErrCode) (info : Word) : (s.raise e info).hit = s.hit := rfl
@[simp] theorem State.raise_result (s : State) (e : ErrCode) (info : Word) : (s.raise e info).result = s.result := rfl
@[simp] theorem State.raise_maxBatchLessOne (s : State) (e : ErrCode) (info : Word) : (s.raise e info).maxBatchLessOne = s.maxBatchLessOne := rfl
@[simp] theorem State.raise_lanesReady (s : State) (e : ErrCode) (info : Word) : (s.raise e info).lanesReady = s.lanesReady := rfl
@[simp] theorem State.raise_agenda (s : State) (e : ErrCode) (info : Word) : (s.raise e info).agenda = s.agenda := rfl
@[simp] theorem State.raise_readData (s : State) (e : ErrCode) (info : Word) : (s.raise e info).readData = s.readData := rfl
@[simp] theorem State.raise_draws (s : State) (e : ErrCode) (info : Word) : (s.raise e info).draws = s.draws := rfl

/-! ## After clearing the error (R221) -/

@[simp] theorem State.clearError_state (s : State) : (s.clearError).state = s.state := rfl
@[simp] theorem State.clearError_hdrValid (s : State) : (s.clearError).hdrValid = s.hdrValid := rfl
@[simp] theorem State.clearError_found (s : State) : (s.clearError).found = s.found := rfl
@[simp] theorem State.clearError_nsr (s : State) : (s.clearError).nsr = s.nsr := rfl
@[simp] theorem State.clearError_dbgHit (s : State) : (s.clearError).dbgHit = s.dbgHit := rfl
@[simp] theorem State.clearError_offsetHi (s : State) : (s.clearError).offsetHi = s.offsetHi := rfl
@[simp] theorem State.clearError_err (s : State) : (s.clearError).err = .none := rfl
@[simp] theorem State.clearError_errInfo (s : State) : (s.clearError).errInfo = 0#32 := rfl
@[simp] theorem State.clearError_irqEn (s : State) : (s.clearError).irqEn = s.irqEn := rfl
@[simp] theorem State.clearError_version (s : State) : (s.clearError).version = s.version := rfl
@[simp] theorem State.clearError_time (s : State) : (s.clearError).time = s.time := rfl
@[simp] theorem State.clearError_bits (s : State) : (s.clearError).bits = s.bits := rfl
@[simp] theorem State.clearError_nonce (s : State) : (s.clearError).nonce = s.nonce := rfl
@[simp] theorem State.clearError_nonceOffset (s : State) : (s.clearError).nonceOffset = s.nonceOffset := rfl
@[simp] theorem State.clearError_batchSize (s : State) : (s.clearError).batchSize = s.batchSize := rfl
@[simp] theorem State.clearError_prevHash (s : State) : (s.clearError).prevHash = s.prevHash := rfl
@[simp] theorem State.clearError_merkleRoot (s : State) : (s.clearError).merkleRoot = s.merkleRoot := rfl
@[simp] theorem State.clearError_target (s : State) : (s.clearError).target = s.target := rfl
@[simp] theorem State.clearError_hdr (s : State) : (s.clearError).hdr = s.hdr := rfl
@[simp] theorem State.clearError_solNonce (s : State) : (s.clearError).solNonce = s.solNonce := rfl
@[simp] theorem State.clearError_solDigest (s : State) : (s.clearError).solDigest = s.solDigest := rfl
@[simp] theorem State.clearError_dbgDigest (s : State) : (s.clearError).dbgDigest = s.dbgDigest := rfl
@[simp] theorem State.clearError_pending (s : State) : (s.clearError).pending = s.pending := rfl
@[simp] theorem State.clearError_hit (s : State) : (s.clearError).hit = s.hit := rfl
@[simp] theorem State.clearError_result (s : State) : (s.clearError).result = s.result := rfl
@[simp] theorem State.clearError_maxBatchLessOne (s : State) : (s.clearError).maxBatchLessOne = s.maxBatchLessOne := rfl
@[simp] theorem State.clearError_lanesReady (s : State) : (s.clearError).lanesReady = s.lanesReady := rfl
@[simp] theorem State.clearError_agenda (s : State) : (s.clearError).agenda = s.agenda := rfl
@[simp] theorem State.clearError_readData (s : State) : (s.clearError).readData = s.readData := rfl
@[simp] theorem State.clearError_draws (s : State) : (s.clearError).draws = s.draws := rfl

/-! ## After committing a header (R131, R135) -/

@[simp] theorem State.commitHeader_state (s : State) : (s.commitHeader).state = .headerLoaded := rfl
@[simp] theorem State.commitHeader_hdrValid (s : State) : (s.commitHeader).hdrValid = true := rfl
@[simp] theorem State.commitHeader_found (s : State) : (s.commitHeader).found = false := rfl
@[simp] theorem State.commitHeader_nsr (s : State) : (s.commitHeader).nsr = false := rfl
@[simp] theorem State.commitHeader_dbgHit (s : State) : (s.commitHeader).dbgHit = s.dbgHit := rfl
@[simp] theorem State.commitHeader_offsetHi (s : State) : (s.commitHeader).offsetHi = s.offsetHi := rfl
@[simp] theorem State.commitHeader_err (s : State) : (s.commitHeader).err = s.err := rfl
@[simp] theorem State.commitHeader_errInfo (s : State) : (s.commitHeader).errInfo = s.errInfo := rfl
@[simp] theorem State.commitHeader_irqEn (s : State) : (s.commitHeader).irqEn = s.irqEn := rfl
@[simp] theorem State.commitHeader_version (s : State) : (s.commitHeader).version = s.version := rfl
@[simp] theorem State.commitHeader_time (s : State) : (s.commitHeader).time = s.time := rfl
@[simp] theorem State.commitHeader_bits (s : State) : (s.commitHeader).bits = s.bits := rfl
@[simp] theorem State.commitHeader_nonce (s : State) : (s.commitHeader).nonce = s.nonce := rfl
@[simp] theorem State.commitHeader_nonceOffset (s : State) : (s.commitHeader).nonceOffset = s.nonceOffset := rfl
@[simp] theorem State.commitHeader_batchSize (s : State) : (s.commitHeader).batchSize = s.batchSize := rfl
@[simp] theorem State.commitHeader_prevHash (s : State) : (s.commitHeader).prevHash = s.prevHash := rfl
@[simp] theorem State.commitHeader_merkleRoot (s : State) : (s.commitHeader).merkleRoot = s.merkleRoot := rfl
@[simp] theorem State.commitHeader_target (s : State) : (s.commitHeader).target = s.target := rfl
@[simp] theorem State.commitHeader_hdr (s : State) : (s.commitHeader).hdr = s.hdr := rfl
@[simp] theorem State.commitHeader_solNonce (s : State) : (s.commitHeader).solNonce = s.solNonce := rfl
@[simp] theorem State.commitHeader_solDigest (s : State) : (s.commitHeader).solDigest = s.solDigest := rfl
@[simp] theorem State.commitHeader_dbgDigest (s : State) : (s.commitHeader).dbgDigest = s.dbgDigest := rfl
@[simp] theorem State.commitHeader_pending (s : State) : (s.commitHeader).pending = s.pending := rfl
@[simp] theorem State.commitHeader_hit (s : State) : (s.commitHeader).hit = s.hit := rfl
@[simp] theorem State.commitHeader_result (s : State) : (s.commitHeader).result = s.result := rfl
@[simp] theorem State.commitHeader_maxBatchLessOne (s : State) : (s.commitHeader).maxBatchLessOne = s.maxBatchLessOne := rfl
@[simp] theorem State.commitHeader_lanesReady (s : State) : (s.commitHeader).lanesReady = s.lanesReady := rfl
@[simp] theorem State.commitHeader_agenda (s : State) : (s.commitHeader).agenda = s.agenda := rfl
@[simp] theorem State.commitHeader_readData (s : State) : (s.commitHeader).readData = s.readData := rfl
@[simp] theorem State.commitHeader_draws (s : State) : (s.commitHeader).draws = s.draws := rfl

/-! ## After the port's answer (R66) -/

@[simp] theorem State.answer_state (s : State) (v : Word) : (s.answer v).state = s.state := rfl
@[simp] theorem State.answer_hdrValid (s : State) (v : Word) : (s.answer v).hdrValid = s.hdrValid := rfl
@[simp] theorem State.answer_found (s : State) (v : Word) : (s.answer v).found = s.found := rfl
@[simp] theorem State.answer_nsr (s : State) (v : Word) : (s.answer v).nsr = s.nsr := rfl
@[simp] theorem State.answer_dbgHit (s : State) (v : Word) : (s.answer v).dbgHit = s.dbgHit := rfl
@[simp] theorem State.answer_offsetHi (s : State) (v : Word) : (s.answer v).offsetHi = s.offsetHi := rfl
@[simp] theorem State.answer_err (s : State) (v : Word) : (s.answer v).err = s.err := rfl
@[simp] theorem State.answer_errInfo (s : State) (v : Word) : (s.answer v).errInfo = s.errInfo := rfl
@[simp] theorem State.answer_irqEn (s : State) (v : Word) : (s.answer v).irqEn = s.irqEn := rfl
@[simp] theorem State.answer_version (s : State) (v : Word) : (s.answer v).version = s.version := rfl
@[simp] theorem State.answer_time (s : State) (v : Word) : (s.answer v).time = s.time := rfl
@[simp] theorem State.answer_bits (s : State) (v : Word) : (s.answer v).bits = s.bits := rfl
@[simp] theorem State.answer_nonce (s : State) (v : Word) : (s.answer v).nonce = s.nonce := rfl
@[simp] theorem State.answer_nonceOffset (s : State) (v : Word) : (s.answer v).nonceOffset = s.nonceOffset := rfl
@[simp] theorem State.answer_batchSize (s : State) (v : Word) : (s.answer v).batchSize = s.batchSize := rfl
@[simp] theorem State.answer_prevHash (s : State) (v : Word) : (s.answer v).prevHash = s.prevHash := rfl
@[simp] theorem State.answer_merkleRoot (s : State) (v : Word) : (s.answer v).merkleRoot = s.merkleRoot := rfl
@[simp] theorem State.answer_target (s : State) (v : Word) : (s.answer v).target = s.target := rfl
@[simp] theorem State.answer_hdr (s : State) (v : Word) : (s.answer v).hdr = s.hdr := rfl
@[simp] theorem State.answer_solNonce (s : State) (v : Word) : (s.answer v).solNonce = s.solNonce := rfl
@[simp] theorem State.answer_solDigest (s : State) (v : Word) : (s.answer v).solDigest = s.solDigest := rfl
@[simp] theorem State.answer_dbgDigest (s : State) (v : Word) : (s.answer v).dbgDigest = s.dbgDigest := rfl
@[simp] theorem State.answer_pending (s : State) (v : Word) : (s.answer v).pending = s.pending := rfl
@[simp] theorem State.answer_hit (s : State) (v : Word) : (s.answer v).hit = s.hit := rfl
@[simp] theorem State.answer_result (s : State) (v : Word) : (s.answer v).result = s.result := rfl
@[simp] theorem State.answer_maxBatchLessOne (s : State) (v : Word) : (s.answer v).maxBatchLessOne = s.maxBatchLessOne := rfl
@[simp] theorem State.answer_lanesReady (s : State) (v : Word) : (s.answer v).lanesReady = s.lanesReady := rfl
@[simp] theorem State.answer_agenda (s : State) (v : Word) : (s.answer v).agenda = s.agenda := rfl
@[simp] theorem State.answer_readData (s : State) (v : Word) : (s.answer v).readData = some v := rfl
@[simp] theorem State.answer_draws (s : State) (v : Word) : (s.answer v).draws = s.draws := rfl

/-- A refused read is a refused access that returns 0 (R258). -/
@[simp] theorem State.refuseRead_eq (s : State) (a : Word) :
    s.refuseRead a = (s.raise .illegalAccess a).answer 0#32 := rfl

/-! ## After the lane step (R210) -/

@[simp] theorem State.laneStep_state (s : State) (i : Nat) : (s.laneStep i).state = s.state := rfl
@[simp] theorem State.laneStep_hdrValid (s : State) (i : Nat) : (s.laneStep i).hdrValid = s.hdrValid := rfl
@[simp] theorem State.laneStep_found (s : State) (i : Nat) : (s.laneStep i).found = s.found := rfl
@[simp] theorem State.laneStep_nsr (s : State) (i : Nat) : (s.laneStep i).nsr = s.nsr := rfl
@[simp] theorem State.laneStep_dbgHit (s : State) (i : Nat) : (s.laneStep i).dbgHit = s.dbgHit := rfl
@[simp] theorem State.laneStep_offsetHi (s : State) (i : Nat) : (s.laneStep i).offsetHi = s.offsetHi := rfl
@[simp] theorem State.laneStep_err (s : State) (i : Nat) : (s.laneStep i).err = s.err := rfl
@[simp] theorem State.laneStep_errInfo (s : State) (i : Nat) : (s.laneStep i).errInfo = s.errInfo := rfl
@[simp] theorem State.laneStep_irqEn (s : State) (i : Nat) : (s.laneStep i).irqEn = s.irqEn := rfl
@[simp] theorem State.laneStep_version (s : State) (i : Nat) : (s.laneStep i).version = s.version := rfl
@[simp] theorem State.laneStep_time (s : State) (i : Nat) : (s.laneStep i).time = s.time := rfl
@[simp] theorem State.laneStep_bits (s : State) (i : Nat) : (s.laneStep i).bits = s.bits := rfl
@[simp] theorem State.laneStep_nonce (s : State) (i : Nat) : (s.laneStep i).nonce = s.nonce := rfl
@[simp] theorem State.laneStep_nonceOffset (s : State) (i : Nat) : (s.laneStep i).nonceOffset = s.nonceOffset := rfl
@[simp] theorem State.laneStep_batchSize (s : State) (i : Nat) : (s.laneStep i).batchSize = s.batchSize := rfl
@[simp] theorem State.laneStep_prevHash (s : State) (i : Nat) : (s.laneStep i).prevHash = s.prevHash := rfl
@[simp] theorem State.laneStep_merkleRoot (s : State) (i : Nat) : (s.laneStep i).merkleRoot = s.merkleRoot := rfl
@[simp] theorem State.laneStep_target (s : State) (i : Nat) : (s.laneStep i).target = s.target := rfl
@[simp] theorem State.laneStep_hdr (s : State) (i : Nat) : (s.laneStep i).hdr = s.hdr := rfl
@[simp] theorem State.laneStep_solNonce (s : State) (i : Nat) : (s.laneStep i).solNonce = s.solNonce := rfl
@[simp] theorem State.laneStep_solDigest (s : State) (i : Nat) : (s.laneStep i).solDigest = s.solDigest := rfl
@[simp] theorem State.laneStep_dbgDigest (s : State) (i : Nat) : (s.laneStep i).dbgDigest = s.dbgDigest := rfl
@[simp] theorem State.laneStep_pending (s : State) (i : Nat) : (s.laneStep i).pending = s.pending.remove i := rfl
@[simp] theorem State.laneStep_hit (s : State) (i : Nat) : (s.laneStep i).hit = s.hit.put i (accept (s.laneDigest i) s.target) := rfl
@[simp] theorem State.laneStep_result (s : State) (i : Nat) : (s.laneStep i).result = s.result.writeBytes (slotBase i) (s.laneDigest i).toList := rfl
@[simp] theorem State.laneStep_maxBatchLessOne (s : State) (i : Nat) : (s.laneStep i).maxBatchLessOne = s.maxBatchLessOne := rfl
@[simp] theorem State.laneStep_lanesReady (s : State) (i : Nat) : (s.laneStep i).lanesReady = s.lanesReady := rfl
@[simp] theorem State.laneStep_agenda (s : State) (i : Nat) : (s.laneStep i).agenda = s.agenda := rfl
@[simp] theorem State.laneStep_readData (s : State) (i : Nat) : (s.laneStep i).readData = s.readData := rfl
@[simp] theorem State.laneStep_draws (s : State) (i : Nat) : (s.laneStep i).draws = s.draws := rfl

/-! ## After the reset (R281) -/

@[simp] theorem State.resetBlock_state (s : State) : (s.resetBlock).state = .idle := rfl
@[simp] theorem State.resetBlock_hdrValid (s : State) : (s.resetBlock).hdrValid = false := rfl
@[simp] theorem State.resetBlock_found (s : State) : (s.resetBlock).found = false := rfl
@[simp] theorem State.resetBlock_nsr (s : State) : (s.resetBlock).nsr = false := rfl
@[simp] theorem State.resetBlock_dbgHit (s : State) : (s.resetBlock).dbgHit = false := rfl
@[simp] theorem State.resetBlock_offsetHi (s : State) : (s.resetBlock).offsetHi = false := rfl
@[simp] theorem State.resetBlock_err (s : State) : (s.resetBlock).err = .none := rfl
@[simp] theorem State.resetBlock_errInfo (s : State) : (s.resetBlock).errInfo = 0#32 := rfl
@[simp] theorem State.resetBlock_irqEn (s : State) : (s.resetBlock).irqEn = 0#2 := rfl
@[simp] theorem State.resetBlock_version (s : State) : (s.resetBlock).version = 0#32 := rfl
@[simp] theorem State.resetBlock_time (s : State) : (s.resetBlock).time = 0#32 := rfl
@[simp] theorem State.resetBlock_bits (s : State) : (s.resetBlock).bits = 0#32 := rfl
@[simp] theorem State.resetBlock_nonce (s : State) : (s.resetBlock).nonce = 0#32 := rfl
@[simp] theorem State.resetBlock_nonceOffset (s : State) : (s.resetBlock).nonceOffset = 0#32 := rfl
@[simp] theorem State.resetBlock_batchSize (s : State) : (s.resetBlock).batchSize = 0#32 := rfl
@[simp] theorem State.resetBlock_prevHash (s : State) : (s.resetBlock).prevHash = zeroBytes 32 := rfl
@[simp] theorem State.resetBlock_merkleRoot (s : State) : (s.resetBlock).merkleRoot = zeroBytes 32 := rfl
@[simp] theorem State.resetBlock_target (s : State) : (s.resetBlock).target = zeroBytes 32 := rfl
@[simp] theorem State.resetBlock_hdr (s : State) : (s.resetBlock).hdr = zeroBytes 80 := rfl
@[simp] theorem State.resetBlock_solNonce (s : State) : (s.resetBlock).solNonce = 0#32 := rfl
@[simp] theorem State.resetBlock_solDigest (s : State) : (s.resetBlock).solDigest = zeroBytes 32 := rfl
@[simp] theorem State.resetBlock_dbgDigest (s : State) : (s.resetBlock).dbgDigest = zeroBytes 32 := rfl
@[simp] theorem State.resetBlock_pending (s : State) : (s.resetBlock).pending = [] := rfl
@[simp] theorem State.resetBlock_hit (s : State) : (s.resetBlock).hit = [] := rfl
@[simp] theorem State.resetBlock_result (s : State) : (s.resetBlock).result = [] := rfl
@[simp] theorem State.resetBlock_maxBatchLessOne (s : State) : (s.resetBlock).maxBatchLessOne = s.maxBatchLessOne := rfl
@[simp] theorem State.resetBlock_lanesReady (s : State) : (s.resetBlock).lanesReady = s.lanesReady := rfl
@[simp] theorem State.resetBlock_agenda (s : State) : (s.resetBlock).agenda = s.agenda := rfl
@[simp] theorem State.resetBlock_readData (s : State) : (s.resetBlock).readData = s.readData := rfl
@[simp] theorem State.resetBlock_draws (s : State) : (s.resetBlock).draws = s.draws := rfl

/-! ## After a draw of a free value (R75) -/

@[simp] theorem State.drawIfUnwritten_state (s : State) (as : List Nat) : (s.drawIfUnwritten as).state = s.state := by
  unfold State.drawIfUnwritten; split <;> rfl
@[simp] theorem State.drawIfUnwritten_hdrValid (s : State) (as : List Nat) : (s.drawIfUnwritten as).hdrValid = s.hdrValid := by
  unfold State.drawIfUnwritten; split <;> rfl
@[simp] theorem State.drawIfUnwritten_found (s : State) (as : List Nat) : (s.drawIfUnwritten as).found = s.found := by
  unfold State.drawIfUnwritten; split <;> rfl
@[simp] theorem State.drawIfUnwritten_nsr (s : State) (as : List Nat) : (s.drawIfUnwritten as).nsr = s.nsr := by
  unfold State.drawIfUnwritten; split <;> rfl
@[simp] theorem State.drawIfUnwritten_dbgHit (s : State) (as : List Nat) : (s.drawIfUnwritten as).dbgHit = s.dbgHit := by
  unfold State.drawIfUnwritten; split <;> rfl
@[simp] theorem State.drawIfUnwritten_offsetHi (s : State) (as : List Nat) : (s.drawIfUnwritten as).offsetHi = s.offsetHi := by
  unfold State.drawIfUnwritten; split <;> rfl
@[simp] theorem State.drawIfUnwritten_err (s : State) (as : List Nat) : (s.drawIfUnwritten as).err = s.err := by
  unfold State.drawIfUnwritten; split <;> rfl
@[simp] theorem State.drawIfUnwritten_errInfo (s : State) (as : List Nat) : (s.drawIfUnwritten as).errInfo = s.errInfo := by
  unfold State.drawIfUnwritten; split <;> rfl
@[simp] theorem State.drawIfUnwritten_irqEn (s : State) (as : List Nat) : (s.drawIfUnwritten as).irqEn = s.irqEn := by
  unfold State.drawIfUnwritten; split <;> rfl
@[simp] theorem State.drawIfUnwritten_version (s : State) (as : List Nat) : (s.drawIfUnwritten as).version = s.version := by
  unfold State.drawIfUnwritten; split <;> rfl
@[simp] theorem State.drawIfUnwritten_time (s : State) (as : List Nat) : (s.drawIfUnwritten as).time = s.time := by
  unfold State.drawIfUnwritten; split <;> rfl
@[simp] theorem State.drawIfUnwritten_bits (s : State) (as : List Nat) : (s.drawIfUnwritten as).bits = s.bits := by
  unfold State.drawIfUnwritten; split <;> rfl
@[simp] theorem State.drawIfUnwritten_nonce (s : State) (as : List Nat) : (s.drawIfUnwritten as).nonce = s.nonce := by
  unfold State.drawIfUnwritten; split <;> rfl
@[simp] theorem State.drawIfUnwritten_nonceOffset (s : State) (as : List Nat) : (s.drawIfUnwritten as).nonceOffset = s.nonceOffset := by
  unfold State.drawIfUnwritten; split <;> rfl
@[simp] theorem State.drawIfUnwritten_batchSize (s : State) (as : List Nat) : (s.drawIfUnwritten as).batchSize = s.batchSize := by
  unfold State.drawIfUnwritten; split <;> rfl
@[simp] theorem State.drawIfUnwritten_prevHash (s : State) (as : List Nat) : (s.drawIfUnwritten as).prevHash = s.prevHash := by
  unfold State.drawIfUnwritten; split <;> rfl
@[simp] theorem State.drawIfUnwritten_merkleRoot (s : State) (as : List Nat) : (s.drawIfUnwritten as).merkleRoot = s.merkleRoot := by
  unfold State.drawIfUnwritten; split <;> rfl
@[simp] theorem State.drawIfUnwritten_target (s : State) (as : List Nat) : (s.drawIfUnwritten as).target = s.target := by
  unfold State.drawIfUnwritten; split <;> rfl
@[simp] theorem State.drawIfUnwritten_hdr (s : State) (as : List Nat) : (s.drawIfUnwritten as).hdr = s.hdr := by
  unfold State.drawIfUnwritten; split <;> rfl
@[simp] theorem State.drawIfUnwritten_solNonce (s : State) (as : List Nat) : (s.drawIfUnwritten as).solNonce = s.solNonce := by
  unfold State.drawIfUnwritten; split <;> rfl
@[simp] theorem State.drawIfUnwritten_solDigest (s : State) (as : List Nat) : (s.drawIfUnwritten as).solDigest = s.solDigest := by
  unfold State.drawIfUnwritten; split <;> rfl
@[simp] theorem State.drawIfUnwritten_dbgDigest (s : State) (as : List Nat) : (s.drawIfUnwritten as).dbgDigest = s.dbgDigest := by
  unfold State.drawIfUnwritten; split <;> rfl
@[simp] theorem State.drawIfUnwritten_pending (s : State) (as : List Nat) : (s.drawIfUnwritten as).pending = s.pending := by
  unfold State.drawIfUnwritten; split <;> rfl
@[simp] theorem State.drawIfUnwritten_hit (s : State) (as : List Nat) : (s.drawIfUnwritten as).hit = s.hit := by
  unfold State.drawIfUnwritten; split <;> rfl
@[simp] theorem State.drawIfUnwritten_result (s : State) (as : List Nat) : (s.drawIfUnwritten as).result = s.result := by
  unfold State.drawIfUnwritten; split <;> rfl
@[simp] theorem State.drawIfUnwritten_maxBatchLessOne (s : State) (as : List Nat) : (s.drawIfUnwritten as).maxBatchLessOne = s.maxBatchLessOne := by
  unfold State.drawIfUnwritten; split <;> rfl
@[simp] theorem State.drawIfUnwritten_lanesReady (s : State) (as : List Nat) : (s.drawIfUnwritten as).lanesReady = s.lanesReady := by
  unfold State.drawIfUnwritten; split <;> rfl
@[simp] theorem State.drawIfUnwritten_agenda (s : State) (as : List Nat) : (s.drawIfUnwritten as).agenda = s.agenda := by
  unfold State.drawIfUnwritten; split <;> rfl
@[simp] theorem State.drawIfUnwritten_readData (s : State) (as : List Nat) : (s.drawIfUnwritten as).readData = s.readData := by
  unfold State.drawIfUnwritten; split <;> rfl

@[simp] theorem State.raise_maxBatch (s : State) (e : ErrCode) (info : Word) : (s.raise e info).maxBatch = s.maxBatch := rfl
@[simp] theorem State.clearError_maxBatch (s : State) : (s.clearError).maxBatch = s.maxBatch := rfl
@[simp] theorem State.commitHeader_maxBatch (s : State) : (s.commitHeader).maxBatch = s.maxBatch := rfl
@[simp] theorem State.answer_maxBatch (s : State) (v : Word) : (s.answer v).maxBatch = s.maxBatch := rfl
@[simp] theorem State.laneStep_maxBatch (s : State) (i : Nat) : (s.laneStep i).maxBatch = s.maxBatch := rfl
@[simp] theorem State.resetBlock_maxBatch (s : State) : (s.resetBlock).maxBatch = s.maxBatch := rfl

end Sys2Proof.Machine
end

