-- ==== Sys2Proof/Laws/Port.lean ====
section
/-! SUPPORT. What a host access can do: the inversions of a read and of a write, and what each does at a location that the
checks of R66 and R67 let pass or refuse. -/

namespace Sys2Proof.Machine

/-- When a word decodes to an instruction: RSV is 0 and OPC selects it (R91). -/
theorem decode_eq_ok (w : Word) (i : Instr) :
    decode w = .ok i ↔ w.extractLsb' 8 24 = 0#24 ∧ commandOfOpc (w.extractLsb' 0 8).toNat = some i := by
  unfold decode fieldsOf
  by_cases h : w.extractLsb' 8 24 = 0#24
  · simp only [h, ne_eq, not_true_eq_false, if_false, true_and]
    cases commandOfOpc (w.extractLsb' 0 8).toNat <;> simp
  · simp [h]

/-- A host write to CMD executes the word, in every state (R67, R73). -/
theorem hostWrite_cmd (execute : Word → State → Host.Outcome State Fault Refusal) (s : State) (v : Word) :
    s.hostWrite execute 0x00000004#32 v = execute v s := by
  have h1 : misaligned 0x00000004#32 = false := by decide
  have h2 : locate s.maxBatch 4 = some (.reg .cmd) := locate_reg s.maxBatch .cmd
  simp [State.hostWrite, h1, h2, Loc.readOnly]

theorem perform_write_cmd (s : State) (v : Word) : perform (.write 0x00000004#32 v) s = executeWord v s :=
  hostWrite_cmd executeWord s v

/-- A write that passes every check of R67 sets its location. -/
theorem hostWrite_lands {execute : Word → State → Host.Outcome State Fault Refusal} {s : State} {a v : Word} {l : Loc}
    (ha : a.toNat % 4 = 0) (hl : locate s.maxBatch a.toNat = some l) (hro : l.readOnly = false)
    (hc : l ≠ .reg .cmd) (hk : s.writeLocked l = false) :
    s.hostWrite execute a v = .next (s.setLoc v l) := by
  have h1 : misaligned a = false := by
    rw [Bool.eq_false_iff, ne_eq, misaligned_iff]; simpa using ha
  simp [State.hostWrite, h1, hl, hro, hc, hk]

/-- A write that a check of R67 refuses. -/
theorem hostWrite_refused {execute : Word → State → Host.Outcome State Fault Refusal} {s : State} {a v : Word}
    (h : a.toNat % 4 ≠ 0 ∨ locate s.maxBatch a.toNat = none ∨
      ∃ l, locate s.maxBatch a.toNat = some l ∧ (l.readOnly = true ∨ (l ≠ .reg .cmd ∧ s.writeLocked l = true))) :
    s.hostWrite execute a v = .next (s.refuseAccess a) := by
  unfold State.hostWrite
  by_cases hm : a.toNat % 4 = 0
  · have h1 : misaligned a = false := by
      rw [Bool.eq_false_iff, ne_eq, misaligned_iff]; simpa using hm
    rcases h with h | h | ⟨l, hl, h⟩
    · exact absurd hm h
    · simp [h1, h]
    · rcases h with h | ⟨h, h'⟩
      · simp [h1, hl, h]
      · cases hr : l.readOnly <;> simp [h1, hl, hr, h, h']
  · simp [(misaligned_iff a).2 hm]

/-- All that a host write can do (R67). -/
theorem hostWrite_cases {execute : Word → State → Host.Outcome State Fault Refusal} {s t : State} {a v : Word}
    (h : s.hostWrite execute a v = .next t) :
    t = s.refuseAccess a ∨ (a = 0x00000004#32 ∧ execute v s = .next t) ∨
    ∃ l, locate s.maxBatch a.toNat = some l ∧ l.readOnly = false ∧ l ≠ .reg .cmd ∧ s.writeLocked l = false ∧
      t = s.setLoc v l := by
  unfold State.hostWrite at h
  split at h
  · injection h with h; exact .inl h.symm
  · split at h
    · injection h with h; exact .inl h.symm
    · rename_i l hl
      split at h
      · injection h with h; exact .inl h.symm
      · rename_i hro
        split at h
        · rename_i hc
          refine .inr (.inl ⟨?_, h⟩)
          subst hc
          rcases locate_cases hl with ⟨r, hr, ha⟩ | ⟨x, k, hr, _⟩ | ⟨i, k, hr, _⟩
          · injection hr with hr
            subst hr
            exact BitVec.eq_of_toNat_eq (by rw [ha]; rfl)
          · cases hr
          · cases hr
        · rename_i hc
          split at h
          · injection h with h; exact .inl h.symm
          · rename_i hk
            injection h with h
            exact .inr (.inr ⟨l, hl, by simpa using hro, hc, by simpa using hk, h.symm⟩)

/-- A read that passes every check of R66. -/
theorem hostRead_answers {s : State} {a : Word} {l : Loc} (ha : a.toNat % 4 = 0)
    (hl : locate s.maxBatch a.toNat = some l) (hb : ¬(s.state = .dispatched ∧ l.barred = true)) :
    s.hostRead a = (s.afterRead l).answer (s.valueAt l) := by
  have h1 : misaligned a = false := by
    rw [Bool.eq_false_iff, ne_eq, misaligned_iff]; simpa using ha
  simp [State.hostRead, h1, hl, hb]

/-- A read that a check of R66 refuses. -/
theorem hostRead_refused {s : State} {a : Word}
    (h : a.toNat % 4 ≠ 0 ∨ locate s.maxBatch a.toNat = none ∨
      ∃ l, locate s.maxBatch a.toNat = some l ∧ s.state = .dispatched ∧ l.barred = true) :
    s.hostRead a = s.refuseRead a := by
  unfold State.hostRead
  by_cases hm : a.toNat % 4 = 0
  · have h1 : misaligned a = false := by
      rw [Bool.eq_false_iff, ne_eq, misaligned_iff]; simpa using hm
    rcases h with h | h | ⟨l, hl, h, h'⟩
    · exact absurd hm h
    · simp [h1, h]
    · simp [h1, hl, h, h']
  · simp [(misaligned_iff a).2 hm]

/-- All that a host read can do (R66, R70). -/
theorem hostRead_cases (s : State) (a : Word) :
    s.hostRead a = s.refuseRead a ∨
    ∃ l, locate s.maxBatch a.toNat = some l ∧ s.hostRead a = (s.afterRead l).answer (s.valueAt l) := by
  unfold State.hostRead
  split
  · exact .inl rfl
  · split
    · exact .inl rfl
    · rename_i l hl
      split
      · exact .inl rfl
      · exact .inr ⟨l, hl, rfl⟩

/-- Drawing a free value changes the counter only (R75). -/
theorem drawIfUnwritten_eq (s : State) (as : List Nat) : ∃ d, s.drawIfUnwritten as = { s with draws := d } := by
  unfold State.drawIfUnwritten
  split
  · exact ⟨s.draws, rfl⟩
  · exact ⟨s.draws + 1, rfl⟩

/-- A read that is not refused changes the counter of free values only, before the answer (R70, R75). -/
theorem afterRead_eq (s : State) (l : Loc) : ∃ d, s.afterRead l = { s with draws := d } := by
  cases l with
  | reg r => exact ⟨s.draws, rfl⟩
  | word a k => exact ⟨s.draws, rfl⟩
  | result i k => exact drawIfUnwritten_eq s _

/-! ## Steps -/

theorem step_nil {s : State} (h : s.agenda = []) : step s = .next s.autonomous := by simp [step, h]

theorem step_cons {s : State} {e : Event} {rest : List Event} (h : s.agenda = e :: rest) :
    step s = perform e { s with agenda := rest } := by simp [step, h]

theorem step_agenda_cons (s : State) (e : Event) (rest : List Event) :
    step { s with agenda := e :: rest } = perform e { s with agenda := rest } := rfl

/-- A run takes its first step, then the rest. -/
theorem run_succ {n : Nat} {s t : State} (h : step s = .next t) :
    Host.Core.run Sys2Proof.core (n + 1) s = Host.Core.run Sys2Proof.core n t := by
  have h' : Sys2Proof.core.step s = .next t := h
  simp only [Host.Core.run]
  rw [h']

/-- A run of an agenda whose first event answers a next state goes on from there. -/
theorem run_cons {n : Nat} {s t : State} {e : Event} {rest : List Event}
    (h : perform e { s with agenda := rest } = .next t) :
    Host.Core.run Sys2Proof.core (n + 1) { s with agenda := e :: rest } = Host.Core.run Sys2Proof.core n t :=
  run_succ h

theorem run_zero (s : State) : Host.Core.run Sys2Proof.core 0 s = .next s := rfl

/-! ## Accesses by location (R66, R67) -/

/-- A host write to a register that no check refuses. -/
theorem perform_write_reg (r : Reg) {a v : Word} {s : State} (ha : a = BitVec.ofNat 32 r.offset)
    (hro : (Loc.reg r).readOnly = false) (hc : Loc.reg r ≠ .reg .cmd) (hk : s.writeLocked (.reg r) = false) :
    perform (.write a v) s = .next (s.setReg v r) := by
  have e : a.toNat = r.offset := by subst ha; cases r <;> rfl
  exact hostWrite_lands (by rw [e]; cases r <;> rfl) (by rw [e]; exact locate_reg _ r) hro hc hk

/-- A host write to a word of an array that no check refuses. -/
theorem perform_write_word (x : Arr) {k : Nat} {v : Word} {s : State} (hk : k < x.words) (hs : s.state ≠ .dispatched)
    (hro : (Loc.word x k).readOnly = false) :
    perform (.write (BitVec.ofNat 32 (x.base + 4 * k)) v) s = .next (s.setArr k v x) := by
  have e := toNat_wordAddr x hk
  have hb : x.base % 4 = 0 := by cases x <;> rfl
  refine hostWrite_lands (l := .word x k) (by rw [e]; omega) (by rw [e]; exact locate_word _ x k hk) hro (by simp) ?_
  simp [State.writeLocked, hs, Loc.batchLocked]

/-- A host read of a register that is not barred. -/
theorem perform_read_reg (r : Reg) {a : Word} {s : State} (ha : a = BitVec.ofNat 32 r.offset)
    (hb : ¬(s.state = .dispatched ∧ (Loc.reg r).barred = true)) :
    perform (.read a) s = .next { s with readData := some (s.regValue r) } := by
  have e : a.toNat = r.offset := by subst ha; cases r <;> rfl
  show Host.Outcome.next (s.hostRead a) = _
  rw [hostRead_answers (l := .reg r) (by rw [e]; cases r <;> rfl) (by rw [e]; exact locate_reg _ r) hb]
  rfl

/-- A host read of a word of an array that is not barred. -/
theorem perform_read_word (x : Arr) {k : Nat} {s : State} (hk : k < x.words)
    (hb : ¬(s.state = .dispatched ∧ (Loc.word x k).barred = true)) :
    perform (.read (BitVec.ofNat 32 (x.base + 4 * k))) s = .next { s with readData := some (s.arrWord k x) } := by
  have e := toNat_wordAddr x hk
  have hb4 : x.base % 4 = 0 := by cases x <;> rfl
  show Host.Outcome.next (s.hostRead _) = _
  rw [hostRead_answers (l := .word x k) (by rw [e]; omega) (by rw [e]; exact locate_word _ x k hk) hb]
  rfl

end Sys2Proof.Machine
end

