-- ==== Sys2Proof/Laws/Batch.lean ====
section
/-! SUPPORT. What the lanes and the completion step of a batch can do (`42_dispatch.md` R210 to R215): one lane turn, a whole
sequence of lane turns, the completion, and the block left to itself. -/

namespace Sys2Proof.Machine

/-! ## One lane -/

theorem laneTurn_enabled {s : State} {i : Nat} (h : s.state = .dispatched) (hi : i ∈ s.pending) :
    s.laneTurn i = s.laneStep i := by
  simp [State.laneTurn, State.laneEnabled, h, hi]

theorem laneTurn_disabled {s : State} {i : Nat} (h : s.state ≠ .dispatched ∨ i ∉ s.pending) : s.laneTurn i = s := by
  rcases h with h | h <;> simp [State.laneTurn, State.laneEnabled, h]

/-- All that a lane's turn can do (R210). -/
theorem laneTurn_cases (s : State) (i : Nat) :
    s.laneTurn i = s ∨ (s.state = .dispatched ∧ i ∈ s.pending ∧ s.laneTurn i = s.laneStep i) := by
  by_cases h : s.state = .dispatched ∧ i ∈ s.pending
  · exact .inr ⟨h.1, h.2, laneTurn_enabled h.1 h.2⟩
  · exact .inl (laneTurn_disabled (by tauto))

/-- A lane step fills its own slot (R210). -/
theorem slotHolds_laneStep (s : State) (i : Nat) : (s.laneStep i).slotHolds i (s.laneDigest i) := by
  intro j hj
  rw [State.laneStep_result, Memory.read?_writeBytes, if_pos (by omega)]
  simp [hj]

/-- A lane step leaves every byte outside its own slot (R212). -/
theorem read?_laneStep_other {s : State} {i a : Nat} (h : a < slotBase i ∨ slotBase i + 32 ≤ a) :
    (s.laneStep i).result.read? a = s.result.read? a := by
  rw [State.laneStep_result, Memory.read?_writeBytes]
  split
  · rw [List.getElem?_eq_none (by simp; omega)]; rfl
  · rfl

/-- A lane step leaves every other slot (R212). -/
theorem slotHolds_laneStep_other {s : State} {i j : Nat} {D : Bytes 32} (h : j ≠ i) (hD : s.slotHolds j D) :
    (s.laneStep i).slotHolds j D := by
  intro k hk
  rw [read?_laneStep_other (by unfold slotBase; omega)]
  exact hD k hk

/-- The digest of a lane does not depend on what another lane has done (R212). -/
theorem laneDigest_laneTurn (s : State) (i j : Nat) : (s.laneTurn i).laneDigest j = s.laneDigest j := by
  rcases laneTurn_cases s i with h | ⟨_, _, h⟩
  · rw [h]
  · rw [h]; rfl

theorem laneTurn_agenda (s : State) (i : Nat) (r : List Event) :
    ({ s with agenda := r } : State).laneTurn i = { s.laneTurn i with agenda := r } := by
  unfold State.laneTurn
  have : ({ s with agenda := r } : State).laneEnabled i = s.laneEnabled i := rfl
  rw [this]
  split <;> rfl

/-! ## A sequence of lane turns -/

/-- The lanes `order` take their turns one after the other. -/
def State.lanes (s : State) (order : List Nat) : State := order.foldl State.laneTurn s

@[simp] theorem lanes_nil (s : State) : s.lanes [] = s := rfl
@[simp] theorem lanes_cons (s : State) (i : Nat) (order : List Nat) :
    s.lanes (i :: order) = (s.laneTurn i).lanes order := rfl

/-- Lane turns change RESULT, HIT and PENDING only (R210). -/
theorem lanes_frame (s : State) (order : List Nat) :
    s.lanes order =
      { s with
        result := (s.lanes order).result, hit := (s.lanes order).hit, pending := (s.lanes order).pending } := by
  induction order generalizing s with
  | nil => rfl
  | cons i order ih =>
    rw [lanes_cons]
    rcases laneTurn_cases s i with h | ⟨_, _, h⟩
    · rw [h]; exact ih s
    · rw [h]; exact ih (s.laneStep i)

/-- A run of lane events is a sequence of lane turns (R211). -/
theorem run_lanes (n : Nat) (s : State) (order : List Nat) (rest : List Event) :
    Host.Core.run Sys2Proof.core (order.length + n) { s with agenda := order.map .lane ++ rest } =
      Host.Core.run Sys2Proof.core n { s.lanes order with agenda := rest } := by
  induction order generalizing s with
  | nil => simp
  | cons i order ih =>
    rw [List.length_cons, Nat.add_right_comm, List.map_cons, List.cons_append,
      run_cons (t := { s.laneTurn i with agenda := order.map .lane ++ rest }) (by rw [perform, laneTurn_agenda]),
      ih (s.laneTurn i), lanes_cons]

/-- Each lane that was pending and has had its turn is pending no more (R210). -/
theorem pending_lanes {s : State} (h : s.state = .dispatched) (order : List Nat) :
    (s.lanes order).pending = s.pending.filter (· ∉ order) := by
  induction order generalizing s with
  | nil => exact (List.filter_eq_self.2 (by simp)).symm
  | cons i order ih =>
    rw [lanes_cons]
    by_cases hi : i ∈ s.pending
    · rw [laneTurn_enabled h hi, ih (s := s.laneStep i) h, State.laneStep_pending, IndexSet.remove, List.filter_filter]
      refine List.filter_congr fun j _ => ?_
      simp [List.mem_cons, not_or, Bool.and_comm]
    · rw [laneTurn_disabled (.inr hi), ih h]
      refine List.filter_congr fun j hj => ?_
      have : j ≠ i := fun e => hi (e ▸ hj)
      simp [List.mem_cons, this]

/-- HIT after a sequence of lane turns: the verdict of each lane that stepped, every other bit as before (R210). -/
theorem mem_hit_lanes {s : State} (h : s.state = .dispatched) (order : List Nat) (j : Nat) :
    j ∈ (s.lanes order).hit ↔
      (j ∈ order ∧ j ∈ s.pending ∧ accept (s.laneDigest j) s.target = true) ∨
        (¬(j ∈ order ∧ j ∈ s.pending) ∧ j ∈ s.hit) := by
  induction order generalizing s with
  | nil => simp
  | cons i order ih =>
    rw [lanes_cons]
    by_cases hi : i ∈ s.pending
    · have hd : (s.laneStep i).laneDigest j = s.laneDigest j := rfl
      rw [laneTurn_enabled h hi, ih (s := s.laneStep i) h, State.laneStep_pending, State.laneStep_hit, IndexSet.mem_put,
        hd, State.laneStep_target, IndexSet.mem_remove, List.mem_cons]
      by_cases hj : j = i
      · subst hj; simp [hi]
      · simp [hj]
    · rw [laneTurn_disabled (.inr hi), ih h, List.mem_cons]
      by_cases hj : j = i
      · subst hj; simp [hi]
      · simp [hj]

/-- A slot after a sequence of lane turns holds the digest of its lane, if that lane stepped (R210). -/
theorem slotHolds_lanes {s : State} (h : s.state = .dispatched) {order : List Nat} {i : Nat} (ho : i ∈ order)
    (hp : i ∈ s.pending) : (s.lanes order).slotHolds i (s.laneDigest i) := by
  have keep : ∀ (order : List Nat) (t : State), t.state = .dispatched → i ∉ t.pending →
      t.slotHolds i (s.laneDigest i) → (t.lanes order).slotHolds i (s.laneDigest i) := by
    intro order
    induction order with
    | nil => exact fun t _ _ hs => hs
    | cons j order ih =>
      intro t ht hn hs
      rw [lanes_cons]
      rcases laneTurn_cases t j with e | ⟨_, hj, e⟩
      · rw [e]; exact ih t ht hn hs
      · rw [e]
        refine ih _ ht ?_ (slotHolds_laneStep_other (fun e => hn (e ▸ hj)) hs)
        rw [State.laneStep_pending, IndexSet.mem_remove]; tauto
  induction order generalizing s with
  | nil => simp at ho
  | cons j order ih =>
    rw [lanes_cons]
    by_cases hj : j = i
    · subst hj
      rw [laneTurn_enabled h hp]
      exact keep order _ h (by simp [IndexSet.mem_remove]) (slotHolds_laneStep s j)
    · have ho' : i ∈ order := by simpa [Ne.symm hj] using ho
      have hs : (s.laneTurn j).state = .dispatched := by
        rcases laneTurn_cases s j with e | ⟨_, _, e⟩ <;> (rw [e]; exact h)
      have hp' : i ∈ (s.laneTurn j).pending := by
        rcases laneTurn_cases s j with e | ⟨_, _, e⟩ <;> rw [e]
        · exact hp
        · rw [State.laneStep_pending, IndexSet.mem_remove]; exact ⟨hp, Ne.symm hj⟩
      have := ih hs ho' hp' (by rw [laneDigest_laneTurn]; exact keep)
      rwa [laneDigest_laneTurn] at this

/-- A byte outside the slots of the lanes that stepped reads as before (R212). -/
theorem read?_lanes_other {s : State} {a : Nat} (order : List Nat)
    (h : ∀ i ∈ order, i ∈ s.pending → a < slotBase i ∨ slotBase i + 32 ≤ a) :
    (s.lanes order).result.read? a = s.result.read? a := by
  induction order generalizing s with
  | nil => rfl
  | cons i order ih =>
    rw [lanes_cons]
    rcases laneTurn_cases s i with e | ⟨_, hi, e⟩
    · rw [e]; exact ih fun j hj hp => h j (List.mem_cons_of_mem _ hj) hp
    · rw [e, ih, read?_laneStep_other (h i List.mem_cons_self hi)]
      intro j hj hp
      rw [State.laneStep_pending, IndexSet.mem_remove] at hp
      exact h j (List.mem_cons_of_mem _ hj) hp.1

theorem wf_result_lanes {s : State} (order : List Nat) (h : s.result.wf) : (s.lanes order).result.wf := by
  induction order generalizing s with
  | nil => exact h
  | cons i order ih =>
    rw [lanes_cons]
    rcases laneTurn_cases s i with e | ⟨_, _, e⟩ <;> rw [e]
    · exact ih h
    · exact ih (Memory.wf_writeBytes _ _ h)

theorem wf_hit_lanes {s : State} (order : List Nat) (h : s.hit.wf) : (s.lanes order).hit.wf := by
  induction order generalizing s with
  | nil => exact h
  | cons i order ih =>
    rw [lanes_cons]
    rcases laneTurn_cases s i with e | ⟨_, _, e⟩ <;> rw [e]
    · exact ih h
    · exact ih (IndexSet.wf_put _ _ h)

/-! ## The completion step -/

/-- A slot that holds a digest is read as that digest (R213). -/
theorem resultSlot_eq {s : State} {i : Nat} {D : Bytes 32} (h : s.slotHolds i D) : s.resultSlot i = D := by
  refine Bytes.ext fun j hj => ?_
  have hb : s.resultByte (slotBase i + j) = D[j] := by simp [State.resultByte, h j hj]
  rw [State.resultSlot, Bytes.getElem_ofList, byteAt, List.getD_eq_getElem?_getD]
  simp [slotAddrs, hj, hb]

/-- Reading a slot that holds a digest draws no free value. -/
theorem drawIfUnwritten_slot {s : State} {i : Nat} {D : Bytes 32} (h : s.slotHolds i D) :
    s.drawIfUnwritten (slotAddrs i) = s := by
  unfold State.drawIfUnwritten
  rw [if_pos]
  simp only [slotAddrs, List.all_map, List.all_eq_true, List.mem_range, Function.comp_apply]
  intro j hj
  rw [h j hj]; rfl

/-- The completion step where lane `m` is the lowest accepted one (R213, R214). -/
theorem completeBatch_found {s : State} {m : Nat} {D : Bytes 32} (hw : s.winner = some m) (hD : s.slotHolds m D) :
    s.completeBatch =
      { s with found := true, nsr := false, solNonce := s.laneNonce m, solDigest := D, state := .resultsReady } := by
  unfold State.completeBatch
  simp only [hw, drawIfUnwritten_slot hD, resultSlot_eq hD]

/-- The completion step leaves the batch with its results ready (R213). -/
@[simp] theorem completeBatch_state (s : State) : s.completeBatch.state = .resultsReady := by
  unfold State.completeBatch
  split <;> rfl

/-- The completion step where no lane is accepted (R215). -/
theorem completeBatch_none {s : State} (hw : s.winner = none) :
    s.completeBatch = { s with found := false, nsr := true, state := .resultsReady } := by
  unfold State.completeBatch
  simp only [hw]

/-- All that the completion step can do (R213). -/
theorem completeBatch_cases (s : State) :
    (∃ m d, s.winner = some m ∧
      s.completeBatch =
        { s with
          found := true, nsr := false, solNonce := s.laneNonce m, solDigest := s.resultSlot m, state := .resultsReady,
          draws := d }) ∨
    (s.winner = none ∧ s.completeBatch = { s with found := false, nsr := true, state := .resultsReady }) := by
  cases hw : s.winner with
  | none => exact .inr ⟨rfl, completeBatch_none hw⟩
  | some m =>
    obtain ⟨d, hd⟩ := drawIfUnwritten_eq s (slotAddrs m)
    exact .inl ⟨m, d, rfl, by unfold State.completeBatch; simp only [hw, hd]⟩

theorem completionTurn_enabled {s : State} (h : s.state = .dispatched) (hp : s.pending = []) :
    s.completionTurn = s.completeBatch := by
  simp [State.completionTurn, State.completionEnabled, h, hp]

/-- All that the controller's turn can do (R213). -/
theorem completionTurn_cases (s : State) :
    s.completionTurn = s ∨ (s.state = .dispatched ∧ s.pending = [] ∧ s.completionTurn = s.completeBatch) := by
  by_cases h : s.state = .dispatched ∧ s.pending = []
  · exact .inr ⟨h.1, h.2, completionTurn_enabled h.1 h.2⟩
  · exact .inl (by simp [State.completionTurn, State.completionEnabled]; tauto)

/-! ## The block left to itself -/

/-- No lane is free to step exactly where none is pending (R211). -/
theorem freeLane_eq_none {s : State} : s.freeLane = none ↔ s.pending = [] := by
  rw [State.freeLane, List.getElem?_eq_none_iff]
  constructor
  · intro h
    by_contra c
    have := Nat.mod_lt (Config.laneChoice s.draws) (List.length_pos_iff.2 c)
    omega
  · rintro h
    simp [h]

/-- The lane that is free to step is pending (R211). -/
theorem mem_of_freeLane {s : State} {i : Nat} (h : s.freeLane = some i) : i ∈ s.pending := List.mem_of_getElem? h

theorem autonomous_lane {s : State} {i : Nat} (h : s.state = .dispatched) (hi : s.freeLane = some i) :
    s.autonomous = { s.laneStep i with draws := s.draws + 1 } := by simp only [State.autonomous, if_pos h, hi]

theorem autonomous_complete {s : State} (h : s.state = .dispatched) (hp : s.pending = []) :
    s.autonomous = s.completeBatch := by simp only [State.autonomous, if_pos h, freeLane_eq_none.2 hp]

/-- All that the block does with no event to come (log entry 3). -/
theorem autonomous_cases (s : State) :
    (s.state ≠ .dispatched ∧ s.autonomous = s) ∨
    (s.state = .dispatched ∧ s.pending = [] ∧ s.autonomous = s.completeBatch) ∨
    (s.state = .dispatched ∧
      ∃ i ∈ s.pending, s.freeLane = some i ∧ s.autonomous = { s.laneStep i with draws := s.draws + 1 }) := by
  by_cases h : s.state = .dispatched
  · cases hf : s.freeLane with
    | none => exact .inr (.inl ⟨h, freeLane_eq_none.1 hf, autonomous_complete h (freeLane_eq_none.1 hf)⟩)
    | some i => exact .inr (.inr ⟨h, i, mem_of_freeLane hf, rfl, autonomous_lane h hf⟩)
  · exact .inl ⟨h, if_neg h⟩

/-! ## Events -/

/-- All that one event can do, a write to CMD being inverted by `exec_cases` (R20). -/
theorem perform_cases {e : Event} {s t : State} (h : perform e s = .next t) :
    (∃ a, e = .read a ∧ t = s.hostRead a) ∨
    (∃ a v, e = .write a v ∧ t = s.refuseAccess a) ∨
    (∃ v, e = .write 0x00000004#32 v ∧ executeWord v s = .next t) ∨
    (∃ a v l, e = .write a v ∧ locate s.maxBatch a.toNat = some l ∧ l.readOnly = false ∧ l ≠ .reg .cmd ∧
      s.writeLocked l = false ∧ t = s.setLoc v l) ∨
    (∃ i, e = .lane i ∧ t = s.laneTurn i) ∨ (e = .complete ∧ t = s.completionTurn) ∨
    (e = .rstN ∧ t = s.resetBlock) ∨ (∃ b, e = .lanesReady b ∧ t = { s with lanesReady := b }) ∨
    (∃ a n, e = .readWidth a n ∧ t = s.refuseRead a) ∨ ∃ a n, e = .writeWidth a n ∧ t = s.refuseAccess a := by
  cases e with
  | read a => injection h with h; exact .inl ⟨a, rfl, h.symm⟩
  | write a v =>
    rcases hostWrite_cases (execute := executeWord) h with h | ⟨rfl, h⟩ | ⟨l, h1, h2, h3, h4, h⟩
    · exact .inr (.inl ⟨a, v, rfl, h⟩)
    · exact .inr (.inr (.inl ⟨v, rfl, h⟩))
    · exact .inr (.inr (.inr (.inl ⟨a, v, l, rfl, h1, h2, h3, h4, h⟩)))
  | lane i => injection h with h; exact .inr (.inr (.inr (.inr (.inl ⟨i, rfl, h.symm⟩))))
  | complete => injection h with h; exact .inr (.inr (.inr (.inr (.inr (.inl ⟨rfl, h.symm⟩)))))
  | rstN => injection h with h; exact .inr (.inr (.inr (.inr (.inr (.inr (.inl ⟨rfl, h.symm⟩))))))
  | lanesReady b => injection h with h; exact .inr (.inr (.inr (.inr (.inr (.inr (.inr (.inl ⟨b, rfl, h.symm⟩)))))))
  | readWidth a n =>
    injection h with h
    exact .inr (.inr (.inr (.inr (.inr (.inr (.inr (.inr (.inl ⟨a, n, rfl, h.symm⟩))))))))
  | writeWidth a n =>
    injection h with h
    exact .inr (.inr (.inr (.inr (.inr (.inr (.inr (.inr (.inr ⟨a, n, rfl, h.symm⟩))))))))

/-- All that executing a command word can do, `exec` being inverted by `exec_cases` (R94). -/
theorem executeWord_cases {v : Word} {s t : State} (h : executeWord v s = .next t) :
    ((∃ r, decode v = .error r) ∧ t = s.raise .reservedOpcode v) ∨ ∃ i, decode v = .ok i ∧ exec i s = .next t := by
  unfold executeWord at h
  split at h
  · rename_i r hr; injection h with h; exact .inl ⟨⟨r, hr⟩, h.symm⟩
  · rename_i i hi; exact .inr ⟨i, hi, h⟩

/-! ## A whole batch -/

/-- The controller reports the lane that is the smallest accepted one (R214). -/
theorem winner_eq_some {s : State} {m : Nat} (h : m < s.batchSize.toNat) (hm : m ∈ s.hit) (hmin : ∀ i < m, i ∉ s.hit) :
    s.winner = some m :=
  IndexSet.leastBelow_eq_some.2 ⟨hm, h, fun i hi _ => by by_contra c; exact hmin i (by omega) hi⟩

/-- No accepted lane, no winner (R215). -/
theorem winner_eq_none {s : State} (h : ∀ i < s.batchSize.toNat, i ∉ s.hit) : s.winner = none :=
  IndexSet.leastBelow_eq_none.2 fun i hi => by by_contra c; exact h i (by omega) hi

/-- The completion step does not look at the events to come. -/
theorem completionTurn_agenda (s : State) (r : List Event) :
    ({ s with agenda := r } : State).completionTurn = { s.completionTurn with agenda := r } := by
  unfold State.completionTurn
  rw [show ({ s with agenda := r } : State).completionEnabled = s.completionEnabled from rfl]
  split
  · rcases completeBatch_cases s with ⟨m, d, hw, h⟩ | ⟨hw, h⟩
    · unfold State.completeBatch
      rw [show ({ s with agenda := r } : State).winner = s.winner from rfl, hw]
      simp only [State.drawIfUnwritten]
      rw [show ∀ as : List Nat, (as.all fun a => (({ s with agenda := r } : State).result.read? a).isSome) =
        (as.all fun a => (s.result.read? a).isSome) from fun _ => rfl]
      split <;> rfl
    · rw [completeBatch_none hw, completeBatch_none (s := { s with agenda := r }) hw]
  · rfl

/-- A run through a batch's lane steps and its completion (R210, R213). -/
theorem run_batchEvents (n : Nat) (s : State) (order : List Nat) (rest : List Event) :
    Host.Core.run Sys2Proof.core ((batchEvents order).length + n) { s with agenda := batchEvents order ++ rest } =
      Host.Core.run Sys2Proof.core n { (s.lanes order).completionTurn with agenda := rest } := by
  have := run_lanes (n + 1) s order (.complete :: rest)
  rw [show (batchEvents order).length + n = order.length + (n + 1) by simp [batchEvents]; omega,
    show batchEvents order ++ rest = order.map .lane ++ (.complete :: rest) by simp [batchEvents], this]
  rw [run_cons (t := { (s.lanes order).completionTurn with agenda := rest }) (by rw [perform, completionTurn_agenda])]

end Sys2Proof.Machine
end

