-- ==== Sys2Proof/Laws/Codec.lean ====
section
/-! SUPPORT. The codec functions byte by byte (`40_codec.md` R137, R143), and the two pieces of a hash that do not depend on
each other (`41_sha256.md` R168, R169). -/

namespace Sys2Proof.Machine

/-- with_nonce keeps the first 76 bytes (R137). -/
theorem getElem_withNonce_header (h : Bytes 80) (n : Word) (i : Nat) (hi : i < 76) : (withNonce h n)[i] = h[i] := by
  simp only [withNonce, Bytes.getElem_ofList, byteAt_append]
  rw [if_pos (by simp; omega)]
  simp [byteAt, List.getD_eq_getElem?_getD, hi]

/-- with_nonce puts LE32 of the nonce in the last four bytes (R137). -/
theorem getElem_withNonce_nonce (h : Bytes 80) (n : Word) (i : Nat) (hi : i < 4) :
    (withNonce h n)[76 + i] = n.extractLsb' (8 * i) 8 := by
  simp only [withNonce, Bytes.getElem_ofList, byteAt_append]
  rw [if_neg (by simp), ← byteAt_le32 _ _ hi]
  congr 1; simp

/-- with_nonce depends on the first 76 bytes of the header only (R137). -/
theorem withNonce_congr {h h' : Bytes 80} (n : Word) (e : ∀ j (_ : j < 76), h[j] = h'[j]) :
    withNonce h n = withNonce h' n := by
  refine Bytes.ext fun i hi => ?_
  by_cases c : i < 76
  · rw [getElem_withNonce_header _ _ _ c, getElem_withNonce_header _ _ _ c, e _ c]
  · have h1 := getElem_withNonce_nonce h n (i - 76) (by omega)
    have h2 := getElem_withNonce_nonce h' n (i - 76) (by omega)
    simp only [show 76 + (i - 76) = i by omega] at h1 h2
    rw [h1, h2]

theorem getElem_slice {m : Nat} (X : Bytes m) (a n i : Nat) (h : i < n) (h' : a + i < m) : (slice X a n)[i] = X[a + i] := by
  simp [slice, byteAt, List.getD_eq_getElem?_getD, h']

/-- The first block of a padded message of 64 bytes or more is the message's own (R165, R168). -/
theorem blockOf_pad_zero (M : List Byte) (h : 64 ≤ M.length) : blockOf (pad M) 0 = M.take 64 := by
  simp only [blockOf, pad, Nat.mul_zero, List.drop_zero, List.append_assoc]
  exact List.take_append_of_le_length h

theorem extendSchedule_length (n : Nat) (W : List Word) : (extendSchedule n W).length = W.length + n := by
  induction n generalizing W with
  | zero => rfl
  | succ n ih => rw [extendSchedule, ih]; simp; omega

/-- Extending a schedule leaves the words it had (R169). -/
theorem extendSchedule_getD_of_lt (n : Nat) (W : List Word) (t : Nat) (h : t < W.length) :
    (extendSchedule n W).getD t 0#32 = W.getD t 0#32 := by
  induction n generalizing W with
  | zero => rfl
  | succ n ih => rw [extendSchedule, ih _ (by simp; omega), List.getD_append _ _ _ _ h]

/-- The exponent as a quotient (R101). -/
theorem exponentOf_eq (b : Word) : exponentOf b = b.toNat / 2 ^ 24 := by
  have := b.isLt
  simp [exponentOf, Nat.shiftRight_eq_div_pow]
  omega

/-- The mantissa as a remainder (R101). -/
theorem mantissaOf_eq (b : Word) : mantissaOf b = b.toNat % 2 ^ 24 := by simp [mantissaOf]

end Sys2Proof.Machine
end

