-- ==== Sys2Proof/Laws/HostCodec.lean ====
section
/-! SUPPORT. The host's text and its writes of a byte array: hexadecimal text and its display (`40_codec.md` R146, R150), all
that reading a template's members can do (R147 to R151), and the words of an array written one by one (`30_encoding.md`
R111). -/

namespace Sys2Proof.Machine

theorem hexVal_hexDigit : ∀ n < 16, hexVal (hexDigit n) = some n := by decide

/-- The hexadecimal text of a list of bytes reads back (R146, R150). -/
theorem pairBytes_byteHex (X : List Byte) : pairBytes (X.flatMap byteHex) = some X := by
  induction X with
  | nil => rfl
  | cons b X ih =>
    rw [List.flatMap_cons]
    show pairBytes (hexDigit (b.toNat / 16) :: hexDigit (b.toNat % 16) :: X.flatMap byteHex) = _
    have := b.isLt
    rw [pairBytes, hexVal_hexDigit _ (by omega), hexVal_hexDigit _ (by omega), ih]
    simp only [Option.some.injEq, List.cons.injEq, and_true]
    apply BitVec.eq_of_toNat_eq
    rw [BitVec.toNat_ofNat, Nat.div_add_mod, Nat.mod_eq_of_lt this]

theorem length_byteHex (X : List Byte) : (X.flatMap byteHex).length = 2 * X.length := by
  induction X with
  | nil => rfl
  | cons b X ih => rw [List.flatMap_cons, List.length_append, ih, List.length_cons]; simp [byteHex]; omega

theorem hexDigit_lt {c : Char} {d : Nat} (h : HexDigit c d) : d < 16 := by
  rcases h with h | h <;> exact (List.getElem?_eq_some_iff.1 h).1

/-- The value of a digit is what the two digit strings say (R146). -/
theorem hexVal_eq_some {c : Char} {d : Nat} : hexVal c = some d ↔ HexDigit c d := by
  constructor
  · intro h
    have hc : c = Char.ofNat c.toNat := (Char.ofNat_toNat c).symm
    unfold hexVal at h
    generalize c.toNat = n at h hc
    subst hc
    unfold HexDigit
    simp only [] at h
    split at h
    · rename_i hn
      obtain ⟨h1, h2⟩ := hn
      cases h
      interval_cases n <;> decide
    · split at h
      · rename_i hn
        obtain ⟨h1, h2⟩ := hn
        cases h
        interval_cases n <;> decide
      · split at h
        · rename_i hn
          obtain ⟨h1, h2⟩ := hn
          cases h
          interval_cases n <;> decide
        · cases h
  · have key : ∀ d < 16, ("0123456789abcdef".toList[d]?.bind hexVal) = some d ∧
        ("0123456789ABCDEF".toList[d]?.bind hexVal) = some d := by decide
    intro h
    have hd := hexDigit_lt h
    rcases h with h | h
    · have k := (key d hd).1
      rwa [h, Option.bind_some] at k
    · have k := (key d hd).2
      rwa [h, Option.bind_some] at k

/-- An even number of hexadecimal characters denotes bytes, and those are read (R146). -/
theorem pairBytes_of_hex : ∀ (n : Nat) (s : List Char), s.length = 2 * n → (∀ c ∈ s, ∃ d, HexDigit c d) →
    ∃ X, pairBytes s = some X ∧ X.length = n ∧ HexDenotes s X := by
  intro n
  induction n with
  | zero =>
    intro s hs _
    rw [List.eq_nil_of_length_eq_zero hs]
    exact ⟨[], rfl, rfl, rfl, fun i hi => absurd hi (Nat.not_lt_zero i)⟩
  | succ n ih =>
    intro s hs hd
    match s, hs with
    | a :: b :: s, hs =>
      obtain ⟨x, hx⟩ := hd a (by simp)
      obtain ⟨y, hy⟩ := hd b (by simp)
      obtain ⟨X, e, hl, hX⟩ := ih s (by simpa [Nat.mul_succ] using hs) fun c hc => hd c (by simp [hc])
      refine ⟨BitVec.ofNat 8 (16 * x + y) :: X, ?_, by simp [hl], by simp [hX.1, Nat.mul_succ], fun i hi => ?_⟩
      · rw [pairBytes, hexVal_eq_some.2 hx, hexVal_eq_some.2 hy, e]
      · cases i with
        | zero =>
          refine ⟨a, b, x, y, rfl, rfl, hx, hy, ?_⟩
          have := hexDigit_lt hx
          have := hexDigit_lt hy
          simp only [List.getElem_cons_zero, BitVec.toNat_ofNat]
          omega
        | succ i => simpa [Nat.mul_succ] using hX.2 i (by simpa using hi)

/-- A string with a non-hexadecimal character denotes nothing (R146). -/
theorem pairBytes_isSome : ∀ (s : List Char) {X : List Byte}, pairBytes s = some X → ∀ c ∈ s, ∃ d, HexDigit c d
  | [], _, _, c, hc => by simp at hc
  | [_], _, h, _, _ => by simp [pairBytes] at h
  | a :: b :: s, X, h, c, hc => by
    rw [pairBytes] at h
    split at h
    · rename_i x y Y hx hy hY
      rcases List.mem_cons.1 hc with rfl | hc
      · exact ⟨x, hexVal_eq_some.1 hx⟩
      rcases List.mem_cons.1 hc with rfl | hc
      · exact ⟨y, hexVal_eq_some.1 hy⟩
      · exact pairBytes_isSome s hY c hc
    · cases h

/-- All that reading a hexadecimal string of `n` bytes can do (R146). -/
theorem hexBytes_cases (s : List Char) (n : Nat) :
    (HexString s (2 * n) ∧ ∃ X, hexBytes s n = .ok X ∧ X.length = n ∧ HexDenotes s X) ∨
    (¬HexString s (2 * n) ∧ hexBytes s n = .error .malformedInput) := by
  unfold hexBytes
  by_cases hl : s.length = 2 * n
  · by_cases hd : ∀ c ∈ s, ∃ d, HexDigit c d
    · obtain ⟨X, e, h⟩ := pairBytes_of_hex n s hl hd
      exact .inl ⟨⟨hl, hd⟩, X, by rw [if_pos hl, e], h⟩
    · refine .inr ⟨fun h => hd h.2, ?_⟩
      rw [if_pos hl]
      cases e : pairBytes s with
      | none => rfl
      | some X => exact absurd (pairBytes_isSome s e) hd
  · exact .inr ⟨fun h => hl h.1, if_neg hl⟩

/-- The member a template has is the one that is found (R151). -/
theorem member_eq_ok {T : Template} {n : MemberName} {x : JsonValue} (h : T.Has n x) : T.member n = .ok x := by
  unfold Template.member
  cases e : T.find? fun m => m.1 == n with
  | none => exact absurd (List.find?_eq_none.1 e _ h.1) (by simp)
  | some m =>
    have := h.2 m (List.mem_of_find?_eq_some e) (by simpa using List.find?_some e)
    simp [this]

/-- What is found is a member of that name, or the member is missing (R151). -/
theorem member_cases (T : Template) (n : MemberName) :
    (∃ m ∈ T, m.1 = n ∧ T.member n = .ok m.2) ∨ T.member n = .error .malformedInput := by
  unfold Template.member
  cases e : T.find? fun m => m.1 == n with
  | none => exact .inr rfl
  | some m => exact .inl ⟨m, List.mem_of_find?_eq_some e, by simpa using List.find?_some e, rfl⟩

/-! ## The fields of a template (R147 to R149) -/

/-- All that reading an integer field can do (R148). -/
theorem intField_cases (x : JsonValue) :
    (∃ v : Nat, v ≤ 2 ^ 32 - 1 ∧ x = .int v ∧ intField x = .ok (BitVec.ofNat 32 v)) ∨
    ((∀ v : Nat, v ≤ 2 ^ 32 - 1 → x ≠ .int v) ∧ intField x = .error .malformedInput) := by
  cases x with
  | int v =>
    unfold intField
    simp only []
    split
    · rename_i h
      exact .inl ⟨v.toNat, by omega, by rw [Int.toNat_of_nonneg h.1], rfl⟩
    · rename_i h
      exact .inr ⟨fun w hw e => h (by injection e with e; omega), rfl⟩
  | str | other => exact .inr ⟨fun _ _ => nofun, rfl⟩

/-- All that reading a hash field can do (R147). -/
theorem hashField_cases (x : JsonValue) :
    (∃ (s : List Char) (P : Bytes 32), x = .str s ∧ HexString s 64 ∧ HexDenotes s P.toList ∧ hashField x = .ok P) ∨
    ((∀ s, HexString s 64 → x ≠ .str s) ∧ hashField x = .error .malformedInput) := by
  cases x with
  | str s =>
    rcases hexBytes_cases s 32 with ⟨hs, X, e, hl, hX⟩ | ⟨hs, e⟩
    · refine .inl ⟨s, Bytes.ofList 32 X, rfl, hs, ?_, by simp [hashField, e, Except.map]⟩
      rwa [Bytes.toList_ofList hl]
    · refine .inr ⟨fun t ht h => hs (by injection h with h; rwa [h]), by simp [hashField, e, Except.map]⟩
  | int | other => exact .inr ⟨fun _ _ => nofun, rfl⟩

/-- All that reading the field `bits` can do (R149). -/
theorem bitsField_cases (x : JsonValue) :
    (∃ (s : List Char) (B : Word), x = .str s ∧ HexString s 8 ∧
      HexDenotes s [B.extractLsb' 24 8, B.extractLsb' 16 8, B.extractLsb' 8 8, B.extractLsb' 0 8] ∧
      bitsField x = .ok B) ∨
    ((∀ s, HexString s 8 → x ≠ .str s) ∧ bitsField x = .error .malformedInput) := by
  cases x with
  | str s =>
    rcases hexBytes_cases s 4 with ⟨hs, X, e, hl, hX⟩ | ⟨hs, e⟩
    · refine .inl ⟨s, BitVec.ofNat 32 (beVal X), rfl, hs, ?_, by simp [bitsField, e, Except.map]⟩
      match X, hl with
      | [a, b, c, d], _ =>
        suffices h : [(BitVec.ofNat 32 (beVal [a, b, c, d])).extractLsb' 24 8,
            (BitVec.ofNat 32 (beVal [a, b, c, d])).extractLsb' 16 8,
            (BitVec.ofNat 32 (beVal [a, b, c, d])).extractLsb' 8 8,
            (BitVec.ofNat 32 (beVal [a, b, c, d])).extractLsb' 0 8] = [a, b, c, d] by rwa [h]
        have := a.isLt
        have := b.isLt
        have := c.isLt
        have := d.isLt
        simp only [List.cons.injEq, and_true]
        refine ⟨?_, ?_, ?_, ?_⟩ <;>
        · apply BitVec.eq_of_toNat_eq
          simp only [beVal, List.foldl_cons, List.foldl_nil, BitVec.extractLsb'_toNat, BitVec.toNat_ofNat,
            Nat.shiftRight_eq_div_pow]
          omega
    · refine .inr ⟨fun t ht h => hs (by injection h with h; rwa [h]), by simp [bitsField, e, Except.map]⟩
  | int | other => exact .inr ⟨fun _ _ => nofun, rfl⟩

/-! ## An array written word by word (R62, R111) -/

/-- Writing some words of an array one after the other (R62). -/
theorem getElem_setPortWords (X P : Bytes 32) (ks : List Nat) (hk : ∀ k ∈ ks, k < 8) (j : Nat) (hj : j < 32) :
    (ks.foldl (fun P k => setPortWord P k (leWord X.toList k)) P)[j] = if j / 4 ∈ ks then X[j] else P[j] := by
  induction ks generalizing P with
  | nil => simp
  | cons k ks ih =>
    rw [List.foldl_cons, ih _ fun k hk' => hk k (List.mem_cons_of_mem _ hk'), getElem_setPortWord]
    by_cases c : j / 4 ∈ ks
    · simp [c]
    · by_cases c2 : 4 * k ≤ j ∧ j < 4 * k + 4
      · have : j / 4 = k := by omega
        rw [if_neg c, if_pos c2, if_pos (by simp [this]), extract_leWord _ _ _ (by omega), byteAt_toList _ _ (by omega)]
        congr 1
        omega
      · have : j / 4 ≠ k := by omega
        rw [if_neg c, if_neg c2, if_neg (by simp [this, c])]

/-- Writing all eight words of a 32-byte array (R111). -/
theorem setPortWords_all (X P : Bytes 32) :
    (List.range 8).foldl (fun P k => setPortWord P k (leWord X.toList k)) P = X := by
  apply Bytes.ext
  intro j hj
  rw [getElem_setPortWords X P _ (by simp)]
  simp
  omega

/-- A run through the host's writes of some words of an array, outside Dispatched (R67, R111). -/
theorem run_writeWords (x : Arr) (X : List Byte) (hro : (Loc.word x 0).readOnly = false) (ks : List Nat)
    (hk : ∀ k ∈ ks, k < x.words) (n : Nat) (rest : List Event) :
    ∀ s : State, s.state ≠ .dispatched →
      Host.Core.run Sys2Proof.core (ks.length + n)
          { s with agenda := (ks.map fun k => writeAt (.word x k) (leWord X k)) ++ rest } =
        Host.Core.run Sys2Proof.core n { (ks.foldl (fun s k => s.setArr k (leWord X k) x) s) with agenda := rest } := by
  induction ks with
  | nil => intro s _; simp
  | cons k ks ih =>
    intro s hs
    have h0 : (Loc.word x k).readOnly = false := by cases x <;> first | rfl | (simp [Loc.readOnly] at hro)
    rw [List.length_cons, Nat.add_right_comm, List.map_cons, List.cons_append, List.foldl_cons]
    have hs' : (s.setArr k (leWord X k) x).state ≠ .dispatched := by cases x <;> exact hs
    rw [← ih (fun k hk' => hk k (List.mem_cons_of_mem _ hk')) _ hs']
    apply run_cons
    have := perform_write_word (s := { s with agenda := (ks.map fun k => writeAt (.word x k) (leWord X k)) ++ rest })
      (v := leWord X k) x (hk k List.mem_cons_self) hs h0
    refine this.trans ?_
    cases x <;> rfl

end Sys2Proof.Machine
end

