-- ==== Sys2Proof/Laws/HostProgram.lean ====
section
/-! SUPPORT. What one turn of a run of a host and the block can do (`30_encoding.md` R110 to R113, `70_reset_and_hazards.md`
R292): while a batch runs, and while the host waits for it. -/

namespace Sys2Proof.Machine

/-! ## Where each turn leads -/

/-- All that the host's turn can do (R110, R111). -/
theorem hostTurn_cases {r r' : HostRun} (h : r.hostTurn = .next r') :
    (r.lines = [] ∧ r' = r) ∨
    ∃ l rest, r.lines = l :: rest ∧ perform l.event r.block = .next r'.block ∧
      r'.lines = if l.repeats (r'.block.readData.getD 0#32) then l :: rest else rest := by
  unfold HostRun.hostTurn at h
  split at h
  · rename_i hl; injection h with h; exact .inl ⟨hl, h.symm⟩
  · rename_i l rest hl
    split at h <;> cases h
    rename_i b hb
    exact .inr ⟨l, rest, hl, by simpa [State.after, step_agenda_cons] using hb, rfl⟩

/-- All that another agent's turn can do. -/
theorem otherTurn_cases {r r' : HostRun} {e : Event} (h : r.otherTurn e = .next r') :
    r'.lines = r.lines ∧ perform e r.block = .next r'.block := by
  unfold HostRun.otherTurn at h
  split at h <;> cases h
  rename_i b hb
  exact ⟨rfl, by simpa [State.after, step_agenda_cons] using hb⟩

/-- Only the host's turn changes what the host has still to perform. -/
theorem turn_lines {r r' : HostRun} {t : Turn} (h : r.turn t = .next r') (ht : t ≠ .host) : r'.lines = r.lines := by
  cases t with
  | host => exact absurd rfl ht
  | lane i => exact (otherTurn_cases (e := .lane i) h).1
  | complete => exact (otherTurn_cases (e := .complete) h).1
  | rstN => exact (otherTurn_cases (e := .rstN) h).1
  | lanesReady b => exact (otherTurn_cases (e := .lanesReady b) h).1
  | block => cases h; rfl

/-! ## While a batch runs -/

/-- A command executed while a batch runs leaves STATE and PENDING: it is NOP, CLEAR_ERR, dropped or illegal (R95). -/
theorem exec_dispatched {i : Instr} {s t : State} (hs : s.state = .dispatched) (h : exec i s = .next t) :
    t.state = s.state ∧ t.pending = s.pending := by
  rcases exec_cases h with ⟨_, _, rfl⟩ | ⟨_, _, rfl⟩ | ⟨_, hl, rfl⟩
  · exact ⟨rfl, rfl⟩
  · exact ⟨rfl, rfl⟩
  · rw [hs] at hl
    cases i <;> first | exact ⟨rfl, rfl⟩ | cases hl

/-- A host read leaves STATE and PENDING (R66). -/
theorem hostRead_frame (s : State) (a : Word) :
    (s.hostRead a).state = s.state ∧ (s.hostRead a).pending = s.pending := by
  rcases hostRead_cases s a with e | ⟨l, _, e⟩ <;> rw [e]
  · exact ⟨rfl, rfl⟩
  · obtain ⟨d, hd⟩ := afterRead_eq s l
    rw [hd]
    exact ⟨rfl, rfl⟩

/-- A write to a location other than CMD leaves STATE and PENDING (R67). -/
theorem setLoc_frame (s : State) (v : Word) (l : Loc) :
    (s.setLoc v l).state = s.state ∧ (s.setLoc v l).pending = s.pending := by
  cases l with
  | reg r => cases r <;> exact ⟨rfl, rfl⟩
  | word a k => cases a <;> exact ⟨rfl, rfl⟩
  | result i k => exact ⟨rfl, rfl⟩

/-- A host access made while a batch runs leaves STATE and PENDING, whatever it is (R68, R95). -/
theorem perform_access_dispatched {l : HostLine} {s t : State} (hs : s.state = .dispatched)
    (h : perform l.event s = .next t) : t.state = s.state ∧ t.pending = s.pending := by
  have write (a v : Word) (h : perform (.write a v) s = .next t) : t.state = s.state ∧ t.pending = s.pending := by
    rcases hostWrite_cases h with rfl | ⟨_, h⟩ | ⟨l, _, _, _, _, rfl⟩
    · exact ⟨rfl, rfl⟩
    · rcases executeWord_cases h with ⟨_, rfl⟩ | ⟨i, _, h⟩
      · exact ⟨rfl, rfl⟩
      · exact exec_dispatched hs h
    · exact setLoc_frame s v l
  have read (a : Word) (h : perform (.read a) s = .next t) : t.state = s.state ∧ t.pending = s.pending := by
    injection h with h
    exact h ▸ hostRead_frame s a
  cases l with
  | wr l v => exact write _ _ h
  | rd l _ => exact read _ h
  | poll l _ _ => exact read _ h
  | pollne l _ _ => exact read _ h

/-- All that a turn other than rst_n's can do while a batch runs (R210, R213, R216): a lane steps, or the batch completes,
or STATE and PENDING stay; and the lane or the controller whose turn it is has had its step. -/
theorem turn_dispatched {r r' : HostRun} {t : Turn} (hs : r.block.state = .dispatched) (ht : t ≠ .rstN)
    (h : r.turn t = .next r') :
    (r.block.pending = [] ∧ r'.block.state = .resultsReady) ∨
    (r'.block.state = .dispatched ∧ (∀ j ∈ r'.block.pending, j ∈ r.block.pending) ∧
      (∀ i, t.TakesLane r.block i → i ∉ r'.block.pending) ∧
      (t.TakesCompletion r.block → r.block.pending ≠ [])) := by
  cases t with
  | rstN => exact absurd rfl ht
  | host =>
    refine .inr ?_
    rcases hostTurn_cases h with ⟨_, rfl⟩ | ⟨l, _, _, h, _⟩
    · exact ⟨hs, fun _ => id, fun _ => False.elim, False.elim⟩
    · obtain ⟨h1, h2⟩ := perform_access_dispatched hs h
      exact ⟨h1.trans hs, fun j hj => h2 ▸ hj, fun _ => False.elim, False.elim⟩
  | lanesReady b =>
    obtain ⟨_, h⟩ := otherTurn_cases (e := .lanesReady b) h
    injection h with h
    exact .inr (by rw [← h]; exact ⟨hs, fun _ => id, fun _ => False.elim, False.elim⟩)
  | lane i =>
    obtain ⟨_, h⟩ := otherTurn_cases (e := .lane i) h
    injection h with h
    right
    rw [← h]
    by_cases hi : i ∈ r.block.pending
    · rw [laneTurn_enabled hs hi]
      refine ⟨hs, fun j hj => (IndexSet.mem_remove.1 hj).1, ?_, False.elim⟩
      rintro j rfl hj
      exact (IndexSet.mem_remove.1 hj).2 rfl
    · rw [laneTurn_disabled (.inr hi)]
      exact ⟨hs, fun _ => id, fun j hj => hj ▸ hi, False.elim⟩
  | complete =>
    obtain ⟨_, h⟩ := otherTurn_cases (e := .complete) h
    injection h with h
    rw [← h]
    by_cases hp : r.block.pending = []
    · rw [completionTurn_enabled hs hp]
      exact .inl ⟨hp, completeBatch_state _⟩
    · rcases completionTurn_cases r.block with e | ⟨_, hp', _⟩
      · rw [e]
        exact .inr ⟨hs, fun _ => id, fun _ => False.elim, fun _ => hp⟩
      · exact absurd hp' hp
  | block =>
    injection h with h
    rw [← h]
    rcases autonomous_cases r.block with ⟨hn, _⟩ | ⟨_, hp, e⟩ | ⟨_, i, hi, hf, e⟩
    · exact absurd hs hn
    · exact .inl ⟨hp, by simp [e]⟩
    · right
      simp only [e]
      refine ⟨hs, fun j hj => (IndexSet.mem_remove.1 hj).1, ?_, fun _ hp => by simp [hp] at hi⟩
      intro j hj hm
      have : i = j := Option.some.inj (hf.symm.trans hj)
      exact (IndexSet.mem_remove.1 hm).2 this.symm

/-- rst_n leaves Dispatched (R282). -/
theorem turn_rstN {r r' : HostRun} (h : r.turn .rstN = .next r') : r'.block.state = .idle := by
  obtain ⟨_, h⟩ := otherTurn_cases (e := .rstN) h
  injection h with h
  rw [← h]
  rfl

/-! ## While the host waits -/

/-- The line `wait_done` expands to, a poll of STATUS (R111). -/
def waitLine : HostLine := .pollne (.named (.reg .status)) 0x7#32 0x2#32

/-- Bits 2:0 of STATUS show whether a batch runs (R23, R32). -/
theorem statusWord_dispatched (s : State) : s.statusWord &&& 0x7#32 = 0x2#32 ↔ s.state = .dispatched := by
  have hc : s.statusWord.toNat % 8 = s.state.code := by
    unfold State.statusWord
    rw [BitVec.toNat_ofNat]
    cases s.state <;> simp only [SearchState.code] <;> omega
  rw [← BitVec.toNat_inj, BitVec.toNat_and, show (0x7#32).toNat = 2 ^ 3 - 1 from rfl, Nat.and_two_pow_sub_one_eq_mod, hc]
  cases s.state <;> simp [SearchState.code]

/-- The host's turn while it waits: it reads STATUS, and goes on exactly when no batch runs (R111). -/
theorem hostTurn_waiting {r : HostRun} {rest : List HostLine} (hl : r.lines = waitLine :: rest) :
    r.hostTurn = .next
      { lines := if r.block.state = .dispatched then waitLine :: rest else rest
        block := { r.block with readData := some r.block.statusWord } } := by
  have hp : r.block.after waitLine.event = .next { r.block with readData := some r.block.statusWord } :=
    perform_read_reg .status rfl (by simp [Loc.barred])
  have hr : (waitLine.repeats r.block.statusWord = true) = (r.block.state = .dispatched) := by
    simp [waitLine, HostLine.repeats, statusWord_dispatched]
  rw [HostRun.hostTurn, hl]
  simp only [hp, Option.getD_some, hr]

/-- A batch does not start while the host waits: only the host's commands start one (R205). -/
theorem turn_waiting {r r' : HostRun} {t : Turn} {rest : List HostLine} (hl : r.lines = waitLine :: rest)
    (hs : r.block.state ≠ .dispatched) (h : r.turn t = .next r') : r'.block.state ≠ .dispatched := by
  cases t with
  | host =>
    cases (hostTurn_waiting hl).symm.trans h
    exact hs
  | lane i =>
    obtain ⟨_, h⟩ := otherTurn_cases (e := .lane i) h
    injection h with h
    rw [← h, laneTurn_disabled (.inl hs)]
    exact hs
  | complete =>
    obtain ⟨_, h⟩ := otherTurn_cases (e := .complete) h
    injection h with h
    rcases completionTurn_cases r.block with e | ⟨h', _⟩
    · rw [← h, e]; exact hs
    · exact absurd h' hs
  | rstN => rw [turn_rstN h]; exact SearchState.noConfusion
  | lanesReady b =>
    obtain ⟨_, h⟩ := otherTurn_cases (e := .lanesReady b) h
    injection h with h
    rw [← h]
    exact hs
  | block =>
    injection h with h
    rw [← h, State.autonomous, if_neg hs]
    exact hs

end Sys2Proof.Machine
end

