-- ==== Sys2Proof/Laws/PerInstr.lean ====
section
/-! SUPPORT. A fact about every command as syntax, one lemma a constructor: its word is well formed, and the two fields of
its word are its OPC and RSV = 0 (`30_encoding.md` R90, R91). -/

namespace Sys2Proof.Laws.Encoding

/-- The fields of the command's word, and that they are well formed. -/
def Statement (i : Instr) : Prop :=
  fieldsOf (encode i) = { opc := i.opc, rsv := 0#24 } ∧ (fieldsOf (encode i)).wf = true

theorem nop : Statement .nop := by unfold Statement; decide
theorem encodeHeader : Statement .encodeHeader := by unfold Statement; decide
theorem loadHeader : Statement .loadHeader := by unfold Statement; decide
theorem setNonce : Statement .setNonce := by unfold Statement; decide
theorem computeTarget : Statement .computeTarget := by unfold Statement; decide
theorem hash1 : Statement .hash1 := by unfold Statement; decide
theorem hash2 : Statement .hash2 := by unfold Statement; decide
theorem submit : Statement .submit := by unfold Statement; decide
theorem retire : Statement .retire := by unfold Statement; decide
theorem rearm : Statement .rearm := by unfold Statement; decide
theorem clearErr : Statement .clearErr := by unfold Statement; decide
theorem softReset : Statement .softReset := by unfold Statement; decide

end Sys2Proof.Laws.Encoding
end

