-- ==== Sys2Proof/Tests/Slice0.lean ====
section
/-! SUPPORT. The model's own tests: the checks of `WellFormed` refusing ill-formed words, the command words of the opcode
table, one step of each command, lane, completion and port access on the vectors of `95_test_vectors.md`, and for every
statement that has hypotheses a witness that meets them. The expected values are those the vectors print. -/

namespace Sys2Proof.Tests

open Sys2Proof Sys2Proof.Machine

/-! ## Helpers -/

/-- The `n` bytes written as one number, first byte most significant. -/
def hx (n v : Nat) : Bytes n := Bytes.ofList n (beBytes n v)

/-- The next state of an outcome, if it is one. -/
def ran (o : Host.Outcome State Fault Refusal) : Option State :=
  match o with
  | .next t => some t
  | .fault _ | .refused _ => none

/-- One fact of the next state of a command. -/
def got {α : Type} (i : Instr) (s : State) (f : State → α) : Option α := (ran (exec i s)).map f

/-- One fact of the state after an event. -/
def gotEvent {α : Type} (e : Event) (s : State) (f : State → α) : Option α := (ran (perform e s)).map f

/-- What a read of `a` returns, and the error it leaves. -/
def readOf (a : Word) (s : State) : Option (Option Word × ErrCode × Word) :=
  gotEvent (.read a) s fun t => (t.readData, t.err, t.errInfo)

/-- The error a write leaves. -/
def writeErr (a v : Word) (s : State) : Option (ErrCode × Word) := gotEvent (.write a v) s fun t => (t.err, t.errInfo)

/-- The state the vectors of `95_test_vectors.md` start from: reset, MAX_BATCH = 64, lanes_ready = 1. -/
def base : State := { State.reset with maxBatchLessOne := 63, lanesReady := true }

/-- The HDR of V-C1. -/
def hdr1 : Bytes 80 :=
  hx 80 0x010000004860eb18bf1b1620e37e9490fc8a427514416fd75159ab86688e9a8300000000d5fdcc541e25de1c7a5addedf24858b8bb665c9f36ef744ee42c316022c90f9bb0bc6649ffff001d08d2bd61

/-- The target of V-T1. -/
def target1 : Bytes 32 := hx 32 0x00000000ffff0000000000000000000000000000000000000000000000000000

/-- D2 of V-S1. -/
def digest2 : Bytes 32 := hx 32 0xbddd99ccfda39da1b108ce1a5d70038d0a967bacb68b6b63065f626a00000000

/-- The register inputs of V-C1. -/
def fields1 : State :=
  { base with
    version := 0x00000001#32
    prevHash := hx 32 0x00000000839a8e6886ab5951d76f411475428afc90947ee320161bbf18eb6048
    merkleRoot := hx 32 0x9b0fc92260312ce44e74ef369f5c66bbb85848f2eddd5a7a1cde251e54ccfdd5
    time := 0x4966bcb0#32
    bits := 0x1d00ffff#32
    nonce := 0x61bdd208#32 }

/-- V-D1 before SUBMIT. -/
def loaded : State :=
  { base with
    state := .headerLoaded, hdrValid := true, hdr := hdr1, target := target1, nonceOffset := 0x61bdd204#32
    batchSize := 8#32 }

/-- V-D1 after SUBMIT. -/
def running : State := { loaded with state := .dispatched, pending := [0, 1, 2, 3, 4, 5, 6, 7] }

/-- A batch of four lanes, none accepted, all of which have stepped. -/
def finished : State := { loaded with state := .dispatched, batchSize := 4#32, hit := [7] }

/-- A completed batch without a solution. -/
def unsolved : State := { loaded with state := .resultsReady, nsr := true }

/-- A completed batch with a solution. -/
def solution : State := { loaded with state := .resultsReady, found := true }

/-- An error pending in Idle (V-X1). -/
def failed : State := { base with err := .illegalCommand, errInfo := 7#32 }

/-! ## Well-formedness -/

theorem test_wf_refuses_reserved_bits : CommandWord.wf { opc := 0x07#8, rsv := 0x800000#24 } = false := by decide
theorem test_wf_refuses_reserved_opcode : CommandWord.wf { opc := 0x0C#8, rsv := 0#24 } = false := by decide
theorem test_wf_refuses_last_opcode : CommandWord.wf { opc := 0xFF#8, rsv := 0#24 } = false := by decide
theorem test_wf_takes_every_instruction : ∀ i ∈ allInstrs, i.wf = true := by decide

/-! ## Decoding (R91; V-E1) -/

theorem test_decode_nop : decode 0b00000000000000000000000000000000#32 = .ok .nop := rfl
theorem test_decode_encodeHeader : decode 0b00000000000000000000000000000001#32 = .ok .encodeHeader := rfl
theorem test_decode_loadHeader : decode 0b00000000000000000000000000000010#32 = .ok .loadHeader := rfl
theorem test_decode_setNonce : decode 0b00000000000000000000000000000011#32 = .ok .setNonce := rfl
theorem test_decode_computeTarget : decode 0b00000000000000000000000000000100#32 = .ok .computeTarget := rfl
theorem test_decode_hash1 : decode 0b00000000000000000000000000000101#32 = .ok .hash1 := rfl
theorem test_decode_hash2 : decode 0b00000000000000000000000000000110#32 = .ok .hash2 := rfl
theorem test_decode_submit : decode 0b00000000000000000000000000000111#32 = .ok .submit := rfl
theorem test_decode_retire : decode 0b00000000000000000000000000001000#32 = .ok .retire := rfl
theorem test_decode_rearm : decode 0b00000000000000000000000000001001#32 = .ok .rearm := rfl
theorem test_decode_clearErr : decode 0b00000000000000000000000000001010#32 = .ok .clearErr := rfl
theorem test_decode_softReset : decode 0b00000000000000000000000000001011#32 = .ok .softReset := rfl

theorem test_decode_reserved :
    decode 0x0000000c#32 = .error .reservedOpcode ∧ decode 0x000000ff#32 = .error .reservedOpcode ∧
    decode 0x00000100#32 = .error .reservedBits ∧ decode 0x0000010c#32 = .error .reservedBits ∧
    decode 0x80000007#32 = .error .reservedBits := ⟨rfl, rfl, rfl, rfl, rfl⟩

theorem test_decodeTableWord : decodeTableWord 32 7 = some .submit ∧ decodeTableWord 32 0x10c = none := ⟨rfl, rfl⟩

/-- The program's first step from reset runs the word that `withFetchWord` places. -/
theorem test_withFetchWord_runs : (ran (step (State.reset.withFetchWord 32 2))).map (·.state) = some .headerLoaded := by
  decide

/-! ## Commands -/

/-- V-E1. -/
theorem test_reserved_word_raises : writeErr 0x004#32 0x80000007#32 base = some (.reservedOpcode, 0x80000007#32) := by
  decide

/-- V-E1. -/
theorem test_nop_runs : got .nop failed id = some failed := by decide

/-- V-C1. -/
theorem test_encodeHeader_bytes : got .encodeHeader fields1 (·.hdr) = some hdr1 := by decide +kernel

/-- V-D7: in Solved it starts a new header. -/
theorem test_encodeHeader_status :
    got .encodeHeader { base with state := .solved, hdrValid := true, found := true }
      (fun t => (t.state, t.hdrValid, t.found, t.nsr)) = some (.headerLoaded, true, false, false) := by decide

/-- V-C5. -/
theorem test_loadHeader_keeps_hdr :
    got .loadHeader { base with hdr := hdr1 } (fun t => (t.hdr == hdr1, t.state, t.version)) =
      some (true, .headerLoaded, 0#32) := by decide +kernel

/-- V-E2. -/
theorem test_loadHeader_illegal_in_batch :
    got .loadHeader running (fun t => (t.err, t.errInfo, t.pending)) =
      some (.illegalCommand, 2#32, [0, 1, 2, 3, 4, 5, 6, 7]) := by decide

/-- V-C3, row 1. -/
theorem test_setNonce_bytes :
    got .setNonce { fields1 with hdr := (hdr1.set 76 0#8).set 79 0#8 } (·.hdr) = some hdr1 := by decide +kernel

/-- V-M3. -/
theorem test_setNonce_word : got .setNonce fields1 (fun t => portWord t.hdr 19) = some 0x61bdd208#32 := by
  decide +kernel

/-- V-T1, V-W1. -/
theorem test_computeTarget_golden : got .computeTarget fields1 (·.target) = some target1 := by decide +kernel

/-- V-T16. -/
theorem test_computeTarget_small_exponent :
    got .computeTarget { base with bits := 0x02000001#32 } (fun t => (t.err, t.errInfo)) =
      some (.invalidDifficulty, 4#32) := by decide

/-- V-T6, V-T8, V-T10, V-T12, V-T15. -/
theorem test_expand_values :
    expand 0x1d80ffff#32 = some (hx 32 0x00000080ffff0000000000000000000000000000000000000000000000000000) ∧
    expand 0x207fffff#32 = some (hx 32 0x7fffff0000000000000000000000000000000000000000000000000000000000) ∧
    expand 0x2100ffff#32 = some (hx 32 0xffff000000000000000000000000000000000000000000000000000000000000) ∧
    expand 0x220000ff#32 = some (hx 32 0xff00000000000000000000000000000000000000000000000000000000000000) ∧
    expand 0xff000000#32 = some (zeroBytes 32) := by decide +kernel

/-- V-T11, V-T13, V-T14, V-T17, V-T18. -/
theorem test_expand_invalid :
    expand 0x21010000#32 = none ∧ expand 0x22000100#32 = none ∧ expand 0x23000001#32 = none ∧
    expand 0x00000000#32 = none ∧ expand 0x01003456#32 = none := ⟨rfl, rfl, rfl, rfl, rfl⟩

/-- V-S1, D1. -/
theorem test_hash1_digest :
    got .hash1 { base with hdr := hdr1 } (·.dbgDigest) =
      some (hx 32 0x9cbba91850f7347bc2f08d325af67165f77751ad85f909c85ae10340a3165b69) := by decide +kernel

/-- V-S1, D2. -/
theorem test_hash2_digest : got .hash2 { base with hdr := hdr1 } (·.dbgDigest) = some digest2 := by decide +kernel

/-- V-D1. -/
theorem test_submit_dispatches :
    got .submit loaded (fun t => (t.state, t.pending)) = some (.dispatched, [0, 1, 2, 3, 4, 5, 6, 7]) := by decide

/-- V-X4: the first of three causes. -/
theorem test_submit_error_priority :
    got .submit { loaded with batchSize := 0#32, offsetHi := true, nonceOffset := 0#32, lanesReady := false }
      (fun t => (t.err, t.errInfo, t.state, t.hdrValid)) = some (.badBatchSize, 7#32, .headerLoaded, true) := by decide

/-- V-D6, row 3. -/
theorem test_retire_advances_to_the_end :
    got .retire { unsolved with nonceOffset := 0xfffffff0#32, batchSize := 16#32 }
      (fun t => (t.state, t.nonceOffset, t.offsetHi)) = some (.idle, 0#32, true) := by decide

/-- V-D6, row 1. -/
theorem test_retire_solved :
    got .retire solution (fun t => (t.state, t.nonceOffset)) = some (.solved, 0x61bdd204#32) := by decide

/-- V-D6, row 2. -/
theorem test_rearm_reenters : got .rearm { base with hdrValid := true } (·.state) = some .headerLoaded := by decide

/-- V-E1. -/
theorem test_rearm_needs_a_header : got .rearm base (fun t => (t.err, t.errInfo)) = some (.illegalCommand, 9#32) := by
  decide

/-- V-E3. -/
theorem test_clearErr_clears : got .clearErr failed (fun t => (t.err, t.errInfo)) = some (.none, 0#32) := by decide

/-- V-R1: STATUS after reset, with lanes_ready = 1, from a state with everything set. -/
theorem test_softReset_status :
    got .softReset { solution with err := .illegalCommand, irqEn := 3#2, dbgHit := true, offsetHi := true }
      (fun t => (t.statusWord, t.target == zeroBytes 32, t.bits)) = some (0x400#32, true, 0#32) := by decide +kernel

/-- V-E3: in Dispatched with an error pending it is dropped. -/
theorem test_softReset_dropped_in_batch :
    got .softReset { running with err := .illegalAccess, errInfo := 0x30#32 } (fun t => (t.state, t.err, t.errInfo)) =
      some (.dispatched, .illegalAccess, 0x30#32) := by decide

/-! ## SHA-256 intermediate values (V-S3, V-S7) -/

theorem test_schedule_block0 :
    (schedule (blockOf (pad hdr1.toList) 0))[16]? = some 0x2efc0178#32 ∧
    (schedule (blockOf (pad hdr1.toList) 0))[63]? = some 0x3e5a0473#32 := by decide +kernel

theorem test_midstate :
    compressBlocks (pad hdr1.toList) 1 =
      { a := 0xbc0f0ecc#32, b := 0x6db5fb8e#32, c := 0xfcf9fee6#32, d := 0xbad4a30f#32, e := 0xe23505dd#32,
        f := 0xc9a02006#32, g := 0x32e40764#32, h := 0x66bd0e74#32 } := by decide +kernel

/-! ## Comparator (V-K) -/

theorem test_accept_reverses_the_digest :
    accept digest2 (hx 32 0x000000006a625f06636b8bb6ac7b960a8d03705d1ace08b1a19da3fdcc99ddbd) = false ∧
    accept digest2 (hx 32 0x000000006a625f06636b8bb6ac7b960a8d03705d1ace08b1a19da3fdcc99ddbe) = true ∧
    accept (hx 32 1) (hx 32 2) = false ∧ accept (hx 32 (2 ^ 248)) (hx 32 2) = true ∧
    accept (zeroBytes 32) (zeroBytes 32) = false := by decide +kernel

/-! ## Lanes and completion -/

/-- V-D1, lane 4. -/
theorem test_lane4_result :
    gotEvent (.lane 4) running (fun t => (t.result.map (·.2) == digest2.toList, t.result.map (·.1) == slotAddrs 4)) =
      some (true, true) := by decide +kernel

/-- V-D2: the lowest hit lane is reported, here from slots filled by hand. -/
theorem test_completion_lowest_lane :
    gotEvent .complete
      { running with
        pending := [], hit := [4, 6], result := Memory.writeBytes [] (slotBase 4) digest2.toList }
      (fun t => (t.state, t.found, t.nsr, t.solNonce, t.solDigest == digest2)) =
      some (.resultsReady, true, false, 0x61bdd208#32, true) := by decide +kernel

/-- V-D9: no accepted lane; a HIT bit at or above BATCH_SIZE does not count. -/
theorem test_completion_no_solution :
    gotEvent .complete finished (fun t => (t.state, t.found, t.nsr, t.solNonce, t.err)) =
      some (.resultsReady, false, true, 0#32, .none) := by decide

/-- V-R2. -/
theorem test_rstN_aborts :
    gotEvent .rstN running (fun t => (t.state, t.pending, t.statusWord)) = some (.idle, [], 0x400#32) := by decide

/-! ## Host port (V-M1, V-M2, V-M3) -/

theorem test_port_bad_reads :
    readOf 0x002#32 base = some (some 0#32, .illegalAccess, 0x002#32) ∧
    readOf 0x0E0#32 base = some (some 0#32, .illegalAccess, 0x0E0#32) ∧
    readOf 0x10800#32 base = some (some 0#32, .illegalAccess, 0x10800#32) := by decide

theorem test_port_bad_writes :
    writeErr 0x016#32 5#32 base = some (.illegalAccess, 0x016#32) ∧
    writeErr 0x038#32 5#32 base = some (.illegalAccess, 0x038#32) ∧
    writeErr 0x008#32 0#32 base = some (.illegalAccess, 0x008#32) ∧
    writeErr 0x0A0#32 0#32 base = some (.illegalAccess, 0x0A0#32) := by decide

/-- D3: a byte or halfword access is refused, at a mapped address too. -/
theorem test_other_width_refused :
    gotEvent (.readWidth 0x000#32 ⟨1, by decide⟩) base (fun t => (t.readData, t.err, t.errInfo)) =
      some (some 0#32, .illegalAccess, 0x000#32) ∧
    gotEvent (.writeWidth 0x01A#32 ⟨2, by decide⟩) base (fun t => (t.version, t.err, t.errInfo)) =
      some (0#32, .illegalAccess, 0x01A#32) := by decide

theorem test_port_constant_reads :
    readOf 0x000#32 base = some (some 0x574d4301#32, .none, 0#32) ∧
    readOf 0x004#32 base = some (some 0#32, .none, 0#32) ∧
    readOf 0x034#32 base = some (some 0x40#32, .none, 0#32) := by decide

theorem test_port_irqEn_keeps_two_bits :
    gotEvent (.write 0x014#32 0xffffffff#32) running (fun t => (t.irqEnWord, t.err)) = some (0x3#32, .none) := by decide

theorem test_port_locks :
    writeErr 0x080#32 1#32 running = some (.illegalAccess, 0x080#32) ∧
    writeErr 0x14C#32 1#32 running = some (.illegalAccess, 0x14C#32) ∧
    writeErr 0x02C#32 1#32 unsolved = some (.illegalAccess, 0x02C#32) ∧
    writeErr 0x020#32 1#32 unsolved = some (.none, 0#32) := by decide

theorem test_port_barrier :
    readOf 0x030#32 running = some (some 0#32, .illegalAccess, 0x030#32) ∧
    readOf 0x10000#32 running = some (some 0#32, .illegalAccess, 0x10000#32) ∧
    readOf 0x028#32 running = some (some 0x61bdd204#32, .none, 0#32) := by decide

theorem test_port_byte_lanes :
    gotEvent (.write 0x080#32 0x00000010#32) base (fun t => (t.target[0], t.target[3], portWord t.target 0)) =
      some (0x10#8, 0#8, 0x10#32) := by decide +kernel

/-- R71: the write clears bit 32 of the offset. -/
theorem test_port_nonceOffset_clears_offsetHi :
    gotEvent (.write 0x028#32 7#32) { base with offsetHi := true } (·.off) = some 7 := by decide

/-- V-X2. -/
theorem test_irq_level :
    { solution with irqEn := 0#2, err := .illegalCommand }.irq = false ∧ { solution with irqEn := 1#2 }.irq = true ∧
    { running with irqEn := 1#2 }.irq = false ∧ { failed with irqEn := 2#2 }.irq = true ∧
    { base with irqEn := 2#2 }.irq = false := by decide

/-! ## Host text (V-C6) and host programs (R110, R111) -/

theorem test_bits_text :
    bitsField (.str "1D00FFFF".toList) = .ok 0x1d00ffff#32 ∧
    bitsField (.str "1d00fff".toList) = .error .malformedInput := ⟨by decide +kernel, by decide +kernel⟩

theorem test_integer_text :
    intField (.int 4294967296) = .error .malformedInput ∧ intField (.int (-1)) = .error .malformedInput ∧
    intField (.int 4294967295) = .ok 0xffffffff#32 := ⟨rfl, rfl, rfl⟩

theorem test_display :
    display digest2 = "000000006a625f06636b8bb6ac7b960a8d03705d1ace08b1a19da3fdcc99ddbd".toList := by decide +kernel

theorem test_parse_lines :
    parseLine "wr NONCE_OFFSET, 0xFFFFFFF0" = some (.line (.wr (.named (.reg .nonceOffset)) 0xfffffff0#32)) ∧
    parseLine "cmd SUBMIT ; go" = some (.cmd .submit) ∧ parseLine "rd HDR.w20" = none := by decide +kernel

/-! ## Witnesses: concrete states and operands that meet the hypotheses of each statement

Each is named after the statement, with the clause where the statement has several. -/

/-- An agenda that starts with the host's write of SUBMIT. -/
def submitting : State := { loaded with agenda := [.write 0x00000004#32 0x00000007#32, .rstN] }

theorem witness_DecodeEncodeAgree : Instr.softReset.wf = true ∧ decode 0x0000000B#32 = .ok .softReset := ⟨rfl, rfl⟩

theorem witness_ReservedWordsRaise_rsv : (0x00000100#32).extractLsb' 8 24 ≠ 0#24 := by decide

theorem witness_ReservedWordsRaise_opc :
    0x0C ≤ ((0x0000000C#32).extractLsb' 0 8).toNat ∧ 0x0C ≤ ((0x000000FF#32).extractLsb' 0 8).toNat := by decide

theorem witness_StepRunsDecodedCommand :
    submitting.agenda = .write 0x00000004#32 0x00000007#32 :: [.rstN] ∧ decode 0x00000007#32 = .ok .submit := ⟨rfl, rfl⟩

theorem witness_PendingErrorDropsCommands :
    failed.err ≠ .none ∧ Instr.submit ≠ .nop ∧ Instr.submit ≠ .clearErr ∧ Instr.submit ≠ .softReset := by decide

theorem witness_IllegalCommandsRaise :
    decode 0x00000007#32 = .ok .submit ∧ (base.err = .none ∧ base.state ≠ .headerLoaded) ∧
    decode 0x00000008#32 = .ok .retire ∧ (loaded.err = .none ∧ loaded.state ≠ .resultsReady) ∧
    decode 0x00000009#32 = .ok .rearm ∧ (base.err = .none ∧ ¬(base.state = .idle ∧ base.hdrValid = true)) ∧
    (loaded.err = .none ∧ ¬(loaded.state = .idle ∧ loaded.hdrValid = true)) ∧
    decode 0x00000001#32 = .ok .encodeHeader ∧ (running.err = .none ∧ running.state = .dispatched) ∧
    decode 0x00000002#32 = .ok .loadHeader ∧ (unsolved.err = .none ∧ unsolved.state = .resultsReady) ∧
    decode 0x0000000B#32 = .ok .softReset :=
  ⟨rfl, by decide, rfl, by decide, rfl, by decide, by decide, rfl, by decide, rfl, by decide, rfl⟩

theorem witness_SoftResetResets :
    unsolved.state ≠ .dispatched ∧
    ({ running with err := .illegalAccess } : State).state = .dispatched ∧
    ({ running with err := .illegalAccess } : State).err ≠ .none := by decide

theorem witness_ResetInputResets : ({ running with agenda := [.rstN, .complete] } : State).agenda = .rstN :: [.complete] :=
  rfl

/-- For ENCODE_HEADER and LOAD_HEADER. -/
theorem witness_EncodeHeaderLoadsTheFields :
    (running.err = .none ∧ running.state = .dispatched) ∧ (unsolved.err = .none ∧ unsolved.state = .resultsReady) ∧
    (fields1.err = .none ∧ fields1.state = .idle) ∧ (loaded.err = .none ∧ loaded.state = .headerLoaded) ∧
    (({ base with state := .solved } : State).err = .none ∧ ({ base with state := .solved } : State).state = .solved) := by
  decide

theorem witness_LoadHeaderCommitsHdr :
    (running.err = .none ∧ running.state = .dispatched) ∧ (unsolved.err = .none ∧ unsolved.state = .resultsReady) ∧
    (base.err = .none ∧ base.state = .idle) := by decide

theorem witness_HeaderBytesOfTheFields : (3 : Nat) < 4 ∧ (31 : Nat) < 32 := by decide

/-- For SET_NONCE, COMPUTE_TARGET, HASH1 and HASH2. -/
theorem witness_SetNonceWritesTheLastFourBytes :
    (running.err = .none ∧ running.state = .dispatched) ∧ (fields1.err = .none ∧ fields1.state ≠ .dispatched) ∧
    (75 : Nat) < 76 ∧ (3 : Nat) < 4 := by decide

/-- Below exponent 3, an overflow just at 2^256, and the last exponent and mantissa below it. -/
theorem witness_ExpandCompactTarget :
    (0x02FFFFFF#32).toNat / 2 ^ 24 < 3 ∧
    2 ^ 256 ≤ (0x21010000#32).toNat % 2 ^ 24 * 2 ^ (8 * ((0x21010000#32).toNat / 2 ^ 24 - 3)) ∧
    3 ≤ (0x03000000#32).toNat / 2 ^ 24 ∧
    (0x03000000#32).toNat % 2 ^ 24 * 2 ^ (8 * ((0x03000000#32).toNat / 2 ^ 24 - 3)) < 2 ^ 256 ∧
    3 ≤ (0x2100FFFF#32).toNat / 2 ^ 24 ∧
    (0x2100FFFF#32).toNat % 2 ^ 24 * 2 ^ (8 * ((0x2100FFFF#32).toNat / 2 ^ 24 - 3)) < 2 ^ 256 := by decide +kernel

theorem witness_OverflowingCompactTargets :
    3 ≤ (0x03000000#32).toNat / 2 ^ 24 ∧
    ((0x21010000#32).toNat / 2 ^ 24 = 33 ∧ 2 ^ 16 ≤ (0x21010000#32).toNat % 2 ^ 24) ∧
    ((0x22000100#32).toNat / 2 ^ 24 = 34 ∧ 2 ^ 8 ≤ (0x22000100#32).toNat % 2 ^ 24) ∧
    (35 ≤ (0x23000001#32).toNat / 2 ^ 24 ∧ (0x23000001#32).toNat % 2 ^ 24 ≠ 0) := by decide +kernel

theorem witness_ComputeTargetExpandsBits :
    (running.err = .none ∧ running.state = .dispatched) ∧ (fields1.err = .none ∧ fields1.state ≠ .dispatched) ∧
    expand fields1.bits = some target1 ∧ expand base.bits = none := by
  refine ⟨by decide, by decide, by decide +kernel, by decide +kernel⟩

theorem witness_PaddingIsMinimal : ([] : List Byte).length < 2 ^ 61 ∧ hdr1.toList.length < 2 ^ 61 := by
  constructor <;> simp

theorem witness_ScheduleRecurrence : (15 : Nat) < 16 ∧ (16 ≤ 16 ∧ 16 < 64) ∧ (16 ≤ 63 ∧ 63 < 64) := by decide

theorem witness_Hash1HashesHdr :
    (running.err = .none ∧ running.state = .dispatched) ∧ (loaded.err = .none ∧ loaded.state ≠ .dispatched) := by decide

theorem witness_Hash2HashesHdrTwice :
    (running.err = .none ∧ running.state = .dispatched) ∧ (loaded.err = .none ∧ loaded.state ≠ .dispatched) := by decide

theorem witness_Hash2AgreesWithTheLane :
    let s : State := { fields1 with hdr := hdr1, target := target1 }
    s.err = .none ∧ s.state ≠ .dispatched ∧ running.state = .dispatched ∧ 4 ∈ running.pending ∧
    running.nonceOffset + BitVec.ofNat 32 4 = s.nonce ∧ (∀ j (_ : j < 76), running.hdr[j] = s.hdr[j]) ∧
    running.target = s.target :=
  ⟨by decide, by decide, rfl, by decide, by decide, fun _ _ => rfl, rfl⟩

theorem witness_ComparatorIsStrictLess : rev digest2 = (rev digest2 : Bytes 32) ∧ accept digest2 target1 = true ∧
    (rev digest2)[4].toNat < target1[4].toNat ∧ ∀ (j : Nat) (_ : j < 4), (rev digest2)[j] = target1[j] :=
  ⟨rfl, by decide +kernel, by decide +kernel, by decide +kernel⟩

/-- V-D3, both bounds. -/
theorem witness_SubmitErrors_badBatchSize :
    let s : State := { loaded with batchSize := 0#32 }
    let t : State := { loaded with batchSize := 65#32 }
    (s.err = .none ∧ s.state = .headerLoaded ∧ s.batchSize.toNat = 0) ∧
    (t.err = .none ∧ t.state = .headerLoaded ∧ t.maxBatch < t.batchSize.toNat) := by decide

/-- V-D5, rows 2 and 4. -/
theorem witness_SubmitErrors_exhausted :
    let s : State := { loaded with nonceOffset := 0xfffffff0#32, batchSize := 17#32 }
    let t : State := { loaded with offsetHi := true, nonceOffset := 0#32, batchSize := 1#32 }
    (s.err = .none ∧ s.state = .headerLoaded ∧ 1 ≤ s.batchSize.toNat ∧ s.batchSize.toNat ≤ s.maxBatch ∧
      2 ^ 32 < s.offsetHi.toNat * 2 ^ 32 + s.nonceOffset.toNat + s.batchSize.toNat) ∧
    (t.err = .none ∧ t.state = .headerLoaded ∧ 1 ≤ t.batchSize.toNat ∧ t.batchSize.toNat ≤ t.maxBatch ∧
      2 ^ 32 < t.offsetHi.toNat * 2 ^ 32 + t.nonceOffset.toNat + t.batchSize.toNat) := by decide

/-- V-D4, at the end of the range. -/
theorem witness_SubmitErrors_unavailable :
    let s : State := { loaded with nonceOffset := 0xfffffff0#32, batchSize := 16#32, lanesReady := false }
    s.err = .none ∧ s.state = .headerLoaded ∧ 1 ≤ s.batchSize.toNat ∧ s.batchSize.toNat ≤ s.maxBatch ∧
    s.offsetHi.toNat * 2 ^ 32 + s.nonceOffset.toNat + s.batchSize.toNat ≤ 2 ^ 32 ∧ s.lanesReady = false := by decide

/-- V-D5, row 1: the batch that ends at 2^32. -/
theorem witness_SubmitDispatchesTheBatch :
    let s : State := { loaded with nonceOffset := 0xfffffff0#32, batchSize := 16#32 }
    s.err = .none ∧ s.state = .headerLoaded ∧ 1 ≤ s.batchSize.toNat ∧ s.batchSize.toNat ≤ s.maxBatch ∧
    s.offsetHi.toNat * 2 ^ 32 + s.nonceOffset.toNat + s.batchSize.toNat ≤ 2 ^ 32 ∧ s.lanesReady = true := by decide

theorem witness_LaneStepWritesOnlyItsOwn : running.state = .dispatched ∧ 0 ∈ running.pending ∧ 7 ∈ running.pending := by
  decide

theorem witness_LaneOrderDoesNotMatter :
    running.result.wf ∧ running.hit.wf ∧ running.state = .dispatched ∧ [0, 1, 2].Perm [2, 0, 1] := by decide

/-- Slot 4 filled with a digest by hand. -/
def filled : State :=
  { running with pending := [], hit := [4, 6], result := Memory.writeBytes [] (slotBase 4) digest2.toList }

theorem witness_CompletionReportsTheLowestLane_found :
    filled.state = .dispatched ∧ filled.pending = [] ∧ 4 < filled.batchSize.toNat ∧ 4 ∈ filled.hit ∧
    (∀ i < 4, i ∉ filled.hit) ∧ filled.slotHolds 4 digest2 :=
  ⟨rfl, rfl, by decide, by decide, by decide, by unfold State.slotHolds; decide +kernel⟩

theorem witness_CompletionReportsTheLowestLane_none :
    finished.state = .dispatched ∧ finished.pending = [] ∧ ∀ i < finished.batchSize.toNat, i ∉ finished.hit := by decide

theorem witness_BatchComputesEveryCandidate :
    let s : State := { running with batchSize := 3#32, pending := [0, 1, 2] }
    s.state = .dispatched ∧ s.pending = List.range s.batchSize.toNat ∧ [2, 0, 1].Perm (List.range s.batchSize.toNat) := by
  decide

/-- A batch of one lane whose digest is accepted (V-W7), and one with a zero target. -/
theorem witness_BatchComputesEveryCandidate_clauses :
    accept (candidate hdr1 (0x61bdd208#32 + BitVec.ofNat 32 0)) target1 = true ∧
    ∀ D : Bytes 32, accept D (zeroBytes 32) = false :=
  ⟨by decide +kernel, fun D => decide_eq_false (Nat.not_lt_zero _)⟩

theorem witness_RetireAdvancesTheOffset :
    let s : State := { unsolved with nonceOffset := 0xfffffff0#32, batchSize := 16#32 }
    (solution.err = .none ∧ solution.state = .resultsReady ∧ solution.found = true) ∧
    (s.err = .none ∧ s.state = .resultsReady ∧ s.found = false ∧
      s.offsetHi.toNat * 2 ^ 32 + s.nonceOffset.toNat + s.batchSize.toNat ≤ 2 ^ 32) := by decide

theorem witness_RearmReentersHeaderLoaded :
    let s : State := { base with hdrValid := true }
    (s.err = .none ∧ s.state = .idle ∧ s.hdrValid = true) ∧ (base.err = .none ∧ base.hdrValid = false) ∧
    (loaded.err = .none ∧ loaded.state ≠ .idle) := by decide

theorem witness_CommandsLeaveTheBuffers :
    Instr.submit ≠ .softReset ∧ ∃ t, exec .submit loaded = .next t := ⟨by decide, _, rfl⟩

/-- A command of the agenda, the completion step with no event to come, and a step that waits. -/
theorem witness_OnlyTheseTransitions :
    (ran (step submitting)).map (·.state) = some .dispatched ∧
    (finished.agenda = [] ∧ (ran (step finished)).map (·.state) = some .resultsReady) ∧
    (solution.agenda = [] ∧ (ran (step solution)).map (·.state) = some .resultsReady) := by decide

theorem witness_BatchInputsAreFrozen :
    running.state = .dispatched ∧ (∀ rest, running.agenda ≠ .rstN :: rest) ∧ ∃ t, step running = .next t :=
  ⟨rfl, fun _ h => (by cases h), _, rfl⟩

theorem witness_BatchesComplete : running.state = .dispatched ∧ running.agenda = [] := ⟨rfl, rfl⟩

/-- A batch of one lane, while the host waits for it. -/
def waiting : HostRun :=
  { lines := SourceLine.expand .waitDone, block := { loaded with state := .dispatched, batchSize := 1#32, pending := [0] } }

/-- The same block after its lane has stepped. -/
def stepped : State := { waiting.block.laneStep 0 with draws := 1 }

/-- That run: its lane steps, the batch completes, the host's poll sees it and no line is left. -/
def waitingRun : Nat → HostRun
  | 0 => waiting
  | 1 => { waiting with block := stepped }
  | 2 => { waiting with block := stepped.completeBatch }
  | _ + 3 => { lines := [], block := { stepped.completeBatch with readData := some stepped.completeBatch.statusWord } }

/-- Its schedule: the block moves on its own twice, and then it is always the host's turn. -/
def waitingTurns : Nat → Turn
  | 0 | 1 => .block
  | _ + 2 => .host

theorem freeLane_waiting : waiting.block.freeLane = some 0 := by simp [State.freeLane, waiting, Nat.mod_one]

theorem fairRun_waiting : FairRun waitingRun waitingTurns where
  steps
    | 0 => by
      show Host.Outcome.next { waiting with block := waiting.block.autonomous } = _
      rw [autonomous_lane rfl freeLane_waiting]
      rfl
    | 1 => by
      show Host.Outcome.next { waiting with block := stepped.autonomous } = _
      rw [autonomous_complete rfl rfl]
      rfl
    | 2 => by
      refine (hostTurn_waiting (r := waitingRun 2) (rest := []) rfl).trans ?_
      rw [if_neg (by simp [waitingRun])]
      rfl
    | _ + 3 => rfl
  lanes n i hs hi := by
    rcases n with _ | _ | _ | n
    · obtain rfl : i = 0 := List.mem_singleton.1 hi
      exact ⟨0, le_refl 0, .inl freeLane_waiting⟩
    · cases hi
    · simp [waitingRun] at hs
    · simp [waitingRun] at hs
  completion n hs hp := by
    rcases n with _ | _ | _ | n
    · cases hp
    · exact ⟨1, le_refl 1, .inl (freeLane_eq_none.2 rfl)⟩
    · simp [waitingRun] at hs
    · simp [waitingRun] at hs

/-- R112 and the listing of P2: a wait_done is one read in the encoding, and two where its poll repeats once. -/
theorem test_wait_done_transactions :
    encodeProgram [.waitDone] = [.r 0x008#32] ∧
    waiting.performed [.host, .lane 0, .complete, .host, .host] = [.r 0x008#32, .r 0x008#32] := by decide +kernel

theorem witness_BatchesComplete_fair :
    FairRun waitingRun waitingTurns ∧ (waitingRun 0).block.state = .dispatched ∧ (∀ m ≥ 0, waitingTurns m ≠ .rstN) ∧
    (waitingRun 3).lines = [] ∧ HostActs waitingTurns ∧ (waitingRun 0).lines = SourceLine.expand .waitDone ++ [] :=
  ⟨fairRun_waiting, rfl, fun m _ => by rcases m with _ | _ | m <;> simp [waitingTurns], rfl,
    fun n => ⟨n + 2, by omega, rfl⟩, rfl⟩

/-- One address of every class, and the last of the address space. -/
theorem witness_BadAccessesAreRefused :
    (0x002#32 : Word).toNat % 4 ≠ 0 ∧ (0x038 ≤ (0x038#32).toNat ∧ (0x03C#32).toNat < 0x040) ∧
    (0x0E0 ≤ (0x0E0#32).toNat ∧ (0x0FC#32).toNat < 0x100) ∧
    (0x150 ≤ (0x150#32).toNat ∧ (0xFFFC#32).toNat < 0x10000) ∧
    0x10000 + 32 * base.maxBatch ≤ (0x10800#32).toNat ∧ 0x10000 + 32 * base.maxBatch ≤ (0xFFFFFFFC#32).toNat := by decide

/-- The read-only locations at the ends of their ranges; the locks at the ends of theirs. -/
theorem witness_RefusedWrites :
    (0x034#32).toNat % 4 = 0 ∧ (0x0A0 ≤ (0x0A0#32).toNat ∧ (0x0DC#32).toNat < 0x0E0) ∧
    (0x10000 ≤ (0x10000#32).toNat ∧ (0x107FC#32).toNat < 0x10000 + 32 * base.maxBatch) ∧
    (running.state = .dispatched ∧ 0x018 ≤ (0x018#32).toNat ∧ (0x02C#32).toNat < 0x030 ∧
      0x040 ≤ (0x040#32).toNat ∧ (0x09C#32).toNat < 0x0A0 ∧ 0x100 ≤ (0x100#32).toNat ∧ (0x14C#32).toNat < 0x150) ∧
    (unsolved.state = .resultsReady ∧ (0x028#32).toNat = 0x028 ∧ (0x02C#32).toNat = 0x02C) := by decide

theorem witness_ScalarWritesLand :
    base.state ≠ .dispatched ∧ base.state ≠ .resultsReady ∧ unsolved.state ≠ .dispatched := by decide

theorem witness_ArrayWritesLand : base.state ≠ .dispatched ∧ (7 : Nat) < 8 ∧ (19 : Nat) < 20 ∧ (31 : Nat) < 32 ∧
    (79 : Nat) < 80 := by decide

theorem witness_ScalarReads : solution.state ≠ .dispatched := by decide

theorem witness_ArrayReads : solution.state ≠ .dispatched ∧ (3 : Nat) < 4 ∧ (7 : Nat) < 8 ∧ (19 : Nat) < 20 := by decide

/-- The last slot, written and not written. -/
theorem witness_ResultReads :
    let s : State := { solution with result := Memory.writeBytes [] (slotBase 63) digest2.toList }
    s.state ≠ .dispatched ∧ 63 < s.maxBatch ∧ (7 : Nat) < 8 ∧ s.slotHolds 63 digest2 ∧
    ∀ j < 32, solution.result.read? (0x10000 + 32 * 63 + j) = none :=
  ⟨by decide, by decide, by decide, by unfold State.slotHolds; decide +kernel, fun _ _ => rfl⟩

theorem witness_ResultsAreBarredDuringABatch :
    running.state = .dispatched ∧ (0x030#32).toNat % 4 = 0 ∧ (0x030#32).toNat = 0x030 ∧
    (0x0A0 ≤ (0x0A0#32).toNat ∧ (0x0BC#32).toNat < 0x0C0) ∧
    (0x10000 ≤ (0x10000#32).toNat ∧ (0x107FC#32).toNat < 0x10000 + 32 * running.maxBatch) := by decide

theorem witness_StatusAndErrReads : 11 ≤ 11 ∧ 11 ≤ 31 := by decide

theorem witness_AddressMapIsExact :
    0x14C % 4 = 0 ∧ locate 64 0x14C = some (.word .hdr 19) ∧ locate 64 0x107FC = some (.result 63 7) ∧
    locate 64 0x150 = none := by decide

/-- The invariant of a state that no batch has run in yet. -/
theorem inv_loaded : loaded.Inv where
  resultWf := by decide
  resultIn := fun c h => nomatch h
  pendingWf := by decide
  pendingIn := fun c h => nomatch h
  pendingOnly := fun _ => rfl
  hitWf := by decide
  hitIn := fun c h => nomatch h
  offLe := by decide
  batchRange := by decide
  header := fun _ => rfl
  foundOnly := by decide
  exclusive := by decide
  verdict := by decide
  solvedFound := by decide
  neverMalformed := by decide
  noErrorNoInfo := fun _ => rfl

/-- A running batch of which no lane has stepped, lane 3 being next. -/
def atLane3 : State := { running with agenda := [.lane 3, .complete] }

theorem inv_atLane3 : atLane3.Inv where
  resultWf := by decide
  resultIn := fun c h => nomatch h
  pendingWf := by decide
  pendingIn := by decide
  pendingOnly := by decide
  hitWf := by decide
  hitIn := fun c h => nomatch h
  offLe := by decide
  batchRange := by decide
  header := fun _ => rfl
  foundOnly := by decide
  exclusive := by decide
  verdict := by decide
  solvedFound := by decide
  neverMalformed := by decide
  noErrorNoInfo := fun _ => rfl

theorem witness_StepKeepsTheInvariant : atLane3.Inv ∧ ∃ t, step atLane3 = .next t := ⟨inv_atLane3, _, rfl⟩

theorem witness_StepKeepsTheBatchFacts : atLane3.Inv ∧ atLane3.BatchDone ∧ ∃ t, step atLane3 = .next t :=
  ⟨inv_atLane3, fun _ i h hn => absurd (by revert i; decide) hn, _, rfl⟩

/-- The state after lane 3, in which one lane has stepped and the others have not. -/
theorem witness_StepKeepsTheBatchFacts_stepped :
    (running.laneStep 3).slotHolds 3 (candidate hdr1 (0x61bdd204#32 + BitVec.ofNat 32 3)) ∧
    3 ∉ (running.laneStep 3).pending ∧ 4 ∈ (running.laneStep 3).pending :=
  ⟨fun j h => slotHolds_laneStep running 3 j h, by decide, by decide⟩

/-- The events of a batch of one lane over the zero header, the target being written word 0 only: what comes before the
completion step. -/
def oneLane : List Event :=
  [.write 0x080#32 0xffffffff#32, .write 0x02C#32 1#32, commandEvent .loadHeader, commandEvent .submit, .lane 0]

/-- The state those events reach from reset. -/
def reached : State :=
  State.laneStep
    { base with
      target := setPortWord base.target 0 0xffffffff#32, batchSize := 1#32, state := .dispatched, hdrValid := true
      pending := [0] } 0

theorem reachable_of_run {s t : State} (n : Nat) (h : s.Reachable) (r : Host.Core.run Sys2Proof.core n s = .next t) :
    t.Reachable := by
  induction n generalizing s with
  | zero => cases r; exact h
  | succ n ih =>
    cases e : step s with
    | next u => rw [run_succ e] at r; exact ih (h.step e) r
    | fault f => cases f
    | refused f =>
      have e' : Sys2Proof.core.step s = .refused f := e
      simp only [Host.Core.run] at r
      rw [e'] at r
      cases r

theorem witness_ReachableStatesAreSound :
    reached.Reachable ∧ reached.state = .dispatched ∧ reached.pending = [] ∧
    perform .complete reached = .next reached.completeBatch ∧ reached.completeBatch.found = true :=
  ⟨reachable_of_run 5 (.reset 63 true oneLane) rfl, rfl, rfl, rfl, by decide +kernel⟩

/-- V-D2 with one lane a batch, from nonce 4: batch 0 has no solution, batch 1 has nonce 5. -/
def twoRounds : State := { loaded with target := hx 32 (2 ^ 252), nonceOffset := 4#32, batchSize := 1#32 }

theorem inv_twoRounds : twoRounds.Inv :=
  { inv_loaded with
    resultIn := fun c h => nomatch h
    pendingIn := fun c h => nomatch h
    offLe := by decide
    batchRange := by decide
    foundOnly := by decide
    exclusive := by decide
    verdict := by decide
    solvedFound := by decide }

theorem witness_FirstSolutionInNonceOrder :
    twoRounds.Inv ∧ twoRounds.state = .headerLoaded ∧ twoRounds.err = .none ∧ twoRounds.lanesReady = true ∧
    1 ≤ twoRounds.batchSize.toNat ∧ twoRounds.batchSize.toNat ≤ twoRounds.maxBatch ∧
    twoRounds.off + (1 + 1) * twoRounds.batchSize.toNat ≤ 2 ^ 32 ∧
    (∀ _r : Nat, [0].Perm (List.range twoRounds.batchSize.toNat)) ∧
    twoRounds.off + 1 * twoRounds.batchSize.toNat ≤ 5 ∧ 5 < twoRounds.off + (1 + 1) * twoRounds.batchSize.toNat ∧
    twoRounds.accepts 5 ∧ ∀ n', twoRounds.off ≤ n' → n' < 5 → ¬twoRounds.accepts n' := by
  refine ⟨inv_twoRounds, rfl, rfl, rfl, by decide, by decide, by decide, fun _ => by decide, by decide, by decide, ?_, ?_⟩
  · unfold State.accepts; decide +kernel
  · intro n' h h'
    have : twoRounds.off = 4 := by decide
    obtain rfl : n' = 4 := by omega
    unfold State.accepts
    decide +kernel

/-- V-D5, row 1, with TARGET = 0: one round fits. -/
def lastRound : State :=
  { loaded with target := zeroBytes 32, nonceOffset := 0xfffffff0#32, batchSize := 16#32 }

theorem inv_lastRound : lastRound.Inv :=
  { inv_loaded with
    resultIn := fun c h => nomatch h
    pendingIn := fun c h => nomatch h
    offLe := by decide
    batchRange := by decide
    foundOnly := by decide
    exclusive := by decide
    verdict := by decide
    solvedFound := by decide }

theorem witness_ExhaustionTerminates :
    lastRound.Inv ∧ lastRound.state = .headerLoaded ∧ lastRound.err = .none ∧ lastRound.lanesReady = true ∧
    1 ≤ lastRound.batchSize.toNat ∧ lastRound.batchSize.toNat ≤ lastRound.maxBatch ∧
    beVal lastRound.target.toList = 0 ∧
    (∀ _r : Nat, (List.range 16).Perm (List.range lastRound.batchSize.toNat)) ∧
    lastRound.off + 1 * lastRound.batchSize.toNat ≤ 2 ^ 32 ∧ 2 ^ 32 < lastRound.off + (1 + 1) * lastRound.batchSize.toNat :=
  ⟨inv_lastRound, rfl, rfl, rfl, by decide, by decide, by decide +kernel, fun _ => .refl _, by decide, by decide⟩

/-- The template of V-W2. -/
def template1 : Template :=
  [(.version, .int 1),
    (.previousblockhash, .str "00000000839a8e6886ab5951d76f411475428afc90947ee320161bbf18eb6048".toList),
    (.merkleroot, .str "9b0fc92260312ce44e74ef369f5c66bbb85848f2eddd5a7a1cde251e54ccfdd5".toList),
    (.time, .int 1231469744), (.bits, .str "1d00ffff".toList)]

/-- Every character of these is a hexadecimal digit. -/
theorem hexString_of_digits {s : List Char} {k : Nat} (h : s.length = k)
    (hs : s.all (fun c => (hexVal c).isSome) = true) : HexString s k :=
  ⟨h, fun c hc => (Option.isSome_iff_exists.1 (List.all_eq_true.1 hs c hc)).imp fun _ => hexVal_eq_some.1⟩

theorem witness_TemplateLoadsTheFields :
    template1.Has .version (.int (1 : Nat)) ∧ 1 ≤ 2 ^ 32 - 1 ∧
    template1.Has .time (.int (1231469744 : Nat)) ∧ 1231469744 ≤ 2 ^ 32 - 1 ∧
    (∃ s, template1.Has .previousblockhash (.str s) ∧ HexString s 64) ∧
    (∃ s, template1.Has .merkleroot (.str s) ∧ HexString s 64) ∧
    template1.Has .bits (.str "1d00ffff".toList) ∧ HexString "1d00ffff".toList 8 ∧ base.state ≠ .dispatched := by
  refine ⟨?_, by decide, ?_, by decide,
    ⟨"00000000839a8e6886ab5951d76f411475428afc90947ee320161bbf18eb6048".toList, ?_,
      hexString_of_digits (by decide +kernel) (by decide +kernel)⟩,
    ⟨"9b0fc92260312ce44e74ef369f5c66bbb85848f2eddd5a7a1cde251e54ccfdd5".toList, ?_,
      hexString_of_digits (by decide +kernel) (by decide +kernel)⟩,
    ?_, hexString_of_digits (by decide +kernel) (by decide +kernel), by decide⟩ <;>
  · unfold Template.Has
    decide +kernel

/-- A member out of range, one of the wrong length, one with a character that is no digit, and one that is missing
(V-C6). -/
theorem witness_TemplateLoadsTheFields_malformed :
    ¬JsonValue.Fits (.int (-1)) .version ∧ ¬JsonValue.Fits (.int 4294967296) .time ∧
    ¬JsonValue.Fits (.str "1d00fff".toList) .bits ∧ ¬JsonValue.Fits (.str "1d00fffg".toList) .bits ∧
    ∀ m ∈ template1.take 4, m.1 ≠ MemberName.bits := by
  have int : ∀ v : Int, (v < 0 ∨ 2 ^ 32 ≤ v) → ¬∃ n : Nat, n ≤ 2 ^ 32 - 1 ∧ JsonValue.int v = .int n := by
    rintro v hv ⟨n, hn, e⟩
    injection e with e
    omega
  have str : ∀ s : List Char, bitsField (.str s) = .error .malformedInput →
      ¬∃ t, HexString t 8 ∧ JsonValue.str s = .str t := by
    rintro s hs ⟨t, ht, e⟩
    rcases bitsField_cases (.str s) with ⟨_, _, _, _, _, h⟩ | ⟨h, _⟩
    · rw [hs] at h
      cases h
    · exact h t ht e
  exact ⟨int _ (by decide), int _ (by decide), str _ (by decide +kernel), str _ (by decide +kernel), by decide +kernel⟩

theorem witness_TemplateLoadsTheFields_nonce :
    4294967295 ≤ 2 ^ 32 - 1 ∧ base.state ≠ .dispatched ∧ ∀ v : Nat, v ≤ 2 ^ 32 - 1 → JsonValue.int (-1) ≠ .int v :=
  ⟨by decide, by decide, fun v _ h => by injection h with h; omega⟩

/-- V-W2, read as V-C1 gives it. -/
theorem test_parseTemplate :
    (parseTemplate template1).toOption.map (fun f => (f.version, f.time, f.bits, portWord f.prevHash 1)) =
      some (0x1#32, 0x4966bcb0#32, 0x1d00ffff#32, 0x688e9a83#32) := by decide +kernel

theorem witness_HostCommandRunsExec : loaded.agenda = [] ∧ ∃ t, exec .submit loaded = .next t := ⟨rfl, _, rfl⟩

end Sys2Proof.Tests
end

section
/-! PROOFS. Accesses that the port refuses before it looks at a register: the addresses that no location has (R65), and
what an access to one of them does. -/

namespace Sys2Proof.Machine

/-! ## The unmapped addresses (R63 to R65) -/

/-- The registers end below 0x038 (R63). -/
theorem Reg.offset_lt (r : Reg) : r.offset < 0x038 := by cases r <;> decide

/-- The arrays lie in the two ranges that the gaps of the map leave them (R63). -/
theorem Arr.extent (x : Arr) :
    (0x040 ≤ x.base ∧ x.base + 4 * x.words ≤ 0x0E0) ∨ (0x100 ≤ x.base ∧ x.base + 4 * x.words ≤ 0x150) := by
  cases x <;> decide

/-- The ranges that R63 and R64 leave free, the space past the RESULT window among them. -/
def Unmapped (slots a : Nat) : Prop :=
  (0x038 ≤ a ∧ a < 0x040) ∨ (0x0E0 ≤ a ∧ a < 0x100) ∨ (0x150 ≤ a ∧ a < 0x10000) ∨ 0x10000 + 32 * slots ≤ a

/-- No location has an address in an unmapped range: each kind of location lies between the gaps (R65). -/
theorem locate_eq_none_of_unmapped {slots a : Nat} (h : Unmapped slots a) : locate slots a = none := by
  unfold Unmapped at h
  refine Option.eq_none_iff_forall_ne_some.2 fun l hl => ?_
  obtain ⟨r, -, hr⟩ | ⟨x, k, -, hlo, hhi, hk⟩ | ⟨i, k, -, hi, hk, hlo, hhi⟩ := locate_cases hl
  · have := r.offset_lt
    omega
  · have := x.extent
    omega
  · unfold slotBase resultBase at hlo hhi
    omega

/-! ## Refused accesses (R65, R257, R258) -/

/-- A read of a misaligned or unmapped address is refused in every state. -/
theorem perform_read_bad {s : State} {a : Word} (h : a.toNat % 4 ≠ 0 ∨ Unmapped s.maxBatch a.toNat) :
    perform (.read a) s = .next (s.refuseRead a) :=
  congrArg _ (hostRead_refused (h.imp_right fun hu => .inl (locate_eq_none_of_unmapped hu)))

/-- A write to a misaligned or unmapped address is refused in every state. -/
theorem perform_write_bad {s : State} {a : Word} (v : Word) (h : a.toNat % 4 ≠ 0 ∨ Unmapped s.maxBatch a.toNat) :
    perform (.write a v) s = .next (s.refuseAccess a) :=
  hostWrite_refused (h.imp_right fun hu => .inl (locate_eq_none_of_unmapped hu))

/-- Settles O40: a misaligned or unmapped address fails the first two checks of R66 and R67, and an access of another
width is refused at any address. -/
theorem badAccessesAreRefused : Obligations.BadAccessesAreRefused := by
  unfold Obligations.BadAccessesAreRefused
  refine ⟨fun s a v h => ⟨?read, ?write⟩, fun s a n => ⟨?readWidth, ?writeWidth⟩⟩
  case read => exact perform_read_bad h
  case write => exact perform_write_bad v h
  case readWidth => rfl
  case writeWidth => rfl

end Sys2Proof.Machine
end

section
/-! PROOFS. Which step changes STATE, and to what (R24), after what a step and the gate of each command can do (R20,
R95); and that a step whose event is a write of a command word runs the command it decodes to (R94). -/

namespace Sys2Proof.Machine

/-! ## The rows of the table of transitions (R24) -/

/-- The transitions of STATE that commands make, a constructor for each row of the table of R24 that has a
command; SUBMIT enters Dispatched with every lane pending (R205). -/
inductive CommandTransition (s t : State) : Instr → Prop where
  | encodeHeader (source : s.state ≠ .dispatched ∧ s.state ≠ .resultsReady) (dest : t.state = .headerLoaded) :
    CommandTransition s t .encodeHeader
  | loadHeader (source : s.state ≠ .dispatched ∧ s.state ≠ .resultsReady) (dest : t.state = .headerLoaded) :
    CommandTransition s t .loadHeader
  | rearm (source : s.state = .idle) (header : s.hdrValid = true) (dest : t.state = .headerLoaded) :
    CommandTransition s t .rearm
  | submit (source : s.state = .headerLoaded) (accepted : t.err = .none)
      (lanes : t.pending = List.range t.batchSize.toNat) (dest : t.state = .dispatched) :
    CommandTransition s t .submit
  | exhausted (source : s.state = .headerLoaded) (refused : t.err = .searchSpaceExhausted) (dest : t.state = .idle) :
    CommandTransition s t .submit
  | solved (source : s.state = .resultsReady) (found : s.found = true) (dest : t.state = .solved) :
    CommandTransition s t .retire
  | unsolved (source : s.state = .resultsReady) (found : s.found = false) (dest : t.state = .idle) :
    CommandTransition s t .retire
  | softReset (source : s.state ≠ .dispatched) (dest : t.state = .idle) : CommandTransition s t .softReset

/-! ## One step (R20) -/

/-- All that a step can do: move the block on its own where no event is to come, else perform the first event. -/
theorem step_cases {s t : State} (h : step s = .next t) :
    (s.agenda = [] ∧ t = s.autonomous) ∨
    ∃ e rest, s.agenda = e :: rest ∧ perform e { s with agenda := rest } = .next t := by
  cases ha : s.agenda with
  | nil =>
    rw [step_nil ha] at h
    injection h with h
    exact .inl ⟨rfl, h.symm⟩
  | cons e rest => exact .inr ⟨e, rest, rfl, step_cons ha ▸ h⟩

/-! ## When a command is admitted (R95) -/

@[simp] theorem legal_encodeHeader (st : SearchState) (v : Bool) :
    legal .encodeHeader st v = true ↔ st ≠ .dispatched ∧ st ≠ .resultsReady := by cases st <;> simp [legal]

@[simp] theorem legal_loadHeader (st : SearchState) (v : Bool) :
    legal .loadHeader st v = true ↔ st ≠ .dispatched ∧ st ≠ .resultsReady := by cases st <;> simp [legal]

@[simp] theorem legal_submit (st : SearchState) (v : Bool) :
    legal .submit st v = true ↔ st = .headerLoaded := by cases st <;> simp [legal]

@[simp] theorem legal_retire (st : SearchState) (v : Bool) :
    legal .retire st v = true ↔ st = .resultsReady := by cases st <;> simp [legal]

@[simp] theorem legal_rearm (st : SearchState) (v : Bool) :
    legal .rearm st v = true ↔ st = .idle ∧ v = true := by cases st <;> simp [legal]

@[simp] theorem legal_softReset (st : SearchState) (v : Bool) :
    legal .softReset st v = true ↔ st ≠ .dispatched := by cases st <;> simp [legal]

/-- While a batch runs the state admits NOP and CLEAR_ERR only (R95). -/
theorem legal_dispatched {i : Instr} {v : Bool} (h : legal i .dispatched v = true) : i = .nop ∨ i = .clearErr := by
  cases i <;> simp_all [legal]

/-! ## A word and the command it decodes to (R91, R94) -/

/-- The OPC that selects a command is the number of its word (R91). -/
theorem toNat_encode_of_commandOfOpc {n : Nat} {i : Instr} (h : commandOfOpc n = some i) : (encode i).toNat = n := by
  unfold commandOfOpc at h
  split at h <;> cases h <;> rfl

/-- A word that decodes to a command is the command's one word (R91, R92). -/
theorem eq_encode_of_decode {w : Word} {i : Instr} (h : decode w = .ok i) : w = encode i := by
  obtain ⟨hrsv, hopc⟩ := (decode_eq_ok w i).1 h
  have hn := toNat_encode_of_commandOfOpc hopc
  refine BitVec.eq_of_toNat_eq ?_
  have hz : w.toNat / 2 ^ 8 % 2 ^ 24 = 0 := by
    simpa [BitVec.extractLsb'_toNat, Nat.shiftRight_eq_div_pow] using congrArg BitVec.toNat hrsv
  rw [BitVec.extractLsb'_toNat, Nat.shiftRight_zero] at hn
  omega

/-- Executing a word that decodes to a command runs the command (R94). -/
theorem executeWord_of_decode {v : Word} {i : Instr} (h : decode v = .ok i) (s : State) :
    executeWord v s = exec i s := by
  simp only [executeWord, h]

/-- Settles O4: the write to CMD passes every check of the port, and the word it carries is executed. -/
theorem stepRunsDecodedCommand : Obligations.StepRunsDecodedCommand := by
  unfold Obligations.StepRunsDecodedCommand
  refine ⟨fun s v i rest ha hv => ?_, fun s v i hv => ?_⟩
  · rw [step_cons ha, perform_write_cmd, executeWord_of_decode hv]
  · have hw : tableWord 32 v.toNat = v := BitVec.eq_of_toNat_eq (by simp [tableWord, Nat.mod_eq_of_lt v.isLt])
    have hs : s.withFetchWord 32 v.toNat = { s with agenda := .write 0x00000004#32 v :: s.agenda } := by
      rw [State.withFetchWord, hw]; rfl
    rw [hs, step_agenda_cons, perform_write_cmd, executeWord_of_decode hv]

/-! ## What leaves STATE as it is -/

@[simp] theorem hostRead_state (s : State) (a : Word) : (s.hostRead a).state = s.state := by
  obtain e | ⟨l, -, e⟩ := hostRead_cases s a <;> rw [e]
  · rfl
  · obtain ⟨d, hd⟩ := afterRead_eq s l
    rw [hd]; rfl

@[simp] theorem setLoc_state (s : State) (v : Word) (l : Loc) : (s.setLoc v l).state = s.state := by
  cases l with
  | reg r => cases r <;> rfl
  | word a k => cases a <;> rfl
  | result i k => rfl

@[simp] theorem laneTurn_state (s : State) (i : Nat) : (s.laneTurn i).state = s.state := by
  obtain e | ⟨-, -, e⟩ := laneTurn_cases s i <;> rw [e]
  rfl

@[simp] theorem computeTarget_state (s : State) : s.computeTarget.state = s.state := by
  obtain ⟨-, e⟩ | ⟨t, -, e⟩ := computeTarget_cases s <;> rw [e]
  rfl

/-! ## Every transition is a row of the table (R24) -/

/-- The effect of a command that passes the gate leaves STATE or makes a transition of the table. -/
theorem effectOf_transition {i : Instr} {s : State} (he : s.err = .none ∨ runsWhilePending i = true)
    (hl : legal i s.state s.hdrValid = true) :
    (effectOf i s).state = s.state ∨ CommandTransition s (effectOf i s) i := by
  cases i with
  | nop | setNonce | hash1 | hash2 | clearErr => exact .inl rfl
  | encodeHeader => exact .inr (.encodeHeader ((legal_encodeHeader _ _).1 hl) rfl)
  | loadHeader => exact .inr (.loadHeader ((legal_loadHeader _ _).1 hl) rfl)
  | computeTarget => exact .inl (computeTarget_state s)
  | submit =>
    have hs := (legal_submit _ _).1 hl
    have he : s.err = .none := he.resolve_right (by simp [runsWhilePending])
    rw [effectOf]
    obtain ⟨-, e⟩ | ⟨-, -, -, e⟩ | ⟨-, -, -, -, e⟩ | ⟨-, -, -, -, e⟩ := submit_cases s <;> rw [e]
    · exact .inl rfl
    · exact .inr (.exhausted hs (by simp [he]) rfl)
    · exact .inl rfl
    · exact .inr (.submit hs he rfl rfl)
  | retire =>
    have hs := (legal_retire _ _).1 hl
    rw [effectOf]
    obtain ⟨hf, e⟩ | ⟨hf, lo, hi, e, -⟩ := retire_cases s <;> rw [e]
    · exact .inr (.solved hs hf rfl)
    · exact .inr (.unsolved hs hf rfl)
  | rearm =>
    obtain ⟨hs, hv⟩ := (legal_rearm _ _).1 hl
    exact .inr (.rearm hs hv rfl)
  | softReset => exact .inr (.softReset ((legal_softReset _ _).1 hl) rfl)

theorem exec_transition {i : Instr} {s t : State} (h : exec i s = .next t) :
    t.state = s.state ∨ CommandTransition s t i := by
  obtain ⟨-, -, rfl⟩ | ⟨-, -, rfl⟩ | ⟨he, hl, rfl⟩ := exec_cases h
  · exact .inl rfl
  · exact .inl rfl
  · exact effectOf_transition he hl

/-- An event leaves STATE, or it is the write of the command, the completion step or the reset of a row of the table. -/
theorem perform_transition {e : Event} {s t : State} (h : perform e s = .next t) :
    t.state = s.state ∨ (∃ i, e = .write 0x00000004#32 (encode i) ∧ CommandTransition s t i) ∨
    (e = .complete ∧ s.state = .dispatched ∧ s.pending = [] ∧ t.state = .resultsReady) ∨
    (e = .rstN ∧ t.state = .idle) := by
  cases e with
  | read a => injection h with h; exact .inl (by rw [← h, hostRead_state])
  | write a v =>
    obtain rfl | ⟨rfl, hx⟩ | ⟨l, -, -, -, -, rfl⟩ := hostWrite_cases h
    · exact .inl rfl
    · obtain ⟨-, rfl⟩ | ⟨i, hv, hi⟩ := executeWord_cases hx
      · exact .inl rfl
      · exact (exec_transition hi).imp_right fun ht => .inl ⟨i, by rw [eq_encode_of_decode hv], ht⟩
    · exact .inl (setLoc_state s v l)
  | readWidth a n | writeWidth a n | lanesReady b => injection h with h; exact .inl (congrArg State.state h).symm
  | lane i => injection h with h; exact .inl (by rw [← h, laneTurn_state])
  | complete =>
    injection h with h
    obtain e | ⟨hd, hp, e⟩ := completionTurn_cases s <;> rw [← h, e]
    · exact .inl rfl
    · exact .inr (.inr (.inl ⟨rfl, hd, hp, completeBatch_state s⟩))
  | rstN => injection h with h; exact .inr (.inr (.inr ⟨rfl, h ▸ rfl⟩))

/-- The block left to itself leaves STATE or completes a batch. -/
theorem autonomous_transition (s : State) :
    s.autonomous.state = s.state ∨
      (s.state = .dispatched ∧ s.pending = [] ∧ s.autonomous.state = .resultsReady) := by
  obtain ⟨-, e⟩ | ⟨hd, hp, e⟩ | ⟨hd, i, hi, -, e⟩ := autonomous_cases s <;> rw [e]
  · exact .inl rfl
  · exact .inr ⟨hd, hp, completeBatch_state s⟩
  · exact .inl rfl

/-- The states in which ENCODE_HEADER and LOAD_HEADER are legal, by name (R95). -/
theorem state_cases_of_no_batch {st : SearchState} (h : st ≠ .dispatched ∧ st ≠ .resultsReady) :
    st = .idle ∨ st = .headerLoaded ∨ st = .solved := by
  cases st <;> simp_all

/-- Settles O36: the block left to itself leaves STATE or completes the batch, and the transition an event makes is the
row of its command, of the completion step or of rst_n. -/
theorem onlyTheseTransitions : Obligations.OnlyTheseTransitions := by
  unfold Obligations.OnlyTheseTransitions
  intro s t h
  obtain ⟨ha, rfl⟩ | ⟨e, rest, ha, h⟩ := step_cases h
  · exact (autonomous_transition s).imp_right fun ht => .inl ⟨ha, ht⟩
  · refine (perform_transition h).imp_right fun ht => .inr ⟨e, rest, ha, ?_⟩
    obtain ⟨i, rfl, hi⟩ | hc | hr := ht
    · cases hi with
      | encodeHeader hs ht => exact .inl ⟨.inl rfl, state_cases_of_no_batch hs, ht⟩
      | loadHeader hs ht => exact .inl ⟨.inr rfl, state_cases_of_no_batch hs, ht⟩
      | rearm hs hv ht => exact .inr (.inl ⟨rfl, hs, hv, ht⟩)
      | submit hs he _ ht => exact .inr (.inr (.inl ⟨rfl, hs, he, ht⟩))
      | exhausted hs he ht => exact .inr (.inr (.inr (.inl ⟨rfl, hs, he, ht⟩)))
      | solved hs hf ht => exact .inr (.inr (.inr (.inr (.inr (.inl ⟨rfl, hs, hf, ht⟩)))))
      | unsolved hs hf ht => exact .inr (.inr (.inr (.inr (.inr (.inr (.inl ⟨rfl, hs, hf, ht⟩))))))
      | softReset hs ht => exact .inr (.inr (.inr (.inr (.inr (.inr (.inr (.inl ⟨rfl, hs, ht⟩)))))))
    · exact .inr (.inr (.inr (.inr (.inl hc))))
    · exact .inr (.inr (.inr (.inr (.inr (.inr (.inr (.inr hr)))))))

end Sys2Proof.Machine
end

section
/-! PROOFS. What each operation of the block does to `State.Inv`: the error record, the port, the commands, the lanes
and the completion step, the resets; and that every step keeps it. -/

namespace Sys2Proof.Machine

/-! ## The state a reset leaves (R281) -/

/-- What a reset leaves meets the invariant, whatever the parameter, the input and the model's own fields are. -/
theorem inv_reset (m : Fin 134215680) (level : Bool) (events : List Event) (data : Option Word) (d : Nat) :
    ({ State.reset with
        maxBatchLessOne := m, lanesReady := level, agenda := events, readData := data, draws := d } : State).Inv where
  resultWf := .nil
  resultIn := by simp [State.reset]
  pendingWf := .nil
  pendingIn := by simp [State.reset]
  pendingOnly := fun _ => rfl
  hitWf := .nil
  hitIn := by simp [State.reset]
  offLe := by simp [State.off, State.reset]
  batchRange := by simp [State.reset]
  header := by simp [State.reset]
  foundOnly := by simp [State.reset]
  exclusive := by simp [State.reset]
  verdict := by simp [State.reset]
  solvedFound := by simp [State.reset]
  neverMalformed := by simp [State.reset]
  noErrorNoInfo := fun _ => rfl

theorem inv_resetBlock (s : State) : s.resetBlock.Inv := inv_reset _ _ _ _ _

/-! ## The error record (R252, R254) -/

/-- Raising an error the block can raise. -/
theorem inv_raise {s : State} (h : s.Inv) {e : ErrCode} (info : Word) (hn : e ≠ .none) (hm : e ≠ .malformedInput) :
    (s.raise e info).Inv :=
  { h with
    neverMalformed := by
      rw [State.raise_err]
      split
      · exact hm
      · exact h.neverMalformed
    noErrorNoInfo := by
      rw [State.raise_err, State.raise_errInfo]
      split
      · exact fun he => absurd he hn
      · exact h.noErrorNoInfo }

theorem inv_refuseAccess {s : State} (h : s.Inv) (a : Word) : (s.refuseAccess a).Inv :=
  inv_raise h a (by simp) (by simp)

theorem inv_clearError {s : State} (h : s.Inv) : s.clearError.Inv :=
  { h with neverMalformed := by simp, noErrorNoInfo := fun _ => rfl }

/-! ## The port (R66, R67) -/

theorem inv_hostRead {s : State} (h : s.Inv) (a : Word) : (s.hostRead a).Inv := by
  obtain e | ⟨l, -, e⟩ := hostRead_cases s a <;> rw [e]
  · exact { inv_refuseAccess h a with }
  · obtain ⟨d, hd⟩ := afterRead_eq s l
    rw [hd]
    exact { h with }

/-- A write to BATCH_SIZE or NONCE_OFFSET passes the locks only where no batch stands (R68). -/
theorem state_of_writeLocked {s : State} {r : Reg} (hl : (Loc.reg r).batchLocked = true)
    (hk : s.writeLocked (.reg r) = false) : s.state ≠ .dispatched ∧ s.state ≠ .resultsReady := by
  have hd : (Loc.reg r).locked = true := by cases r <;> simp_all [Loc.locked, Loc.batchLocked]
  simpa [State.writeLocked, hl, hd] using hk

/-- A write that the locks of R68 let pass. -/
theorem inv_setLoc {s : State} (h : s.Inv) {l : Loc} (v : Word) (hk : s.writeLocked l = false) :
    (s.setLoc v l).Inv := by
  cases l with
  | result i k => exact h
  | word a k => cases a <;> exact { h with }
  | reg r =>
    cases r with
    | nonceOffset =>
      obtain ⟨hd, hr⟩ := state_of_writeLocked rfl hk
      exact { h with
        offLe := by simpa [State.off, State.setLoc, State.setReg] using v.isLt.le
        batchRange := fun hs => absurd hs (not_or.2 ⟨hd, hr⟩) }
    | batchSize =>
      obtain ⟨hd, hr⟩ := state_of_writeLocked rfl hk
      exact { h with
        pendingIn := by simp [State.setLoc, State.setReg, h.pendingOnly hd]
        batchRange := fun hs => absurd hs (not_or.2 ⟨hd, hr⟩) }
    | id | cmd | status | err | errInfo | solNonce | maxBatch => exact h
    | irqEn | version | time | bits | nonce => exact { h with }

/-! ## The commands (R131 to R222) -/

/-- FOUND is 0 where no solution stands (R24, R26). -/
theorem State.Inv.found_eq_false {s : State} (h : s.Inv) (hr : s.state ≠ .resultsReady) (hs : s.state ≠ .solved) :
    s.found = false :=
  Bool.eq_false_iff.2 fun hf => (h.foundOnly hf).elim hr hs

/-- ENCODE_HEADER and LOAD_HEADER enter HeaderLoaded from a state without lanes. -/
theorem inv_commitHeader {s : State} (h : s.Inv) (hd : s.state ≠ .dispatched) : s.commitHeader.Inv :=
  { h with
    pendingOnly := fun _ => h.pendingOnly hd
    batchRange := by simp
    header := fun _ => rfl
    foundOnly := by simp
    exclusive := by simp
    verdict := by simp
    solvedFound := by simp }

theorem inv_computeTarget {s : State} (h : s.Inv) : s.computeTarget.Inv := by
  obtain ⟨-, e⟩ | ⟨t, -, e⟩ := computeTarget_cases s <;> rw [e]
  · exact inv_raise h _ (by simp) (by simp)
  · exact { h with }

/-- SUBMIT records an error, ends the search at the end of the nonce space, or dispatches a batch of legal range. -/
theorem inv_submit {s : State} (h : s.Inv) (hl : s.state = .headerLoaded) : s.submit.Inv := by
  have hf : s.found = false := h.found_eq_false (by simp [hl]) (by simp [hl])
  obtain ⟨-, e⟩ | ⟨-, -, -, e⟩ | ⟨-, -, -, -, e⟩ | ⟨h1, h2, h3, -, e⟩ := submit_cases s <;> rw [e]
  · exact inv_raise h _ (by simp) (by simp)
  · exact { inv_raise h (e := .searchSpaceExhausted) (encode .submit) (by simp) (by simp) with
      pendingOnly := fun _ => h.pendingOnly (by simp [hl])
      batchRange := by simp
      header := by simp
      foundOnly := by simp [hf]
      verdict := by simp
      solvedFound := by simp }
  · exact inv_raise h _ (by simp) (by simp)
  · exact { h with
      pendingWf := List.pairwise_lt_range
      pendingIn := by simp
      pendingOnly := by simp
      batchRange := fun _ => ⟨h1, h2, h3⟩
      header := fun _ => h.header (by simp [hl])
      foundOnly := by simp
      exclusive := by simp
      verdict := by simp
      solvedFound := by simp }

/-- RETIRE keeps the solution, or advances the offset to the end of the batch, which is at most 2^32. -/
theorem inv_retire {s : State} (h : s.Inv) (hl : s.state = .resultsReady) : s.retire.Inv := by
  have hp : s.pending = [] := h.pendingOnly (by simp [hl])
  obtain ⟨hf, e⟩ | ⟨hf, lo, hi, e, hoff⟩ := retire_cases s <;> rw [e]
  · exact { h with
      pendingOnly := fun _ => hp
      batchRange := by simp
      header := fun _ => h.header (by simp [hl])
      foundOnly := by simp
      verdict := by simp
      solvedFound := fun _ => hf }
  · obtain ⟨-, -, hle⟩ := h.batchRange (.inr hl)
    exact { h with
      pendingOnly := fun _ => hp
      offLe := (hoff hle).trans_le hle
      batchRange := by simp
      header := by simp
      foundOnly := by simp [hf]
      verdict := by simp
      solvedFound := by simp }

/-- REARM enters HeaderLoaded from Idle with a header. -/
theorem inv_rearm {s : State} (h : s.Inv) (hi : s.state = .idle) (hv : s.hdrValid = true) :
    ({ s with state := .headerLoaded } : State).Inv :=
  { h with
    pendingOnly := fun _ => h.pendingOnly (by simp [hi])
    batchRange := by simp
    header := fun _ => hv
    foundOnly := by simp [h.found_eq_false (by simp [hi]) (by simp [hi])]
    verdict := by simp
    solvedFound := by simp }

/-- The effect of a command that the state admits. -/
theorem inv_effectOf {s : State} (h : s.Inv) {i : Instr} (hl : legal i s.state s.hdrValid = true) :
    (effectOf i s).Inv := by
  cases i with
  | nop => exact h
  | encodeHeader => exact { inv_commitHeader h ((legal_encodeHeader _ _).1 hl).1 with }
  | loadHeader => exact inv_commitHeader h ((legal_loadHeader _ _).1 hl).1
  | setNonce | hash1 | hash2 => exact { h with }
  | computeTarget => exact inv_computeTarget h
  | submit => exact inv_submit h ((legal_submit _ _).1 hl)
  | retire => exact inv_retire h ((legal_retire _ _).1 hl)
  | rearm =>
    obtain ⟨hi, hv⟩ := (legal_rearm _ _).1 hl
    exact inv_rearm h hi hv
  | clearErr => exact inv_clearError h
  | softReset => exact inv_resetBlock s

theorem inv_exec {i : Instr} {s t : State} (h : s.Inv) (ht : exec i s = .next t) : t.Inv := by
  obtain ⟨-, -, rfl⟩ | ⟨-, -, rfl⟩ | ⟨-, hl, rfl⟩ := exec_cases ht
  · exact h
  · exact inv_raise h _ (by simp) (by simp)
  · exact inv_effectOf h hl

theorem inv_executeWord {v : Word} {s t : State} (h : s.Inv) (ht : executeWord v s = .next t) : t.Inv := by
  obtain ⟨-, rfl⟩ | ⟨i, -, hi⟩ := executeWord_cases ht
  · exact inv_raise h _ (by simp) (by simp)
  · exact inv_exec h hi

/-! ## The lanes and the completion step (R210, R213) -/

/-- The slot and the HIT bit of a pending lane lie inside the buffers, the batch being no larger than MAX_BATCH. -/
theorem inv_laneStep {s : State} (h : s.Inv) {i : Nat} (hd : s.state = .dispatched) (hi : i ∈ s.pending) :
    (s.laneStep i).Inv := by
  obtain ⟨-, hb, -⟩ := h.batchRange (.inl hd)
  have hlt : i < s.maxBatch := (h.pendingIn i hi).trans_le hb
  exact { h with
    resultWf := Memory.wf_writeBytes _ _ h.resultWf
    resultIn := fun c hc => by
      rcases Memory.mem_writeBytes hc with ⟨hlo, hhi⟩ | hc
      · rw [Vector.length_toList] at hhi
        unfold slotBase at hlo hhi
        rw [State.laneStep_maxBatch]
        omega
      · exact h.resultIn c hc
    pendingWf := IndexSet.wf_remove i h.pendingWf
    pendingIn := fun j hj => h.pendingIn j (IndexSet.mem_remove.1 hj).1
    pendingOnly := fun hs => absurd hd hs
    hitWf := IndexSet.wf_put _ _ h.hitWf
    hitIn := fun j hj => by
      rcases IndexSet.mem_put.1 hj with ⟨rfl, -⟩ | ⟨-, hj⟩
      · exact hlt
      · exact h.hitIn j hj }

/-- The completion step keeps the batch's range and records its verdict. -/
theorem inv_completeBatch {s : State} (h : s.Inv) (hd : s.state = .dispatched) (hp : s.pending = []) :
    s.completeBatch.Inv := by
  have hh : s.hdrValid = true := h.header (by simp [hd])
  obtain ⟨m, d, -, e⟩ | ⟨-, e⟩ := completeBatch_cases s <;> rw [e] <;>
  exact { h with
    pendingOnly := fun _ => hp
    batchRange := fun _ => h.batchRange (.inl hd)
    header := fun _ => hh
    foundOnly := by simp
    exclusive := by simp
    verdict := by simp
    solvedFound := by simp }

/-! ## Every step -/

theorem inv_perform {e : Event} {s t : State} (h : s.Inv) (ht : perform e s = .next t) : t.Inv := by
  cases e with
  | read a => injection ht with ht; exact ht ▸ inv_hostRead h a
  | write a v =>
    obtain rfl | ⟨-, hx⟩ | ⟨l, -, -, -, hk, rfl⟩ := hostWrite_cases ht
    · exact inv_refuseAccess h a
    · exact inv_executeWord h hx
    · exact inv_setLoc h v hk
  | readWidth a n => injection ht with ht; exact ht ▸ { inv_refuseAccess h a with }
  | writeWidth a n => injection ht with ht; exact ht ▸ inv_refuseAccess h a
  | lane i =>
    injection ht with ht
    obtain e | ⟨hd, hi, e⟩ := laneTurn_cases s i <;> rw [← ht, e]
    · exact h
    · exact inv_laneStep h hd hi
  | complete =>
    injection ht with ht
    obtain e | ⟨hd, hp, e⟩ := completionTurn_cases s <;> rw [← ht, e]
    · exact h
    · exact inv_completeBatch h hd hp
  | rstN => injection ht with ht; exact ht ▸ inv_resetBlock s
  | lanesReady b => injection ht with ht; exact ht ▸ { h with }

theorem inv_autonomous {s : State} (h : s.Inv) : s.autonomous.Inv := by
  obtain ⟨-, e⟩ | ⟨hd, hp, e⟩ | ⟨hd, i, hi, -, e⟩ := autonomous_cases s <;> rw [e]
  · exact h
  · exact inv_completeBatch h hd hp
  · exact { inv_laneStep h hd hi with }

/-- What the block does left to itself and each event keep the invariant; the events to come are no part of it. -/
theorem inv_step {s t : State} (h : s.Inv) (ht : step s = .next t) : t.Inv := by
  obtain ⟨-, rfl⟩ | ⟨e, rest, -, hp⟩ := step_cases ht
  · exact inv_autonomous h
  · exact inv_perform (s := { s with agenda := rest }) { h with } hp

/-- Settles O53: every event and the block left to itself keep the invariant, by the operation each performs. -/
theorem stepKeepsTheInvariant : Obligations.StepKeepsTheInvariant := by
  unfold Obligations.StepKeepsTheInvariant
  exact fun s t h ht => inv_step h ht

end Sys2Proof.Machine
end

section
/-! PROOFS. What the port does to the registers and the byte arrays that the host writes (R67), and the fields of the
STATUS and ERR words it reads (R32, R33). -/

namespace Sys2Proof.Machine

/-! ## Writes that are not refused (R67, R68) -/

/-- Outside Dispatched no lock stands on a location, unless it is batch-locked and STATE is ResultsReady (R68). -/
theorem writeLocked_eq_false {s : State} {l : Loc} (hd : s.state ≠ .dispatched)
    (hb : s.state ≠ .resultsReady ∨ l.batchLocked = false) : s.writeLocked l = false := by
  obtain hr | hb := hb
  · simp [State.writeLocked, hd, hr]
  · simp [State.writeLocked, hd, hb]

/-- A write to a writable register other than CMD, where no lock stands on it (R68). -/
theorem perform_write_unlocked_reg (r : Reg) {s : State} (v : Word) (hd : s.state ≠ .dispatched)
    (hb : s.state ≠ .resultsReady ∨ (Loc.reg r).batchLocked = false) (hro : (Loc.reg r).readOnly = false := by rfl)
    (hc : Loc.reg r ≠ .reg .cmd := by simp) :
    perform (.write (BitVec.ofNat 32 r.offset) v) s = .next (s.setReg v r) :=
  perform_write_reg r rfl hro hc (writeLocked_eq_false hd hb)

/-- Settles O42: IRQ_EN has no lock, and each other register is written where none stands on it. -/
theorem scalarWritesLand : Obligations.ScalarWritesLand := by
  unfold Obligations.ScalarWritesLand
  intro s v
  refine ⟨?irqEn, fun hd => ⟨?version, ?time, ?bits, ?nonce, fun hr => ⟨?nonceOffset, ?batchSize⟩⟩⟩
  case irqEn =>
    exact perform_write_reg .irqEn rfl rfl (by simp) (by simp [State.writeLocked, Loc.locked, Loc.batchLocked])
  case version => exact perform_write_unlocked_reg .version v hd (.inr rfl)
  case time => exact perform_write_unlocked_reg .time v hd (.inr rfl)
  case bits => exact perform_write_unlocked_reg .bits v hd (.inr rfl)
  case nonce => exact perform_write_unlocked_reg .nonce v hd (.inr rfl)
  case nonceOffset => exact perform_write_unlocked_reg .nonceOffset v hd (.inl hr)
  case batchSize => exact perform_write_unlocked_reg .batchSize v hd (.inl hr)

/-- Settles O43: the write of a word of an array that the host may write is a write of that array's port word. -/
theorem arrayWritesLand : Obligations.ArrayWritesLand := by
  unfold Obligations.ArrayWritesLand
  intro s k v hd
  refine ⟨fun hk => ⟨⟨_, ?prevHash, getElem_setPortWord s.prevHash k v⟩,
    ⟨_, ?merkleRoot, getElem_setPortWord s.merkleRoot k v⟩, ⟨_, ?target, getElem_setPortWord s.target k v⟩⟩,
    fun hk => ⟨_, ?hdr, getElem_setPortWord s.hdr k v⟩⟩
  case prevHash => exact perform_write_word .prevHash hk hd rfl
  case merkleRoot => exact perform_write_word .merkleRoot hk hd rfl
  case target => exact perform_write_word .target hk hd rfl
  case hdr => exact perform_write_word .hdr hk hd rfl

/-! ## The STATUS and ERR words (R32, R33) -/

/-- The flags of STATUS above the field STATE, bit 3 first (R32). -/
def State.statusFlags (s : State) : List Bool :=
  [s.hdrValid, s.found, s.nsr, s.offsetHi, s.errPend, s.irq, s.dbgHit, s.lanesReady]

theorem statusFlags_length (s : State) : s.statusFlags.length = 8 := rfl

theorem SearchState.code_lt (st : SearchState) : st.code < 2 ^ 3 := by cases st <;> decide

/-- The value of the flags, bit by bit. -/
theorem toNat_statusFlags (s : State) :
    (BitVec.ofBoolListLE s.statusFlags).toNat =
      s.hdrValid.toNat + 2 * (s.found.toNat + 2 * (s.nsr.toNat + 2 * (s.offsetHi.toNat + 2 * (s.errPend.toNat + 2 *
        (s.irq.toNat + 2 * (s.dbgHit.toNat + 2 * s.lanesReady.toNat)))))) := by
  simp [State.statusFlags, BitVec.ofBoolListLE]
  omega

/-- STATUS is the field STATE in bits 2:0 with the flags above it (R32). -/
theorem statusWord_eq (s : State) :
    s.statusWord = (BitVec.ofBoolListLE s.statusFlags).setWidth 29 ++ BitVec.ofNat 3 s.state.code := by
  refine BitVec.eq_of_toNat_eq ?_
  have hc := s.state.code_lt
  have hf : (BitVec.ofBoolListLE s.statusFlags).toNat < 2 ^ 8 := BitVec.isLt _
  rw [BitVec.toNat_append, BitVec.toNat_setWidth, BitVec.toNat_ofNat, Nat.mod_eq_of_lt hc,
    Nat.mod_eq_of_lt (by omega), ← Nat.shiftLeft_add_eq_or_of_lt hc, Nat.shiftLeft_eq, toNat_statusFlags,
    State.statusWord, BitVec.toNat_ofNat]
  rw [toNat_statusFlags] at hf
  omega

/-- The field STATE of STATUS (R32). -/
theorem extract_statusWord (s : State) : (s.statusWord.extractLsb' 0 3).toNat = s.state.code := by
  have hc := s.state.code_lt
  rw [BitVec.extractLsb'_toNat, Nat.shiftRight_zero, State.statusWord, BitVec.toNat_ofNat]
  omega

/-- A bit of STATUS above the field STATE is its flag, or 0 past the last (R32, R72). -/
theorem getLsbD_statusWord (s : State) (i : Nat) : s.statusWord.getLsbD (3 + i) = s.statusFlags.getD i false := by
  rw [statusWord_eq, BitVec.getLsbD_append, if_neg (by omega), Nat.add_sub_cancel_left, BitVec.getLsbD_setWidth,
    BitVec.getLsbD_ofBoolListLE, Bool.and_eq_right_iff_imp, decide_eq_true_eq]
  intro hi
  by_contra hn
  rw [List.getD_eq_default _ _ (by rw [statusFlags_length]; omega)] at hi
  cases hi

/-- Settles O48: a read of STATUS or ERR is never refused, and the words are the field STATE with the flags above it and
the number of the error code. -/
theorem statusAndErrReads : Obligations.StatusAndErrReads := by
  unfold Obligations.StatusAndErrReads
  intro s
  have flag := getLsbD_statusWord s
  refine ⟨⟨s.statusWord, ?readStatus, ?state, flag 0, flag 1, flag 2, flag 3, flag 4, flag 5, flag 6, flag 7,
    fun n hn => ?reserved⟩, ⟨s.errWord, ?readErr, ?code⟩⟩
  case readStatus => exact perform_read_reg .status rfl (by simp [Loc.barred])
  case state => rw [extract_statusWord]; cases s.state <;> rfl
  case reserved =>
    obtain ⟨k, rfl⟩ := Nat.exists_eq_add_of_le hn
    rw [show 11 + k = 3 + (8 + k) by omega, flag]
    exact List.getD_eq_default _ _ (by rw [statusFlags_length]; omega)
  case readErr => exact perform_read_reg .err rfl (by simp [Loc.barred])
  case code => rw [State.errWord]; cases s.err <;> rfl

end Sys2Proof.Machine
end

section
/-! PROOFS. What can happen while a batch runs (R68, R81, R95); that every step keeps `State.BatchDone`; and that in the
states a run reaches a completion reports only an accepted digest (R213). -/

namespace Sys2Proof.Machine

/-! ## What can happen while a batch runs -/

/-- `t` is `s` but for what no batch depends on: the error record, IRQ_EN, the input and the model's own fields. -/
def State.SameBatch (s t : State) : Prop :=
  t = { s with
    err := t.err, errInfo := t.errInfo, irqEn := t.irqEn, lanesReady := t.lanesReady, agenda := t.agenda
    readData := t.readData, draws := t.draws }

theorem sameBatch_hostRead (s : State) (a : Word) : s.SameBatch (s.hostRead a) := by
  obtain e | ⟨l, -, e⟩ := hostRead_cases s a <;> rw [e]
  · rfl
  · obtain ⟨d, hd⟩ := afterRead_eq s l
    rw [hd]; rfl

/-- The locks of a running batch let a write reach IRQ_EN only (R68). -/
theorem sameBatch_setLoc {s : State} {l : Loc} (v : Word) (hd : s.state = .dispatched)
    (hk : s.writeLocked l = false) : s.SameBatch (s.setLoc v l) := by
  have hl : l.locked = false := by
    rw [State.writeLocked, Bool.or_eq_false_iff] at hk
    simpa [hd] using hk.1
  cases l with
  | result i k => rfl
  | word a k =>
    cases a with
    | prevHash | merkleRoot | target | hdr => cases hl
    | solDigest | dbgDigest => rfl
  | reg r =>
    cases r with
    | version | time | bits | nonce | nonceOffset | batchSize => cases hl
    | id | cmd | status | err | errInfo | irqEn | solNonce | maxBatch => rfl

/-- While a batch runs a command changes the error record only (R95). -/
theorem sameBatch_exec {i : Instr} {s t : State} (hd : s.state = .dispatched) (h : exec i s = .next t) :
    s.SameBatch t := by
  obtain ⟨-, -, rfl⟩ | ⟨-, -, rfl⟩ | ⟨-, hl, rfl⟩ := exec_cases h
  · rfl
  · rfl
  · rw [hd] at hl
    obtain rfl | rfl := legal_dispatched hl <;> rfl

theorem sameBatch_executeWord {v : Word} {s t : State} (hd : s.state = .dispatched) (h : executeWord v s = .next t) :
    s.SameBatch t := by
  obtain ⟨-, rfl⟩ | ⟨i, -, hi⟩ := executeWord_cases h
  · rfl
  · exact sameBatch_exec hd hi

/-- All that an event can do while a batch runs: leave the batch, step a pending lane, complete it, or abort it. -/
theorem perform_dispatched {e : Event} {s t : State} (hd : s.state = .dispatched) (h : perform e s = .next t) :
    s.SameBatch t ∨ (∃ i ∈ s.pending, e = .lane i ∧ t = s.laneStep i) ∨
    (e = .complete ∧ s.pending = [] ∧ t = s.completeBatch) ∨ (e = .rstN ∧ t = s.resetBlock) := by
  cases e with
  | read a => injection h with h; exact .inl (h ▸ sameBatch_hostRead s a)
  | write a v =>
    obtain rfl | ⟨-, hx⟩ | ⟨l, -, -, -, hk, rfl⟩ := hostWrite_cases h
    · exact .inl rfl
    · exact .inl (sameBatch_executeWord hd hx)
    · exact .inl (sameBatch_setLoc v hd hk)
  | readWidth a n | writeWidth a n | lanesReady b => injection h with h; subst h; exact .inl rfl
  | lane i =>
    injection h with h
    obtain e | ⟨-, hi, e⟩ := laneTurn_cases s i
    · exact .inl (by rw [← h, e]; rfl)
    · exact .inr (.inl ⟨i, hi, rfl, h.symm.trans e⟩)
  | complete =>
    injection h with h
    obtain e | ⟨-, hp, e⟩ := completionTurn_cases s
    · exact .inl (by rw [← h, e]; rfl)
    · exact .inr (.inr (.inl ⟨rfl, hp, h.symm.trans e⟩))
  | rstN => injection h with h; exact .inr (.inr (.inr ⟨rfl, h.symm⟩))

/-! ## The batch facts (R210) -/

theorem batchDone_of_not_dispatched {s : State} (h : s.state ≠ .dispatched) : s.BatchDone := fun hd => absurd hd h

/-- No lane has stepped yet where every lane of the batch is pending. -/
theorem batchDone_of_all_pending {s : State} (h : s.pending = List.range s.batchSize.toNat) : s.BatchDone :=
  fun _ _ hi hn => absurd (h ▸ List.mem_range.2 hi) hn

theorem batchDone_of_sameBatch {s t : State} (h : s.BatchDone) (hst : s.SameBatch t) : t.BatchDone := by
  rw [hst]; exact h

/-- A lane step adds the facts of its own lane and keeps those of the others (R210, R212). -/
theorem batchDone_laneStep {s : State} (h : s.BatchDone) (i : Nat) : (s.laneStep i).BatchDone := by
  intro hd j hj hn
  rw [State.laneStep_pending, IndexSet.mem_remove] at hn
  by_cases hji : j = i
  · subst hji
    exact ⟨slotHolds_laneStep s j, by simp [State.laneDigest, State.laneNonce]⟩
  · obtain ⟨hslot, hhit⟩ := h hd j hj fun hp => hn ⟨hp, hji⟩
    exact ⟨slotHolds_laneStep_other hji hslot, by simpa [hji] using hhit⟩

/-- Dispatched is entered with every lane pending, and while a batch runs only a lane step touches its facts. -/
theorem batchDone_perform {e : Event} {s t : State} (h : s.BatchDone) (ht : perform e s = .next t) : t.BatchDone := by
  by_cases hd : s.state = .dispatched
  · obtain hst | ⟨i, -, -, rfl⟩ | ⟨-, -, rfl⟩ | ⟨-, rfl⟩ := perform_dispatched hd ht
    · exact batchDone_of_sameBatch h hst
    · exact batchDone_laneStep h i
    · exact batchDone_of_not_dispatched (by simp)
    · exact batchDone_of_not_dispatched (by simp)
  · obtain hs | ⟨i, -, hi⟩ | ⟨-, hs, -, -⟩ | ⟨-, hs⟩ := perform_transition ht
    · exact batchDone_of_not_dispatched (hs ▸ hd)
    · cases hi with
      | submit _ _ lanes _ => exact batchDone_of_all_pending lanes
      | encodeHeader _ hs | loadHeader _ hs | rearm _ _ hs | exhausted _ _ hs | solved _ _ hs | unsolved _ _ hs
      | softReset _ hs => exact batchDone_of_not_dispatched (by simp [hs])
    · exact absurd hs hd
    · exact batchDone_of_not_dispatched (by simp [hs])

theorem batchDone_autonomous {s : State} (h : s.BatchDone) : s.autonomous.BatchDone := by
  obtain ⟨-, e⟩ | ⟨-, -, e⟩ | ⟨-, i, -, -, e⟩ := autonomous_cases s <;> rw [e]
  · exact h
  · exact batchDone_of_not_dispatched (by simp)
  · exact batchDone_of_sameBatch (batchDone_laneStep h i) rfl

theorem batchDone_step {s t : State} (h : s.BatchDone) (ht : step s = .next t) : t.BatchDone := by
  obtain ⟨-, rfl⟩ | ⟨e, rest, -, hp⟩ := step_cases ht
  · exact batchDone_autonomous h
  · exact batchDone_perform (s := { s with agenda := rest }) (batchDone_of_sameBatch h rfl) hp

/-! ## The states a run reaches -/

/-- The invariant and the batch facts hold at reset, and every step keeps them. -/
theorem inv_and_batchDone_of_reachable {s : State} (h : s.Reachable) : s.Inv ∧ s.BatchDone := by
  induction h with
  | reset m level events => exact ⟨inv_reset m level events none 0, batchDone_of_not_dispatched (by simp [State.reset])⟩
  | step _ ht ih =>
    obtain ⟨hi, hb⟩ := ih
    exact ⟨inv_step hi ht, batchDone_step hb ht⟩

/-- A completion that reports a solution reports a lane that has stepped, whose slot is its candidate and whose HIT bit
is the verdict on it (R213, R214). -/
theorem completeBatch_sound {s : State} (h : s.BatchDone) (hd : s.state = .dispatched) (hp : s.pending = [])
    (hf : s.completeBatch.found = true) :
    accept s.completeBatch.solDigest s.completeBatch.target = true ∧
      s.completeBatch.solDigest = candidate s.completeBatch.hdr s.completeBatch.solNonce := by
  obtain ⟨m, d, hw, e⟩ | ⟨-, e⟩ := completeBatch_cases s
  · obtain ⟨hm, hlt, -⟩ := IndexSet.leastBelow_eq_some.1 hw
    obtain ⟨hslot, hhit⟩ := h hd m hlt (by simp [hp])
    rw [e, resultSlot_eq hslot]
    exact ⟨hhit.1 hm, rfl⟩
  · rw [e] at hf
    cases hf

/-- Settles O55, by induction on the run for the invariants and by the facts of the reported lane for the completion. -/
theorem reachableStatesAreSound : Obligations.ReachableStatesAreSound := by
  unfold Obligations.ReachableStatesAreSound
  intro s hs
  obtain ⟨hi, hb⟩ := inv_and_batchDone_of_reachable hs
  refine ⟨hi, hb, fun t hd hp ht hf => ?_⟩
  rw [perform, completionTurn_enabled hd hp] at ht
  injection ht with ht
  subst ht
  exact completeBatch_sound hb hd hp hf

end Sys2Proof.Machine
end

section
/-! PROOFS. That every step keeps the batch facts and leaves the inputs of a running batch (R68, R81, R95, R216); and that
a host's command line runs its command (R110, R111). -/

namespace Sys2Proof.Machine

/-- Settles O54: a lane step adds the facts of its own lane, and nothing else that leaves Dispatched running touches a
slot, a HIT bit or an input of the lanes. -/
theorem stepKeepsTheBatchFacts : Obligations.StepKeepsTheBatchFacts := by
  unfold Obligations.StepKeepsTheBatchFacts
  exact fun s t _ hb ht => batchDone_step hb ht

/-! ## The inputs of a running batch (R68, R81, R216) -/

/-- `t` has the inputs of the lanes that `s` has, and STATE says that the batch of `s` still runs or, with no lane
pending, that it is complete. -/
def State.KeepsBatchInputs (s t : State) : Prop :=
  t.hdr = s.hdr ∧ t.target = s.target ∧ t.nonceOffset = s.nonceOffset ∧ t.offsetHi = s.offsetHi ∧
  t.batchSize = s.batchSize ∧ (t.state = .dispatched ∨ (t.state = .resultsReady ∧ s.pending = []))

theorem keepsBatchInputs_of_sameBatch {s t : State} (hd : s.state = .dispatched) (h : s.SameBatch t) :
    s.KeepsBatchInputs t := by
  rw [h]; exact ⟨rfl, rfl, rfl, rfl, rfl, .inl hd⟩

theorem keepsBatchInputs_laneStep {s : State} (hd : s.state = .dispatched) (i : Nat) :
    s.KeepsBatchInputs (s.laneStep i) :=
  ⟨rfl, rfl, rfl, rfl, rfl, .inl hd⟩

theorem keepsBatchInputs_completeBatch {s : State} (hp : s.pending = []) : s.KeepsBatchInputs s.completeBatch := by
  obtain ⟨m, d, -, e⟩ | ⟨-, e⟩ := completeBatch_cases s <;> rw [e]
  · exact ⟨rfl, rfl, rfl, rfl, rfl, .inr ⟨rfl, hp⟩⟩
  · exact ⟨rfl, rfl, rfl, rfl, rfl, .inr ⟨rfl, hp⟩⟩

theorem keepsBatchInputs_perform {e : Event} {s t : State} (hd : s.state = .dispatched) (hr : e ≠ .rstN)
    (h : perform e s = .next t) : s.KeepsBatchInputs t := by
  obtain hst | ⟨i, -, -, rfl⟩ | ⟨-, hp, rfl⟩ | ⟨he, -⟩ := perform_dispatched hd h
  · exact keepsBatchInputs_of_sameBatch hd hst
  · exact keepsBatchInputs_laneStep hd i
  · exact keepsBatchInputs_completeBatch hp
  · exact absurd he hr

theorem keepsBatchInputs_autonomous {s : State} (hd : s.state = .dispatched) : s.KeepsBatchInputs s.autonomous := by
  obtain ⟨hn, -⟩ | ⟨-, hp, e⟩ | ⟨-, i, -, -, e⟩ := autonomous_cases s
  · exact absurd hd hn
  · exact e ▸ keepsBatchInputs_completeBatch hp
  · exact e ▸ keepsBatchInputs_laneStep hd i

/-- Settles O37: of what can happen while a batch runs, only rst_n writes an input of the lanes, and only the completion
step, taken with no lane pending, leaves Dispatched besides. -/
theorem batchInputsAreFrozen : Obligations.BatchInputsAreFrozen := by
  unfold Obligations.BatchInputsAreFrozen
  intro s t hd hr h
  obtain ⟨-, rfl⟩ | ⟨e, rest, ha, hp⟩ := step_cases h
  · exact keepsBatchInputs_autonomous hd
  · exact keepsBatchInputs_perform (s := { s with agenda := rest }) hd (fun he => hr rest (he ▸ ha)) hp

/-! ## The host's turn (R110, R111) -/

/-- The host performs the access of its first line, and keeps the line if it is to be repeated. -/
theorem hostTurn_cons {l : HostLine} {s t : State} (rest : List HostLine) (h : perform l.event s = .next t) :
    HostRun.hostTurn { lines := l :: rest, block := s } =
      .next { lines := if l.repeats (t.readData.getD 0#32) then l :: rest else rest, block := t } := by
  have ht : s.after l.event = .next t := h
  simp only [HostRun.hostTurn, ht]

/-- The word of a command decodes to it (R91). -/
theorem decode_encode (i : Instr) : decode (encode i) = .ok i := by cases i <;> rfl

/-- Settles O60: the line's access is the write of the command's word to CMD, which runs the command, and a write is not
repeated. -/
theorem hostCommandRunsExec : Obligations.HostCommandRunsExec := by
  unfold Obligations.HostCommandRunsExec
  intro i s t rest _ h
  have hw : perform (.write 0x00000004#32 (encode i)) s = .next t := by
    rw [perform_write_cmd, executeWord_of_decode (decode_encode i), h]
  exact hostTurn_cons (l := .wr (.named (.reg .cmd)) (encode i)) rest hw

end Sys2Proof.Machine
end

section
/-! PROOFS. The address map read in both directions (R63, R64); what a read returns, changes and refuses (R66, R69, R70,
R75); and the writes that are refused (R67, R68). -/

namespace Sys2Proof.Machine

/-! ## The address map (R63, R64) -/

/-- Settles O51: what the map finds at an aligned address has that address, and each mapped word is found at its own. -/
theorem addressMapIsExact : Obligations.AddressMapIsExact := by
  unfold Obligations.AddressMapIsExact
  intro slots a l ha
  constructor
  · intro h
    obtain ⟨r, rfl, hr⟩ | ⟨x, k, rfl, hlo, hhi, hk⟩ | ⟨i, k, rfl, hi, hk, hlo, hhi⟩ := locate_cases h
    · exact ⟨hr.symm, trivial⟩
    · have hb : x.base % 4 = 0 := by cases x <;> rfl
      exact ⟨by rw [Loc.addr]; omega, hk⟩
    · have hb : slotBase i % 4 = 0 := by unfold slotBase resultBase; omega
      exact ⟨by rw [Loc.addr]; omega, hi, hk⟩
  · rintro ⟨rfl, hl⟩
    cases l with
    | reg r => exact locate_reg slots r
    | word x k => exact locate_word slots x k hl
    | result i k => exact locate_result hl.1 hl.2

/-! ## Reads that are not refused (R66) -/

/-- A location that is not barred is read in every state (R69). -/
theorem not_refused_of_unbarred {s : State} {l : Loc} (h : l.barred = false) :
    ¬(s.state = .dispatched ∧ l.barred = true) := by
  simp [h]

/-- Settles O44: no check refuses the read of a register, but for SOL_NONCE in Dispatched. -/
theorem scalarReads : Obligations.ScalarReads := by
  unfold Obligations.ScalarReads
  intro s
  refine ⟨?id, ?cmd, ?errInfo, ?irqEn, ?version, ?time, ?bits, ?nonce, ?nonceOffset, ?batchSize, fun hd => ?solNonce,
    ?maxBatch⟩
  case id => exact perform_read_reg .id rfl (not_refused_of_unbarred rfl)
  case cmd => exact perform_read_reg .cmd rfl (not_refused_of_unbarred rfl)
  case errInfo => exact perform_read_reg .errInfo rfl (not_refused_of_unbarred rfl)
  case irqEn => exact perform_read_reg .irqEn rfl (not_refused_of_unbarred rfl)
  case version => exact perform_read_reg .version rfl (not_refused_of_unbarred rfl)
  case time => exact perform_read_reg .time rfl (not_refused_of_unbarred rfl)
  case bits => exact perform_read_reg .bits rfl (not_refused_of_unbarred rfl)
  case nonce => exact perform_read_reg .nonce rfl (not_refused_of_unbarred rfl)
  case nonceOffset => exact perform_read_reg .nonceOffset rfl (not_refused_of_unbarred rfl)
  case batchSize => exact perform_read_reg .batchSize rfl (not_refused_of_unbarred rfl)
  case solNonce => exact perform_read_reg .solNonce rfl fun h => hd h.1
  case maxBatch => exact perform_read_reg .maxBatch rfl (not_refused_of_unbarred rfl)

/-- Settles O45: a read of a word of an array that is not barred returns its port word, whose bytes are the array's. -/
theorem arrayReads : Obligations.ArrayReads := by
  unfold Obligations.ArrayReads
  intro s k b hb
  refine ⟨fun hk => ⟨?prevHash, ?merkleRoot, ?target, fun hd => ?solDigest, ?dbgDigest⟩, fun hk => ?hdr⟩
  case prevHash => exact ⟨_, perform_read_word .prevHash hk (not_refused_of_unbarred rfl), extract_portWord _ k b hb _⟩
  case merkleRoot => exact ⟨_, perform_read_word .merkleRoot hk (not_refused_of_unbarred rfl), extract_portWord _ k b hb _⟩
  case target => exact ⟨_, perform_read_word .target hk (not_refused_of_unbarred rfl), extract_portWord _ k b hb _⟩
  case solDigest => exact ⟨_, perform_read_word .solDigest hk fun h => hd h.1, extract_portWord _ k b hb _⟩
  case dbgDigest => exact ⟨_, perform_read_word .dbgDigest hk (not_refused_of_unbarred rfl), extract_portWord _ k b hb _⟩
  case hdr => exact ⟨_, perform_read_word .hdr hk (not_refused_of_unbarred rfl), extract_portWord _ k b hb _⟩

/-! ## Reads of the RESULT window (R64, R75) -/

/-- The RESULT window fits the port, whatever MAX_BATCH is (R9, R64). -/
theorem toNat_slotAddr {s : State} {i k : Nat} (hi : i < s.maxBatch) (hk : k < 8) :
    (BitVec.ofNat 32 (slotBase i + 4 * k)).toNat = slotBase i + 4 * k := by
  have := s.maxBatchLessOne.isLt
  unfold State.maxBatch at hi
  rw [BitVec.toNat_ofNat, Nat.mod_eq_of_lt]
  unfold slotBase resultBase
  omega

/-- A host read of a word of a RESULT slot outside Dispatched (R66). -/
theorem perform_read_result {s : State} {i k : Nat} (hd : s.state ≠ .dispatched) (hi : i < s.maxBatch) (hk : k < 8) :
    perform (.read (BitVec.ofNat 32 (slotBase i + 4 * k))) s =
      .next ((s.drawIfUnwritten (resultWordAddrs i k)).answer (s.valueAt (.result i k))) := by
  have e := toNat_slotAddr hi hk
  have ha : (slotBase i + 4 * k) % 4 = 0 := by unfold slotBase resultBase; omega
  exact congrArg _
    (hostRead_answers (l := .result i k) (e.symm ▸ ha) (e.symm ▸ locate_result hi hk) fun h => hd h.1)

/-- Looking at written addresses draws no free value. -/
theorem drawIfUnwritten_written {s : State} {as : List Nat} (h : ∀ a ∈ as, (s.result.read? a).isSome) :
    s.drawIfUnwritten as = s :=
  if_pos (List.all_eq_true.2 h)

/-- Looking at an unwritten address draws one. -/
theorem drawIfUnwritten_unwritten {s : State} {as : List Nat} {a : Nat} (ha : a ∈ as)
    (h : s.result.read? a = none) : s.drawIfUnwritten as = { s with draws := s.draws + 1 } := by
  refine if_neg fun hall => ?_
  have := List.all_eq_true.1 hall a ha
  simp [h] at this

theorem mem_resultWordAddrs {i k a : Nat} : a ∈ resultWordAddrs i k ↔ ∃ b < 4, a = slotBase i + (4 * k + b) := by
  simp [resultWordAddrs, Nat.add_assoc, eq_comm]

/-- Byte `b` of the word the window shows is the byte at its address (R62, R64). -/
theorem extract_valueAt_result (s : State) (i k : Nat) {b : Nat} (hb : b < 4) :
    (s.valueAt (.result i k)).extractLsb' (8 * b) 8 = s.resultByte (slotBase i + (4 * k + b)) := by
  rw [State.valueAt, extract_leWord _ _ _ hb, byteAt, List.getD_eq_getElem?_getD]
  simp [resultWordAddrs, hb, Nat.add_assoc]

/-- A byte of a slot that holds a digest shows as the digest's (R64). -/
theorem resultByte_of_slotHolds {s : State} {i j : Nat} {D : Bytes 32} (h : s.slotHolds i D) (hj : j < 32) :
    s.resultByte (slotBase i + j) = D[j] := by
  rw [State.resultByte, h j hj, Option.getD_some]

/-- Settles O46: the read passes every check; a slot that holds a digest shows its bytes and draws nothing, and an
unwritten one draws a free value. -/
theorem resultReads : Obligations.ResultReads := by
  unfold Obligations.ResultReads
  intro s i k hd hi hk
  have hread := perform_read_result hd hi hk
  refine ⟨fun D hD => ⟨s.valueAt (.result i k), ?_, fun b hb => ?_⟩, fun hn => ⟨s.valueAt (.result i k), ?_⟩⟩
  · have hw : ∀ a ∈ resultWordAddrs i k, (s.result.read? a).isSome := by
      intro a ha
      obtain ⟨b, hb, rfl⟩ := mem_resultWordAddrs.1 ha
      rw [hD _ (by omega), Option.isSome_some]
    rw [drawIfUnwritten_written hw] at hread
    exact hread
  · have hj : 4 * k + b < 32 := by omega
    rw [extract_valueAt_result s i k hb, resultByte_of_slotHolds hD hj, byteAt_toList D _ hj]
  · have hu : s.result.read? (slotBase i + (4 * k + 0)) = none := hn (4 * k) (by omega)
    rw [drawIfUnwritten_unwritten (mem_resultWordAddrs.2 ⟨0, by omega, rfl⟩) hu] at hread
    exact hread

/-! ## What a read changes, and the barrier (R69, R70) -/

/-- Settles O50: a read is refused, or it draws at most a free value before the answer. -/
theorem readsHaveNoOtherEffect : Obligations.ReadsHaveNoOtherEffect := by
  unfold Obligations.ReadsHaveNoOtherEffect
  intro s a
  obtain e | ⟨l, -, e⟩ := hostRead_cases s a
  · exact ⟨0#32, s.draws, .inr ⟨rfl, congrArg _ e⟩⟩
  · obtain ⟨d, hd⟩ := afterRead_eq s l
    rw [hd] at e
    exact ⟨s.valueAt l, d, .inl (congrArg _ e)⟩

/-- The locations of SOL_NONCE, SOL_DIGEST and the RESULT window are barred (R69). -/
theorem exists_barred {slots a : Nat} (ha : a % 4 = 0)
    (h : a = 0x030 ∨ (0x0A0 ≤ a ∧ a < 0x0C0) ∨ (0x10000 ≤ a ∧ a < 0x10000 + 32 * slots)) :
    ∃ l, locate slots a = some l ∧ l.barred = true := by
  obtain rfl | ⟨hlo, hhi⟩ | ⟨hlo, hhi⟩ := h
  · exact ⟨_, locate_reg slots .solNonce, rfl⟩
  · obtain ⟨k, -, -, hl⟩ := locate_inside .solDigest ha hlo hhi
    exact ⟨_, hl, rfl⟩
  · exact ⟨_, locate_window hlo hhi, rfl⟩

/-- Settles O47: the barrier is the last check of a read, and it refuses each of these locations in Dispatched. -/
theorem resultsAreBarredDuringABatch : Obligations.ResultsAreBarredDuringABatch := by
  unfold Obligations.ResultsAreBarredDuringABatch
  intro s a hd ha h
  obtain ⟨l, hl, hb⟩ := exists_barred ha h
  exact congrArg _ (hostRead_refused (.inr (.inr ⟨l, hl, hd, hb⟩)))

/-! ## Refused writes (R67, R68) -/

/-- The read-only locations by address (R63). -/
theorem exists_readOnly {slots a : Nat} (ha : a % 4 = 0)
    (h : a = 0x000 ∨ a = 0x008 ∨ a = 0x00C ∨ a = 0x010 ∨ a = 0x030 ∨ a = 0x034 ∨
      (0x0A0 ≤ a ∧ a < 0x0E0) ∨ (0x10000 ≤ a ∧ a < 0x10000 + 32 * slots)) :
    ∃ l, locate slots a = some l ∧ l.readOnly = true := by
  obtain rfl | rfl | rfl | rfl | rfl | rfl | ⟨hlo, hhi⟩ | ⟨hlo, hhi⟩ := h
  · exact ⟨_, locate_reg slots .id, rfl⟩
  · exact ⟨_, locate_reg slots .status, rfl⟩
  · exact ⟨_, locate_reg slots .err, rfl⟩
  · exact ⟨_, locate_reg slots .errInfo, rfl⟩
  · exact ⟨_, locate_reg slots .solNonce, rfl⟩
  · exact ⟨_, locate_reg slots .maxBatch, rfl⟩
  · obtain hm | hm := Nat.lt_or_ge a 0x0C0
    · obtain ⟨k, -, -, hl⟩ := locate_inside .solDigest ha hlo hm
      exact ⟨_, hl, rfl⟩
    · obtain ⟨k, -, -, hl⟩ := locate_inside .dbgDigest ha hm hhi
      exact ⟨_, hl, rfl⟩
  · exact ⟨_, locate_window hlo hhi, rfl⟩

/-- Every aligned address below 0x038 is a register's (R63). -/
theorem exists_reg_of_lt {a : Nat} (ha : a % 4 = 0) (h : a < 0x038) : ∃ r : Reg, r.offset = a := by
  have hall : ∀ k < 14, ∃ r ∈ allRegs, r.offset = 4 * k := by decide
  obtain ⟨r, -, hr⟩ := hall (a / 4) (by omega)
  exact ⟨r, by omega⟩

/-- The locked registers by offset (R63). -/
theorem locked_reg_iff (r : Reg) : (Loc.reg r).locked = true ↔ 0x018 ≤ r.offset ∧ r.offset < 0x030 := by
  cases r <;> decide

/-- The locked locations by address (R63). -/
theorem exists_locked {slots a : Nat} (ha : a % 4 = 0)
    (h : (0x018 ≤ a ∧ a < 0x030) ∨ (0x040 ≤ a ∧ a < 0x0A0) ∨ (0x100 ≤ a ∧ a < 0x150)) :
    ∃ l, locate slots a = some l ∧ l.locked = true := by
  obtain hr | ⟨hlo, hhi⟩ | ⟨hlo, hhi⟩ := h
  · obtain ⟨r, rfl⟩ := exists_reg_of_lt ha (by omega)
    exact ⟨_, locate_reg slots r, (locked_reg_iff r).2 hr⟩
  · obtain hm | hm | hm : a < 0x060 ∨ (0x060 ≤ a ∧ a < 0x080) ∨ 0x080 ≤ a := by omega
    · obtain ⟨k, -, -, hl⟩ := locate_inside .prevHash ha hlo hm
      exact ⟨_, hl, rfl⟩
    · obtain ⟨k, -, -, hl⟩ := locate_inside .merkleRoot ha hm.1 hm.2
      exact ⟨_, hl, rfl⟩
    · obtain ⟨k, -, -, hl⟩ := locate_inside .target ha hm hhi
      exact ⟨_, hl, rfl⟩
  · obtain ⟨k, -, -, hl⟩ := locate_inside .hdr ha hlo hhi
    exact ⟨_, hl, rfl⟩

/-- The batch-locked locations by address (R68). -/
theorem exists_batchLocked (slots : Nat) {a : Nat} (h : a = 0x028 ∨ a = 0x02C) :
    ∃ l, locate slots a = some l ∧ l.batchLocked = true := by
  obtain rfl | rfl := h
  · exact ⟨_, locate_reg slots .nonceOffset, rfl⟩
  · exact ⟨_, locate_reg slots .batchSize, rfl⟩

/-- CMD has no lock (R63, R68). -/
theorem writeLocked_cmd (s : State) : s.writeLocked (.reg .cmd) = false := by
  simp [State.writeLocked, Loc.locked, Loc.batchLocked]

/-- A write to a read-only or a locked location is refused (R67). -/
theorem perform_write_refused {s : State} {a : Word} {l : Loc} (v : Word) (hl : locate s.maxBatch a.toNat = some l)
    (h : l.readOnly = true ∨ s.writeLocked l = true) : perform (.write a v) s = .next (s.refuseAccess a) := by
  have hc (hk : s.writeLocked l = true) : l ≠ .reg .cmd := by
    rintro rfl
    simp [writeLocked_cmd] at hk
  exact hostWrite_refused (.inr (.inr ⟨l, hl, h.imp_right fun hk => ⟨hc hk, hk⟩⟩))

/-- Settles O41: each address is one of a location that R67 refuses, for its access kind or for the lock on it. -/
theorem refusedWrites : Obligations.RefusedWrites := by
  unfold Obligations.RefusedWrites
  intro s a v ha h
  obtain hro | ⟨hd, hk⟩ | ⟨hr, hk⟩ := h
  · obtain ⟨l, hl, h⟩ := exists_readOnly ha hro
    exact perform_write_refused v hl (.inl h)
  · obtain ⟨l, hl, h⟩ := exists_locked ha hk
    exact perform_write_refused v hl (.inr (by simp [State.writeLocked, hd, h]))
  · obtain ⟨l, hl, h⟩ := exists_batchLocked s.maxBatch hk
    exact perform_write_refused v hl (.inr (by simp [State.writeLocked, hr, h]))

end Sys2Proof.Machine
end

section
/-! PROOFS. Decoding and encoding of command words (R90 to R92, R96): which words decode, and to what; and that a reserved
word records its error and does nothing else (R92). -/

namespace Sys2Proof.Machine

/-! ## Words and commands (R90, R91, R96) -/

/-- Every command's OPC is one of the twelve (R91, R93). -/
@[simp] theorem wf_eq_true (i : Instr) : i.wf = true := by cases i <;> rfl

/-- Settles O2: each command's word selects it by its OPC, and a word is determined by its two fields. -/
theorem decodeEncodeAgree : Obligations.DecodeEncodeAgree := by
  unfold Obligations.DecodeEncodeAgree
  exact ⟨fun i _ => decode_encode i, fun w i h => ⟨wf_eq_true i, eq_encode_of_decode h⟩⟩

/-- Settles O1: each of the words is the encoding of its command. -/
theorem commandWordsDecode : Obligations.CommandWordsDecode :=
  ⟨decode_encode .nop, decode_encode .encodeHeader, decode_encode .loadHeader, decode_encode .setNonce,
    decode_encode .computeTarget, decode_encode .hash1, decode_encode .hash2, decode_encode .submit,
    decode_encode .retire, decode_encode .rearm, decode_encode .clearErr, decode_encode .softReset⟩

/-! ## Reserved words (R92) -/

/-- The OPC values past the twelve select no command (R92). -/
theorem commandOfOpc_eq_none_iff (n : Nat) : commandOfOpc n = none ↔ 0x0C ≤ n := by
  unfold commandOfOpc
  split
  case h_13 => simp only [imp_false, true_iff] at *; omega
  all_goals simp

/-- The reserved words are those with RSV not 0 and those whose OPC selects no command (R92). -/
theorem decode_eq_error_iff (w : Word) :
    (∃ r, decode w = .error r) ↔ (w.extractLsb' 8 24 ≠ 0#24 ∨ 0x0C ≤ (w.extractLsb' 0 8).toNat) := by
  have hnot : (∃ r, decode w = .error r) ↔ ¬∃ i, decode w = .ok i := by cases decode w <;> simp
  rw [hnot, ← commandOfOpc_eq_none_iff, Option.eq_none_iff_forall_ne_some]
  simp only [decode_eq_ok, exists_and_left, not_and_or, not_exists, ne_eq]

/-- Executing a reserved word raises RESERVED_OPCODE with the word (R92, R94). -/
theorem executeWord_of_reserved {w : Word} (h : ∃ r, decode w = .error r) (s : State) :
    executeWord w s = .next (s.raise .reservedOpcode w) := by
  obtain ⟨r, hr⟩ := h
  simp only [executeWord, hr]

/-! ## The command that does nothing (R92, R220) -/

/-- With no error pending a command that leaves the state as it is was admitted: a refusal would be recorded (R95). -/
theorem legal_of_exec_eq_self {i : Instr} {s : State} (he : s.err = .none) (h : exec i s = .next s) :
    legal i s.state s.hdrValid = true := by
  by_contra hl
  rw [exec_eq, runCommand_illegal (.inl he) (Bool.eq_false_iff.2 hl)] at h
  injection h with h
  simpa [he] using congrArg State.err h

/-- Only NOP does nothing in every state: a running batch makes all others but CLEAR_ERR record an error, and CLEAR_ERR
clears one. -/
theorem exec_eq_self_iff (i : Instr) : (∀ s : State, exec i s = .next s) ↔ i = .nop := by
  constructor
  · intro h
    obtain hi | rfl : i = .nop ∨ i = .clearErr :=
      legal_dispatched (legal_of_exec_eq_self rfl (h { State.reset with state := .dispatched }))
    · exact hi
    · cases h { State.reset with err := .illegalCommand }
  · rintro rfl s
    exact exec_passes (.inr rfl) rfl

/-- Settles O3: decoding fails exactly on the reserved words, and executing one of them is the raise of its error. -/
theorem reservedWordsRaise : Obligations.ReservedWordsRaise := by
  unfold Obligations.ReservedWordsRaise
  refine ⟨fun w => ⟨decode_eq_error_iff w, fun s hw => ?_⟩, exec_eq_self_iff⟩
  rw [perform_write_cmd, executeWord_of_reserved ((decode_eq_error_iff w).2 hw)]
  rfl

end Sys2Proof.Machine
end

section
/-! PROOFS. The gate of a command (R94, R95), and what the commands leave unchanged (R93). -/

namespace Sys2Proof.Machine

/-! ## While an error is pending (R94, R253) -/

/-- The commands that are executed while an error is pending, by name (R253). -/
theorem runsWhilePending_eq_true_iff (i : Instr) :
    runsWhilePending i = true ↔ i = .nop ∨ i = .clearErr ∨ i = .softReset := by
  cases i <;> simp [runsWhilePending]

/-- Settles O5: the gate drops every command but the three. -/
theorem pendingErrorDropsCommands : Obligations.PendingErrorDropsCommands := by
  unfold Obligations.PendingErrorDropsCommands
  intro i s he hn hc hr
  have hi : runsWhilePending i = false := by
    rw [Bool.eq_false_iff, ne_eq, runsWhilePending_eq_true_iff]
    tauto
  rw [exec_eq, runCommand_dropped he hi]

/-! ## Commands that are illegal in the state (R95) -/

/-- With no error pending a command that is illegal in the state records ILLEGAL_COMMAND and its word (R95, R257). -/
theorem exec_illegal {i : Instr} {w : Word} {s : State} (hw : decode w = .ok i) (he : s.err = .none)
    (hl : ¬legal i s.state s.hdrValid = true) :
    exec i s = .next { s with err := .illegalCommand, errInfo := w } := by
  rw [exec_eq, runCommand_illegal (.inl he) (Bool.eq_false_iff.2 hl), ← eq_encode_of_decode hw]
  simp only [State.raise, he, if_true]

/-- Settles O6: each entry written out is a "no" of the table. -/
theorem illegalCommandsRaise : Obligations.IllegalCommandsRaise := by
  unfold Obligations.IllegalCommandsRaise
  intro i w s hw he h
  refine exec_illegal hw he fun hl => ?_
  obtain ⟨rfl, hs⟩ | ⟨rfl, hs⟩ | ⟨rfl, hs⟩ | ⟨rfl | rfl, hs⟩ | ⟨hi, hs⟩ := h
  · exact hs ((legal_submit _ _).1 hl)
  · exact hs ((legal_retire _ _).1 hl)
  · exact hs ((legal_rearm _ _).1 hl)
  · exact not_or.2 ((legal_encodeHeader _ _).1 hl) hs
  · exact not_or.2 ((legal_loadHeader _ _).1 hl) hs
  · rw [hs] at hl
    obtain rfl | rfl := legal_dispatched hl <;> simp at hi

/-! ## What the commands leave unchanged (R93) -/

/-- What every command but SOFT_RESET leaves as it is: RESULT, HIT, the SOL registers, IRQ_EN and the host's inputs. -/
def State.SameBuffers (s t : State) : Prop :=
  t.result = s.result ∧ t.hit = s.hit ∧ t.solNonce = s.solNonce ∧ t.solDigest = s.solDigest ∧ t.irqEn = s.irqEn ∧
  t.version = s.version ∧ t.time = s.time ∧ t.bits = s.bits ∧ t.nonce = s.nonce ∧ t.prevHash = s.prevHash ∧
  t.merkleRoot = s.merkleRoot ∧ t.batchSize = s.batchSize

/-- What a command leaves as it is unless it is one of those named for it. -/
structure CommandFrame (i : Instr) (s t : State) : Prop where
  buffers : s.SameBuffers t
  pending : i ≠ .submit → t.pending = s.pending
  offset : i ≠ .retire → t.nonceOffset = s.nonceOffset ∧ t.offsetHi = s.offsetHi
  target : i ≠ .computeTarget → t.target = s.target
  hdr : i ≠ .encodeHeader → i ≠ .setNonce → t.hdr = s.hdr
  dbgDigest : i ≠ .hash1 → i ≠ .hash2 → t.dbgDigest = s.dbgDigest
  dbgHit : i ≠ .hash2 → t.dbgHit = s.dbgHit
  verdict : i ≠ .encodeHeader → i ≠ .loadHeader → i ≠ .submit → t.found = s.found ∧ t.nsr = s.nsr ∧
    (i ≠ .retire → i ≠ .rearm → t.state = s.state)

/-- Recording an error is within every command's frame (R252). -/
theorem commandFrame_raise (i : Instr) (s : State) (e : ErrCode) (info : Word) :
    CommandFrame i s (s.raise e info) := by
  constructor <;> simp [State.SameBuffers]

theorem commandFrame_computeTarget (s : State) : CommandFrame .computeTarget s s.computeTarget := by
  obtain ⟨-, e⟩ | ⟨t, -, e⟩ := computeTarget_cases s <;> rw [e]
  · exact commandFrame_raise _ s _ _
  · constructor <;> simp [State.SameBuffers]

theorem commandFrame_submit (s : State) : CommandFrame .submit s s.submit := by
  obtain ⟨-, e⟩ | ⟨-, -, -, e⟩ | ⟨-, -, -, -, e⟩ | ⟨-, -, -, -, e⟩ := submit_cases s <;> rw [e]
  · exact commandFrame_raise _ s _ _
  · constructor <;> simp [State.SameBuffers]
  · exact commandFrame_raise _ s _ _
  · constructor <;> simp [State.SameBuffers]

theorem commandFrame_retire (s : State) : CommandFrame .retire s s.retire := by
  obtain ⟨-, e⟩ | ⟨-, lo, hi, e, -⟩ := retire_cases s <;> rw [e] <;> constructor <;> simp [State.SameBuffers]

/-- The effect of a command that passes the gate is within its frame. -/
theorem commandFrame_effectOf {i : Instr} (hi : i ≠ .softReset) (s : State) : CommandFrame i s (effectOf i s) := by
  cases i with
  | softReset => exact absurd rfl hi
  | computeTarget => exact commandFrame_computeTarget s
  | submit => exact commandFrame_submit s
  | retire => exact commandFrame_retire s
  | nop | encodeHeader | loadHeader | setNonce | hash1 | hash2 | rearm | clearErr =>
    constructor <;> simp [State.SameBuffers, effectOf]

theorem commandFrame_exec {i : Instr} {s t : State} (hi : i ≠ .softReset) (h : exec i s = .next t) :
    CommandFrame i s t := by
  obtain ⟨-, -, rfl⟩ | ⟨-, -, rfl⟩ | ⟨-, -, rfl⟩ := exec_cases h
  · constructor <;> simp [State.SameBuffers]
  · exact commandFrame_raise i s _ _
  · exact commandFrame_effectOf hi s

/-- Settles O35: a dropped command, a refused one and the effect of each all stay within the command's frame. -/
theorem commandsLeaveTheBuffers : Obligations.CommandsLeaveTheBuffers := by
  unfold Obligations.CommandsLeaveTheBuffers
  intro i s t hi h
  obtain ⟨⟨hresult, hrest⟩, hpending, hoffset, htarget, hhdr, hdigest, hhit, hverdict⟩ := commandFrame_exec hi h
  simp only [hresult, hrest, true_and, implies_true]
  exact ⟨hpending, hoffset, htarget, hhdr, hdigest, hhit, hverdict⟩

end Sys2Proof.Machine
end

section
/-! PROOFS. The midstate of a header (R102, R181): block 0 of the padded header ends before the nonce. -/

namespace Sys2Proof.Machine

/-- The bytes of a header with another nonce (R137). -/
theorem toList_withNonce (h : Bytes 80) (n : Word) : (withNonce h n).toList = h.toList.take 76 ++ le32 n :=
  Bytes.toList_ofList (by simp)

/-- Block 0 of the padded header is the first 64 bytes of the header, which the nonce is not among (R102). -/
theorem blockOf_pad_withNonce (h : Bytes 80) (n : Word) : blockOf (pad (withNonce h n).toList) 0 = h.toList.take 64 := by
  rw [blockOf_pad_zero _ (by simp), toList_withNonce, List.take_append_of_le_length (by simp), List.take_take]
  rfl

/-- Settles O21: the running state after one block depends on that block only. -/
theorem midstateIgnoresTheNonce : Obligations.MidstateIgnoresTheNonce := by
  unfold Obligations.MidstateIgnoresTheNonce
  intro h n n'
  simp only [compressBlocks, blockOf_pad_withNonce]

end Sys2Proof.Machine
end

section
/-! PROOFS. A batch completes (R113, R292): left to itself within a step for each pending lane and one more, and in every
run under a fair schedule, where the host that waits for it goes on. -/

namespace Sys2Proof.Machine

/-! ## The block left to itself (R211) -/

/-- What the block does on its own leaves the events to come as they are. -/
@[simp] theorem autonomous_agenda (s : State) : s.autonomous.agenda = s.agenda := by
  obtain ⟨-, e⟩ | ⟨-, -, e⟩ | ⟨-, i, -, -, e⟩ := autonomous_cases s <;> rw [e]
  · obtain ⟨m, d, -, e⟩ | ⟨-, e⟩ := completeBatch_cases s <;> rw [e]
  · rfl

/-- With no event to come, a completed batch waits for RETIRE however long the run (R268). -/
theorem run_resultsReady (n : Nat) {s : State} (hs : s.state = .resultsReady) (ha : s.agenda = []) :
    Host.Core.run Sys2Proof.core n s = .next s := by
  induction n with
  | zero => rfl
  | succ n ih =>
    have hstep : step s = .next s := by rw [step_nil ha, State.autonomous, if_neg (by simp [hs])]
    rw [run_succ hstep, ih]

/-- A step that a lane takes leaves fewer lanes pending (R210). -/
theorem length_pending_laneStep {s : State} {i : Nat} (hi : i ∈ s.pending) :
    (s.laneStep i).pending.length < s.pending.length :=
  List.length_filter_lt_length_iff_exists.2 ⟨i, hi, by simp⟩

/-- With no event to come a running batch is complete after one step for each lane pending at most, and one more. -/
theorem run_autonomous (n : Nat) {s : State} (hs : s.state = .dispatched) (ha : s.agenda = [])
    (hn : s.pending.length ≤ n) :
    ∃ t, Host.Core.run Sys2Proof.core (n + 1) s = .next t ∧ t.state = .resultsReady := by
  induction n generalizing s with
  | zero =>
    have hp : s.pending = [] := List.length_eq_zero_iff.1 (by omega)
    rw [run_succ (step_nil ha), autonomous_complete hs hp]
    exact ⟨_, rfl, completeBatch_state s⟩
  | succ n ih =>
    have ha' : s.autonomous.agenda = [] := by rw [autonomous_agenda, ha]
    rw [run_succ (step_nil ha)]
    obtain ⟨hd, -⟩ | ⟨-, -, e⟩ | ⟨-, i, hi, -, e⟩ := autonomous_cases s
    · exact absurd hs hd
    · have hr : s.autonomous.state = .resultsReady := by rw [e, completeBatch_state]
      exact ⟨_, run_resultsReady (n + 1) hr ha', hr⟩
    · have := length_pending_laneStep hi
      exact ih (by rw [e]; exact hs) ha' (by rw [e]; show (s.laneStep i).pending.length ≤ n; omega)

/-! ## Along a run -/

/-- What each turn keeps, unless the run is or comes to a place of `Q`, is kept until then. -/
theorem kept_until {P Q : Nat → Prop} {n : Nat} (h : P n)
    (turn : ∀ m ≥ n, P m → P (m + 1) ∨ ∃ k ≥ m, Q k) : ∀ m ≥ n, P m ∨ ∃ k ≥ n, Q k := by
  intro m hm
  induction m, hm using Nat.le_induction with
  | base => exact .inl h
  | succ m hm ih =>
    obtain hp | hq := ih
    · exact (turn m hm hp).imp_right fun ⟨k, hk, hq⟩ => ⟨k, hm.trans hk, hq⟩
    · exact .inr hq

section FairRuns
variable {ρ : Nat → HostRun} {turns : Nat → Turn}

/-! ## The batch ends (R292) -/

/-- A list that lies in `i :: l` and does not have `i` lies in `l`. -/
theorem subset_of_subset_cons {i : Nat} {p l : List Nat} (h : p ⊆ i :: l) (hi : i ∉ p) : p ⊆ l :=
  fun _ hj => (List.mem_cons.1 (h hj)).resolve_left fun e => hi (e ▸ hj)

/-- A batch runs before turn `n`, and no lane outside `l` is pending. -/
def Running (ρ : Nat → HostRun) (l : List Nat) (n : Nat) : Prop :=
  (ρ n).block.state = .dispatched ∧ (ρ n).block.pending ⊆ l

/-- The batch is complete before turn `n`, or rst_n aborts it at that turn. -/
def Ends (ρ : Nat → HostRun) (turns : Nat → Turn) (n : Nat) : Prop :=
  (ρ n).block.state = .resultsReady ∨ turns n = .rstN

/-- What a turn of a running batch leads to where the batch does not end: the lane or the controller whose turn it was
has had its step. -/
theorem running_turn (hf : FairRun ρ turns) {l : List Nat} {n : Nat} (h : Running ρ l n) :
    (Running ρ l (n + 1) ∧ (∀ i, (turns n).TakesLane (ρ n).block i → i ∉ (ρ (n + 1)).block.pending) ∧
      ((turns n).TakesCompletion (ρ n).block → (ρ n).block.pending ≠ [])) ∨ ∃ k ≥ n, Ends ρ turns k := by
  obtain ⟨hs, hp⟩ := h
  by_cases hr : turns n = .rstN
  · exact .inr ⟨n, le_rfl, .inr hr⟩
  · obtain ⟨-, hd⟩ | ⟨hd, hsub, hlane, hdone⟩ := turn_dispatched hs hr (hf.steps n)
    · exact .inr ⟨n + 1, n.le_succ, .inl hd⟩
    · exact .inl ⟨⟨hd, fun j hj => hp (hsub j hj)⟩, hlane, hdone⟩

theorem running_until (hf : FairRun ρ turns) {l : List Nat} {n : Nat} (h : Running ρ l n) :
    ∀ m ≥ n, Running ρ l m ∨ ∃ k ≥ n, Ends ρ turns k :=
  kept_until h fun _ _ hm => (running_turn hf hm).imp_left And.left

/-- Under a fair schedule a running batch ends: each of the lanes that may be pending has its step, then the controller. -/
theorem exists_ends (hf : FairRun ρ turns) {l : List Nat} {n : Nat} (h : Running ρ l n) : ∃ m ≥ n, Ends ρ turns m := by
  induction l generalizing n with
  | nil =>
    obtain ⟨m, hm, hc⟩ := hf.completion n h.1 (List.subset_nil.1 h.2)
    obtain hrun | hend := running_until hf h m hm
    · obtain hc | hr := hc
      · obtain ⟨-, -, hdone⟩ | ⟨k, hk, hend⟩ := running_turn hf hrun
        · exact absurd (List.subset_nil.1 hrun.2) (hdone hc)
        · exact ⟨k, hm.trans hk, hend⟩
      · exact ⟨m, hm, .inr hr⟩
    · exact hend
  | cons i l ih =>
    by_cases hi : i ∈ (ρ n).block.pending
    · obtain ⟨m, hm, ht⟩ := hf.lanes n i h.1 hi
      obtain hrun | hend := running_until hf h m hm
      · obtain ht | hr := ht
        · obtain ⟨⟨hd, hp⟩, hlane, -⟩ | ⟨k, hk, hend⟩ := running_turn hf hrun
          · obtain ⟨k, hk, hend⟩ := ih ⟨hd, subset_of_subset_cons hp (hlane i ht)⟩
            exact ⟨k, by omega, hend⟩
          · exact ⟨k, hm.trans hk, hend⟩
        · exact ⟨m, hm, .inr hr⟩
      · exact hend
    · exact ih ⟨h.1, subset_of_subset_cons h.2 hi⟩

theorem exists_ends_of_dispatched (hf : FairRun ρ turns) {n : Nat} (h : (ρ n).block.state = .dispatched) :
    ∃ m ≥ n, Ends ρ turns m :=
  exists_ends hf ⟨h, List.Subset.refl _⟩

/-- Under a fair schedule no batch runs for ever. -/
theorem exists_not_dispatched (hf : FairRun ρ turns) (n : Nat) : ∃ m ≥ n, (ρ m).block.state ≠ .dispatched := by
  by_cases h : (ρ n).block.state = .dispatched
  · obtain ⟨m, hm, hs | hr⟩ := exists_ends_of_dispatched hf h
    · exact ⟨m, hm, by simp [hs]⟩
    · exact ⟨m + 1, by omega, by simp [turn_rstN (hr ▸ hf.steps m)]⟩
  · exact ⟨n, le_rfl, h⟩

/-! ## The host's lines (R113) -/

/-- What the host's turn of a run leads to. -/
theorem hostTurn_of_turn (hf : FairRun ρ turns) {n : Nat} (ht : turns n = .host) :
    (ρ n).hostTurn = .next (ρ (n + 1)) := by
  rw [← hf.steps n, ht]; rfl

/-- A host with no line left has none later. -/
theorem lines_eq_nil_of_le (hf : FairRun ρ turns) {n m : Nat} (h : (ρ n).lines = []) (hm : m ≥ n) :
    (ρ m).lines = [] := by
  induction m, hm using Nat.le_induction with
  | base => exact h
  | succ m _ ih =>
    by_cases ht : turns m = .host
    · obtain ⟨-, e⟩ | ⟨l, rest, hl, -⟩ := hostTurn_cases (ht ▸ hf.steps m)
      · rw [e, ih]
      · simp [ih] at hl
    · rw [turn_lines (hf.steps m) ht, ih]

/-- The host waits for a batch before turn `n`, with `rest` to perform after. -/
def Waits (ρ : Nat → HostRun) (rest : List HostLine) (n : Nat) : Prop := (ρ n).lines = waitLine :: rest

/-- The host has gone on from its wait before turn `n`, and no batch runs. -/
def WaitIsOver (ρ : Nat → HostRun) (rest : List HostLine) (n : Nat) : Prop :=
  (ρ n).lines = rest ∧ (ρ n).block.state ≠ .dispatched

/-- The host that waits goes on at its turn where no batch runs (R111). -/
theorem waitIsOver_of_host (hf : FairRun ρ turns) {rest : List HostLine} {n : Nat} (h : Waits ρ rest n)
    (hs : (ρ n).block.state ≠ .dispatched) (ht : turns n = .host) : WaitIsOver ρ rest (n + 1) := by
  have hn := hostTurn_of_turn hf ht
  rw [hostTurn_waiting h, if_neg hs] at hn
  injection hn with hn
  rw [WaitIsOver, ← hn]
  exact ⟨rfl, hs⟩

/-- A turn leaves the host waiting, or it was the host's and its wait is over. -/
theorem waits_turn (hf : FairRun ρ turns) {rest : List HostLine} {n : Nat} (h : Waits ρ rest n) :
    Waits ρ rest (n + 1) ∨ WaitIsOver ρ rest (n + 1) := by
  by_cases ht : turns n = .host
  · by_cases hs : (ρ n).block.state = .dispatched
    · have hn := hostTurn_of_turn hf ht
      rw [hostTurn_waiting h, if_pos hs] at hn
      injection hn with hn
      exact .inl (by rw [Waits, ← hn])
    · exact .inr (waitIsOver_of_host hf h hs ht)
  · exact .inl ((turn_lines (hf.steps n) ht).trans h)

theorem waits_until (hf : FairRun ρ turns) {rest : List HostLine} {n : Nat} (h : Waits ρ rest n) :
    ∀ m ≥ n, Waits ρ rest m ∨ ∃ k ≥ n, WaitIsOver ρ rest k :=
  kept_until h fun m _ hm => (waits_turn hf hm).imp_right fun ho => ⟨m + 1, m.le_succ, ho⟩

/-- The host waits before turn `n`, although no batch runs. -/
def WaitsIdly (ρ : Nat → HostRun) (rest : List HostLine) (n : Nat) : Prop :=
  Waits ρ rest n ∧ (ρ n).block.state ≠ .dispatched

/-- No batch starts while the host waits. -/
theorem waitsIdly_until (hf : FairRun ρ turns) {rest : List HostLine} {n : Nat} (h : WaitsIdly ρ rest n) :
    ∀ m ≥ n, WaitsIdly ρ rest m ∨ ∃ k ≥ n, WaitIsOver ρ rest k :=
  kept_until h fun m _ ⟨hw, hs⟩ =>
    (waits_turn hf hw).imp (fun hw' => ⟨hw', turn_waiting hw hs (hf.steps m)⟩) fun ho => ⟨m + 1, m.le_succ, ho⟩

/-- The wait of a host that goes on is over some time: the batch ends, no other starts while the host waits, and then
the host's turn comes. -/
theorem exists_waitIsOver (hf : FairRun ρ turns) (ha : HostActs turns) {rest : List HostLine} {n : Nat}
    (h : Waits ρ rest n) : ∃ m ≥ n, WaitIsOver ρ rest m := by
  obtain ⟨m, hm, hs⟩ := exists_not_dispatched hf n
  obtain hw | hover := waits_until hf h m hm
  · obtain ⟨j, hj, ht⟩ := ha m
    obtain ⟨hw, hs⟩ | ⟨k, hk, hover⟩ := waitsIdly_until hf ⟨hw, hs⟩ j hj
    · exact ⟨j + 1, by omega, waitIsOver_of_host hf hw hs ht⟩
    · exact ⟨k, hm.trans hk, hover⟩
  · exact hover

end FairRuns

/-! ## Batches complete (R113, R292) -/

/-- Settles O39, by induction on the lanes that may be pending: left to itself or by fairness each takes its step, then
the batch completes, and the host that waits reads that it has. -/
theorem batchesComplete : Obligations.BatchesComplete := by
  unfold Obligations.BatchesComplete
  refine ⟨fun s hs ha => run_autonomous _ hs ha le_rfl, fun ρ turns hf => ⟨?completes, ?ended, ?waits⟩⟩
  case completes =>
    intro n hs hr
    obtain ⟨m, hm, hd | hrst⟩ := exists_ends_of_dispatched hf hs
    · exact ⟨m, hm, hd⟩
    · exact absurd hrst (hr m hm)
  case ended =>
    intro n hl
    obtain ⟨m, hm, hs⟩ := exists_not_dispatched hf n
    exact ⟨m, hm, by simp [HostRun.ended, lines_eq_nil_of_le hf hl hm, hs]⟩
  case waits => exact fun ha n rest h => exists_waitIsOver hf ha h

end Sys2Proof.Machine
end

section
/-! PROOFS. The header byte by byte, encoding and decoding inverse to each other (R131 to R134, R143, R144), and the
commands ENCODE_HEADER, LOAD_HEADER and SET_NONCE (R131, R135, R136). -/

namespace Sys2Proof.Machine

/-! ## The bytes of a header (R133, R134) -/

/-- Byte `j` of a reversed hash is the one that stands that far from the end (R134). -/
theorem byteAt_rev (X : Bytes 32) {j : Nat} (h : j < 32) : byteAt (rev X).toList j = X[31 - j] := by
  rw [byteAt_toList _ _ h, getElem_rev]

/-- Settles O12: a byte of the header is a byte of the one field it lies in, counted from the field's offset. -/
theorem headerBytesOfTheFields : Obligations.HeaderBytesOfTheFields := by
  unfold Obligations.HeaderBytesOfTheFields
  intro f
  simp only [encodeFields, Bytes.getElem_ofList, byteAt_append, List.length_append, le32_length, Vector.length_toList]
  refine ⟨fun i h => ⟨?_, ?_, ?_, ?_⟩, fun j h => ⟨?_, ?_⟩⟩ <;>
    simp (disch := omega) only [if_pos, if_neg, Nat.add_sub_cancel_left, Nat.reduceAdd, byteAt_le32, byteAt_rev]

/-! ## Encoding and decoding (R144) -/

/-- A port word is the word whose four bytes stand there (R62). -/
theorem portWord_eq {n : Nat} {X : Bytes n} {k : Nat} {x : Word} (hk : 4 * k + 4 ≤ n)
    (h : ∀ b (_ : b < 4), X[4 * k + b] = x.extractLsb' (8 * b) 8) : portWord X k = x :=
  leWord_of_le32 fun b hb => by rw [byteAt_toList _ _ (by omega), h b hb]

/-- A hash is the reversed slice at the offset where its bytes stand reversed (R134, R143). -/
theorem rev_slice_eq {m : Nat} {X : Bytes m} {a : Nat} {P : Bytes 32} (ha : a + 32 ≤ m)
    (h : ∀ j (_ : j < 32), X[a + j] = P[31 - j]) : rev (slice X a 32) = P := by
  refine Bytes.ext fun j hj => ?_
  rw [getElem_rev, getElem_slice _ _ _ _ (by omega) (by omega), h _ (by omega)]
  congr 1
  omega

/-- Byte `j` of a slice, counted from the end of the reversed slice (R134, R143). -/
theorem getElem_rev_slice {m : Nat} (X : Bytes m) (a : Nat) (ha : a + 32 ≤ m) {j : Nat} (hj : j < 32) :
    (rev (slice X a 32))[31 - j] = X[a + j] := by
  rw [← getElem_rev _ _ hj, rev_rev, getElem_slice _ _ _ _ hj (by omega)]

theorem decodeFields_encodeFields (f : HeaderFields) : decodeFields (encodeFields f) = f := by
  have hbytes := headerBytesOfTheFields f
  simp only [forall_and] at hbytes
  obtain ⟨⟨hversion, htime, hbits, hnonce⟩, hprevHash, hmerkleRoot⟩ := hbytes
  unfold decodeFields
  congr 1
  · exact portWord_eq (by omega) (by simpa using hversion)
  · exact rev_slice_eq (by omega) hprevHash
  · exact rev_slice_eq (by omega) hmerkleRoot
  · exact portWord_eq (by omega) htime
  · exact portWord_eq (by omega) hbits
  · exact portWord_eq (by omega) hnonce

/-- Each byte of a header lies in one field of it, which is decoded from there and encoded to there. -/
theorem encodeFields_decodeFields (h : Bytes 80) : encodeFields (decodeFields h) = h := by
  have hbytes := headerBytesOfTheFields (decodeFields h)
  simp only [forall_and] at hbytes
  obtain ⟨⟨hversion, htime, hbits, hnonce⟩, hprevHash, hmerkleRoot⟩ := hbytes
  refine Bytes.ext fun i hi => ?_
  obtain c | c | c | c | c | c : i < 4 ∨ (4 ≤ i ∧ i < 36) ∨ (36 ≤ i ∧ i < 68) ∨ (68 ≤ i ∧ i < 72) ∨
      (72 ≤ i ∧ i < 76) ∨ 76 ≤ i := by omega
  · have hb := extract_portWord h 0 i c (by omega)
    simp only [Nat.mul_zero, Nat.zero_add] at hb
    exact (hversion i c).trans hb
  · obtain ⟨j, rfl⟩ := Nat.exists_eq_add_of_le c.1
    exact (hprevHash j (by omega)).trans (getElem_rev_slice h 4 (by omega) (by omega))
  · obtain ⟨j, rfl⟩ := Nat.exists_eq_add_of_le c.1
    exact (hmerkleRoot j (by omega)).trans (getElem_rev_slice h 36 (by omega) (by omega))
  · obtain ⟨b, rfl⟩ := Nat.exists_eq_add_of_le c.1
    exact (htime b (by omega)).trans (extract_portWord h 17 b (by omega) (by omega))
  · obtain ⟨b, rfl⟩ := Nat.exists_eq_add_of_le c.1
    exact (hbits b (by omega)).trans (extract_portWord h 18 b (by omega) (by omega))
  · obtain ⟨b, rfl⟩ := Nat.exists_eq_add_of_le c
    exact (hnonce b (by omega)).trans (extract_portWord h 19 b (by omega) (by omega))

/-- Settles O13: each field is read back from the bytes it was put at, and each byte from the field it was read into. -/
theorem headerRoundTrip : Obligations.HeaderRoundTrip := ⟨decodeFields_encodeFields, encodeFields_decodeFields⟩

/-! ## The header commands (R131, R135, R136) -/

/-- The states that admit ENCODE_HEADER and LOAD_HEADER are all but Dispatched and ResultsReady (R95). -/
theorem no_batch_of_admitted {st : SearchState} (h : st = .idle ∨ st = .headerLoaded ∨ st = .solved) :
    st ≠ .dispatched ∧ st ≠ .resultsReady := by
  obtain rfl | rfl | rfl := h <;> simp

@[simp] theorem legal_setNonce (st : SearchState) (v : Bool) :
    legal .setNonce st v = true ↔ st ≠ .dispatched := by cases st <;> simp [legal]

/-- Settles O11: the gate of R95, then the encoding of the field registers. -/
theorem encodeHeaderLoadsTheFields : Obligations.EncodeHeaderLoadsTheFields := by
  unfold Obligations.EncodeHeaderLoadsTheFields
  have hw : decode 0x00000001#32 = .ok .encodeHeader := decode_encode .encodeHeader
  refine ⟨hw, fun s he hs => ?illegal, fun s he hs => ?passes⟩
  case illegal => exact exec_illegal hw he fun hl => not_or.2 ((legal_encodeHeader _ _).1 hl) hs
  case passes => exact exec_passes (.inl he) ((legal_encodeHeader _ _).2 (no_batch_of_admitted hs))

/-- Settles O14: the gate of R95, then the commit of HDR. -/
theorem loadHeaderCommitsHdr : Obligations.LoadHeaderCommitsHdr := by
  unfold Obligations.LoadHeaderCommitsHdr
  have hw : decode 0x00000002#32 = .ok .loadHeader := decode_encode .loadHeader
  refine ⟨hw, fun s he hs => ?illegal, fun s he hs => ?passes⟩
  case illegal => exact exec_illegal hw he fun hl => not_or.2 ((legal_loadHeader _ _).1 hl) hs
  case passes => exact exec_passes (.inl he) ((legal_loadHeader _ _).2 (no_batch_of_admitted hs))

/-- Settles O15: the gate of R95, then the header with the nonce of the register. -/
theorem setNonceWritesTheLastFourBytes : Obligations.SetNonceWritesTheLastFourBytes := by
  unfold Obligations.SetNonceWritesTheLastFourBytes
  have hw : decode 0x00000003#32 = .ok .setNonce := decode_encode .setNonce
  refine ⟨hw, fun s he hs => ?illegal, fun s he hs => ⟨withNonce s.hdr s.nonce, ?passes, ?header, ?nonce⟩⟩
  case illegal => exact exec_illegal hw he fun hl => (legal_setNonce _ _).1 hl hs
  case passes => exact exec_passes (.inl he) ((legal_setNonce _ _).2 hs)
  case header => exact getElem_withNonce_header s.hdr s.nonce
  case nonce => exact getElem_withNonce_nonce s.hdr s.nonce

end Sys2Proof.Machine
end

section
/-! PROOFS. The compact target (R138 to R141): when it is an error, and which targets overflow 256 bits; and the command
COMPUTE_TARGET (R142). -/

namespace Sys2Proof.Machine

/-! ## The value of a compact target (R138, R139) -/

/-- `mantissa * 2^(8*(exponent-3))`, the value a compact target denotes where its exponent is 3 or more (R138). -/
def compactValue (bits : Word) : Nat := bits.toNat % 2 ^ 24 * 2 ^ (8 * (bits.toNat / 2 ^ 24 - 3))

theorem expand_eq (bits : Word) :
    expand bits =
      if bits.toNat / 2 ^ 24 < 3 then none
      else if 2 ^ 256 ≤ compactValue bits then none else some (be256 (compactValue bits)) := by
  rw [expand, exponentOf_eq, mantissaOf_eq]
  rfl

/-- The compact targets that are errors: exponent below 3, or a value past 256 bits (R139, R141). -/
theorem expand_eq_none_iff (bits : Word) :
    expand bits = none ↔ bits.toNat / 2 ^ 24 < 3 ∨ 2 ^ 256 ≤ compactValue bits := by
  rw [expand_eq, ite_eq_left_iff, Nat.not_lt, or_iff_not_imp_left, Nat.not_lt]
  simp only [ite_eq_left_iff, reduceCtorEq, imp_false, not_not]

theorem expand_eq_some {bits : Word} (h : 3 ≤ bits.toNat / 2 ^ 24) (h' : compactValue bits < 2 ^ 256) :
    expand bits = some (be256 (compactValue bits)) := by
  rw [expand_eq, if_neg (Nat.not_lt.2 h), if_neg (Nat.not_le.2 h')]

/-- Settles O16: the value is written in 32 big-endian bytes where it fits them. -/
theorem expandCompactTarget : Obligations.ExpandCompactTarget := by
  unfold Obligations.ExpandCompactTarget
  exact fun bits => ⟨(expand_eq_none_iff bits).2, fun h h' => ⟨_, expand_eq_some h h', beVal_be256 h'⟩⟩

/-! ## Overflow (R140) -/

/-- A number shifted left by at most 256 bits overflows them when it reaches the bits that are left. -/
theorem two_pow_256_le_mul_iff {k : Nat} (m : Nat) (hk : k ≤ 256) :
    2 ^ 256 ≤ m * 2 ^ k ↔ 2 ^ (256 - k) ≤ m := by
  conv_lhs => rw [← Nat.sub_add_cancel hk, Nat.pow_add]
  exact Nat.mul_le_mul_right_iff (Nat.two_pow_pos k)

/-- A number shifted left by 256 bits or more overflows them unless it is 0. -/
theorem two_pow_256_le_mul_iff_ne_zero {k : Nat} (m : Nat) (hk : 256 ≤ k) : 2 ^ 256 ≤ m * 2 ^ k ↔ m ≠ 0 := by
  constructor
  · rintro h rfl
    simp at h
  · intro h
    calc 2 ^ 256 ≤ 2 ^ k := Nat.pow_le_pow_right (by omega) hk
      _ ≤ m * 2 ^ k := Nat.le_mul_of_pos_left _ (Nat.pos_of_ne_zero h)

/-- Settles O17, by the exponent: up to 32 the 24 bits of the mantissa stay below bit 256, at 33 and 34 the top 8 and 16
of them pass it, from 35 on all do. -/
theorem overflowingCompactTargets : Obligations.OverflowingCompactTargets := by
  unfold Obligations.OverflowingCompactTargets
  intro bits h
  have hm : bits.toNat % 2 ^ 24 < 2 ^ 24 := Nat.mod_lt _ (by omega)
  rw [expand_eq_none_iff, or_iff_right (Nat.not_lt.2 h), compactValue]
  generalize bits.toNat / 2 ^ 24 = e at *
  generalize bits.toNat % 2 ^ 24 = m at *
  obtain he | rfl | rfl | he : e ≤ 32 ∨ e = 33 ∨ e = 34 ∨ 35 ≤ e := by omega
  · have hroom : 2 ^ 24 ≤ 2 ^ (256 - 8 * (e - 3)) := Nat.pow_le_pow_right (by omega) (by omega)
    rw [two_pow_256_le_mul_iff m (by omega)]
    omega
  · rw [two_pow_256_le_mul_iff m (by omega)]
    omega
  · rw [two_pow_256_le_mul_iff m (by omega)]
    omega
  · rw [two_pow_256_le_mul_iff_ne_zero m (by omega)]
    omega

/-! ## COMPUTE_TARGET (R142) -/

@[simp] theorem legal_computeTarget (st : SearchState) (v : Bool) :
    legal .computeTarget st v = true ↔ st ≠ .dispatched := by cases st <;> simp [legal]

theorem computeTarget_of_some {s : State} {t : Bytes 32} (h : expand s.bits = some t) :
    s.computeTarget = { s with target := t } := by
  simp only [State.computeTarget, h]

/-- With no error pending INVALID_DIFFICULTY is recorded with the command word (R142, R252). -/
theorem computeTarget_of_none {s : State} (he : s.err = .none) (h : expand s.bits = none) :
    s.computeTarget = { s with err := .invalidDifficulty, errInfo := encode .computeTarget } := by
  simp only [State.computeTarget, h, State.raise, he, if_true]

/-- Settles O18: the gate of R95, then the two outcomes of the expansion. -/
theorem computeTargetExpandsBits : Obligations.ComputeTargetExpandsBits := by
  unfold Obligations.ComputeTargetExpandsBits
  have hw : decode 0x00000004#32 = .ok .computeTarget := decode_encode .computeTarget
  refine ⟨hw, fun s he hs => exec_illegal hw he fun hl => (legal_computeTarget _ _).1 hl hs, fun s he hs => ?passes⟩
  case passes =>
    have hx : exec .computeTarget s = .next s.computeTarget :=
      exec_passes (.inl he) ((legal_computeTarget _ _).2 hs)
    rw [hx]
    exact ⟨fun t ht => congrArg _ (computeTarget_of_some ht), fun hn => congrArg _ (computeTarget_of_none he hn)⟩

end Sys2Proof.Machine
end

section
/-! PROOFS. The host text codec: the display string of a digest (R146, R150), reading a template (R147 to R151), and
what the writes of its fields leave in the block (R67, R111). -/

namespace Sys2Proof.Machine

/-! ## The display string (R146, R150) -/

/-- The hexadecimal text of `n` bytes is read as those bytes (R146, R150). -/
theorem hexBytes_byteHex {X : List Byte} {n : Nat} (h : X.length = n) : hexBytes (X.flatMap byteHex) n = .ok X := by
  rw [hexBytes, if_pos (by rw [length_byteHex, h]), pairBytes_byteHex]

/-- Settles O58: the display is the hexadecimal text of the 32 bytes of the reversed digest. -/
theorem displayReadsBack : Obligations.DisplayReadsBack :=
  fun D => ⟨(length_byteHex _).trans (by simp), hexBytes_byteHex (by simp)⟩

/-! ## Reading a template (R147 to R151) -/

/-- A value that is read in two stages is read by each of them. -/
theorem bind_eq_ok_iff {α β : Type} (x : Except HostError α) (g : α → Except HostError β) (b : β) :
    x.bind g = .ok b ↔ ∃ a, x = .ok a ∧ g a = .ok b := by
  cases x <;> simp [Except.bind]

/-- A template is read exactly when each of its five members is, and its fields are what they are read as (R151). -/
theorem parseTemplate_eq_ok_iff (T : Template) (f : TemplateFields) :
    parseTemplate T = .ok f ↔
      (T.member .version).bind intField = .ok f.version ∧
      (T.member .previousblockhash).bind hashField = .ok f.prevHash ∧
      (T.member .merkleroot).bind hashField = .ok f.merkleRoot ∧
      (T.member .time).bind intField = .ok f.time ∧ (T.member .bits).bind bitsField = .ok f.bits := by
  constructor
  · intro h
    obtain ⟨version, hversion, h⟩ := (bind_eq_ok_iff _ _ _).1 h
    obtain ⟨prevHash, hprevHash, h⟩ := (bind_eq_ok_iff _ _ _).1 h
    obtain ⟨merkleRoot, hmerkleRoot, h⟩ := (bind_eq_ok_iff _ _ _).1 h
    obtain ⟨time, htime, h⟩ := (bind_eq_ok_iff _ _ _).1 h
    obtain ⟨bits, hbits, h⟩ := (bind_eq_ok_iff _ _ _).1 h
    cases h
    exact ⟨hversion, hprevHash, hmerkleRoot, htime, hbits⟩
  · rintro ⟨hversion, hprevHash, hmerkleRoot, htime, hbits⟩
    simp only [parseTemplate, hversion, hprevHash, hmerkleRoot, htime, hbits]
    rfl

/-- Where a member is read, and what is read fits the rule of its name, the template has a member that does. -/
theorem exists_fits_of_bind_eq_ok {α : Type} {T : Template} {n : MemberName} {g : JsonValue → Except HostError α}
    {a : α} (hfit : ∀ {x : JsonValue}, g x = .ok a → x.Fits n) (h : (T.member n).bind g = .ok a) :
    ∃ m ∈ T, m.1 = n ∧ m.2.Fits n := by
  obtain ⟨x, hx, hg⟩ := (bind_eq_ok_iff _ _ _).1 h
  obtain ⟨m, hm, hn, e⟩ | e := member_cases T n
  · cases hx.symm.trans e
    exact ⟨m, hm, hn, hfit hg⟩
  · cases hx.symm.trans e

theorem bind_member_of_has {α : Type} {T : Template} {n : MemberName} {x : JsonValue}
    (g : JsonValue → Except HostError α) (h : T.Has n x) : (T.member n).bind g = g x := by
  rw [member_eq_ok h]
  rfl

theorem templateWrites_of_ok {T : Template} {f : TemplateFields} (h : parseTemplate T = .ok f) :
    templateWrites T = f.writes := by
  simp only [templateWrites, h]

theorem templateWrites_of_error {T : Template} {e : HostError} (h : parseTemplate T = .error e) :
    templateWrites T = [] := by
  simp only [templateWrites, h]

/-- A value that is read as an integer field is an integer in range (R148). -/
theorem fits_of_intField {x : JsonValue} {w : Word} (h : intField x = .ok w) :
    ∃ v : Nat, v ≤ 2 ^ 32 - 1 ∧ x = .int v := by
  obtain ⟨v, hv, rfl, -⟩ | ⟨-, e⟩ := intField_cases x
  · exact ⟨v, hv, rfl⟩
  · simp [e] at h

/-- A value that is read as a hash field is a hexadecimal string of 64 characters (R147). -/
theorem fits_of_hashField {x : JsonValue} {P : Bytes 32} (h : hashField x = .ok P) :
    ∃ s, HexString s 64 ∧ x = .str s := by
  obtain ⟨s, -, rfl, hs, -⟩ | ⟨-, e⟩ := hashField_cases x
  · exact ⟨s, hs, rfl⟩
  · simp [e] at h

/-- A value that is read as the field `bits` is a hexadecimal string of 8 characters (R149). -/
theorem fits_of_bitsField {x : JsonValue} {B : Word} (h : bitsField x = .ok B) :
    ∃ s, HexString s 8 ∧ x = .str s := by
  obtain ⟨s, -, rfl, hs, -⟩ | ⟨-, e⟩ := bitsField_cases x
  · exact ⟨s, hs, rfl⟩
  · simp [e] at h

/-- A template that is read has, for each name, a member with a value that its rule admits (R151). -/
theorem exists_fits_of_parseTemplate {T : Template} {f : TemplateFields} (h : parseTemplate T = .ok f)
    {n : MemberName} (hn : n ≠ .other) : ∃ m ∈ T, m.1 = n ∧ m.2.Fits n := by
  obtain ⟨hversion, hprevHash, hmerkleRoot, htime, hbits⟩ := (parseTemplate_eq_ok_iff T f).1 h
  cases n with
  | version => exact exists_fits_of_bind_eq_ok fits_of_intField hversion
  | previousblockhash => exact exists_fits_of_bind_eq_ok fits_of_hashField hprevHash
  | merkleroot => exact exists_fits_of_bind_eq_ok fits_of_hashField hmerkleRoot
  | time => exact exists_fits_of_bind_eq_ok fits_of_intField htime
  | bits => exact exists_fits_of_bind_eq_ok fits_of_bitsField hbits
  | other => exact absurd rfl hn

/-- A string of 64 hexadecimal characters is read as the bytes it denotes (R147). -/
theorem hashField_str {s : List Char} (h : HexString s 64) :
    ∃ P : Bytes 32, HexDenotes s P.toList ∧ hashField (.str s) = .ok P := by
  obtain ⟨t, P, ht, -, hP, e⟩ | ⟨hn, -⟩ := hashField_cases (.str s)
  · cases ht
    exact ⟨P, hP, e⟩
  · exact absurd rfl (hn s h)

/-- A string of 8 hexadecimal characters is read as the number whose bytes it denotes (R149). -/
theorem bitsField_str {s : List Char} (h : HexString s 8) :
    ∃ B : Word, HexDenotes s [B.extractLsb' 24 8, B.extractLsb' 16 8, B.extractLsb' 8 8, B.extractLsb' 0 8] ∧
      bitsField (.str s) = .ok B := by
  obtain ⟨t, B, ht, -, hB, e⟩ | ⟨hn, -⟩ := bitsField_cases (.str s)
  · cases ht
    exact ⟨B, hB, e⟩
  · exact absurd rfl (hn s h)

/-- An integer in range is read as the word of its value (R148). -/
theorem intField_int {v : Nat} (h : v ≤ 2 ^ 32 - 1) : intField (.int v) = .ok (BitVec.ofNat 32 v) := by
  obtain ⟨w, -, hw, e⟩ | ⟨hn, -⟩ := intField_cases (.int v)
  · cases hw
    exact e
  · exact absurd rfl (hn v h)

/-! ## The writes of a template (R67, R111) -/

theorem runAll_nil (s : State) : s.runAll [] = .next { s with agenda := [] } := rfl

/-- Events whose first is the host's write of a register with no lock of a batch, outside Dispatched (R67). -/
theorem runAll_writeReg (r : Reg) (v : Word) (rest : List Event) {s : State} (hd : s.state ≠ .dispatched)
    (hb : (Loc.reg r).batchLocked = false := by rfl) (hro : (Loc.reg r).readOnly = false := by rfl)
    (hc : Loc.reg r ≠ .reg .cmd := by simp) :
    s.runAll (writeAt (.reg r) v :: rest) = (s.setReg v r).runAll rest := by
  refine run_cons ((perform_write_unlocked_reg r (s := { s with agenda := rest }) v hd (.inr hb) hro hc).trans ?_)
  cases r <;> rfl

/-- Events whose first are the host's writes of all the words of a hash's array, outside Dispatched (R111). -/
theorem runAll_writeBytes (a : Arr) (X : Bytes 32) (rest : List Event) {s : State} (hd : s.state ≠ .dispatched)
    (ha : a.words = 8) (hro : (Loc.word a 0).readOnly = false) :
    s.runAll (writeBytesEvents a X.toList ++ rest) =
      ((List.range 8).foldl (fun s k => s.setArr k (leWord X.toList k) a) s).runAll rest := by
  rw [State.runAll, writeBytesEvents, Vector.length_toList, List.length_append, List.length_map]
  exact run_writeWords a X.toList hro (List.range 8) (by simp [ha]) rest.length rest s hd

/-- The writes of some words of PREV_HASH change that array only. -/
theorem foldl_setArr_prevHash (ks : List Nat) (w : Nat → Word) (s : State) :
    ks.foldl (fun s k => s.setArr k (w k) .prevHash) s =
      { s with prevHash := ks.foldl (fun P k => setPortWord P k (w k)) s.prevHash } := by
  induction ks generalizing s with
  | nil => rfl
  | cons k ks ih => exact ih _

/-- The writes of some words of MERKLE_ROOT change that array only. -/
theorem foldl_setArr_merkleRoot (ks : List Nat) (w : Nat → Word) (s : State) :
    ks.foldl (fun s k => s.setArr k (w k) .merkleRoot) s =
      { s with merkleRoot := ks.foldl (fun P k => setPortWord P k (w k)) s.merkleRoot } := by
  induction ks generalizing s with
  | nil => rfl
  | cons k ks ih => exact ih _

theorem runAll_writePrevHash (X : Bytes 32) (rest : List Event) {s : State} (hd : s.state ≠ .dispatched) :
    s.runAll (writeBytesEvents .prevHash X.toList ++ rest) = ({ s with prevHash := X } : State).runAll rest := by
  rw [runAll_writeBytes .prevHash X rest hd rfl rfl, foldl_setArr_prevHash, setPortWords_all]

theorem runAll_writeMerkleRoot (X : Bytes 32) (rest : List Event) {s : State} (hd : s.state ≠ .dispatched) :
    s.runAll (writeBytesEvents .merkleRoot X.toList ++ rest) = ({ s with merkleRoot := X } : State).runAll rest := by
  rw [runAll_writeBytes .merkleRoot X rest hd rfl rfl, foldl_setArr_merkleRoot, setPortWords_all]

/-- The writes of a template's fields leave each field in its register or array, and change nothing else (R147 to
R149). -/
theorem runAll_writes (f : TemplateFields) {s : State} (hd : s.state ≠ .dispatched) :
    s.runAll f.writes =
      .next { s with
        version := f.version, prevHash := f.prevHash, merkleRoot := f.merkleRoot, time := f.time, bits := f.bits,
        agenda := [] } := by
  rw [TemplateFields.writes, List.append_assoc, List.append_assoc, List.singleton_append, runAll_writeReg .version,
    runAll_writePrevHash, runAll_writeMerkleRoot, runAll_writeReg .time, runAll_writeReg .bits, runAll_nil]
  · rfl
  all_goals exact hd

/-- Settles O59: what is written is what each member is read as, member by member, or nothing where one is not read. -/
theorem templateLoadsTheFields : Obligations.TemplateLoadsTheFields := by
  unfold Obligations.TemplateLoadsTheFields
  refine ⟨?wellFormed, ?malformed, ?nonce, ?noNonce, fun T => ⟨fun e => templateWrites_of_error, ?fields⟩⟩
  case wellFormed =>
    intro T version time prevHash merkleRoot bits hversion hv htime ht hprevHash hp hmerkleRoot hm hbits hb
    obtain ⟨P, hP, eP⟩ := hashField_str hp
    obtain ⟨M, hM, eM⟩ := hashField_str hm
    obtain ⟨B, hB, eB⟩ := bitsField_str hb
    refine ⟨P, M, B, hP, hM, hB, fun s hs => ?_⟩
    have hT : parseTemplate T = .ok ⟨BitVec.ofNat 32 version, P, M, BitVec.ofNat 32 time, B⟩ := by
      rw [parseTemplate_eq_ok_iff, bind_member_of_has _ hversion, bind_member_of_has _ hprevHash,
        bind_member_of_has _ hmerkleRoot, bind_member_of_has _ htime, bind_member_of_has _ hbits]
      exact ⟨intField_int hv, eP, eM, intField_int ht, eB⟩
    rw [templateWrites_of_ok hT, runAll_writes _ hs]
  case malformed =>
    intro T n hn h
    cases e : parseTemplate T with
    | error e' => exact templateWrites_of_error e
    | ok f =>
      obtain ⟨m, hm, he, hf⟩ := exists_fits_of_parseTemplate e hn
      exact absurd hf (h m hm he)
  case nonce =>
    intro v hv s hs
    rw [nonceWrites, intField_int hv]
    exact runAll_writeReg .nonce _ [] hs
  case noNonce =>
    intro x hx
    obtain ⟨v, hv, e, -⟩ | ⟨-, e⟩ := intField_cases x
    · exact absurd e (hx v hv)
    · rw [nonceWrites, e]
  case fields =>
    intro f hf s hs
    rw [templateWrites_of_ok hf, runAll_writes f hs]

end Sys2Proof.Machine
end

section
/-! PROOFS. SHA-256 and the hash commands: the padding of a message (R165), the schedule of a block (R168, R169), and HASH1
and HASH2 (R178 to R180). -/

namespace Sys2Proof.Machine

/-! ## Padding (R165) -/

/-- The zero bytes bring the length to 56 modulo 64 (R165). -/
theorem padZeros_mod (L : Nat) : (L + 1 + padZeros L) % 64 = 56 := by
  unfold padZeros
  omega

/-- No smaller number of zero bytes does (R165). -/
theorem padZeros_le {L z : Nat} (h : (L + 1 + z) % 64 = 56) : padZeros L ≤ z := by
  unfold padZeros
  omega

@[simp] theorem be64_length (v : Nat) : (be64 v).length = 8 := beBytes_length 8 v

/-- BEval(BE64(v)) = v (R13). -/
theorem beVal_be64 {v : Nat} (h : v < 2 ^ 64) : beVal (be64 v) = v := by
  rw [be64, beVal_beBytes, Nat.mod_eq_of_lt]
  omega

/-- A padded message consists of the message, 0x80, the zero bytes and the 8 bytes of its length (R165). -/
theorem length_pad (M : List Byte) : (pad M).length = M.length + 1 + padZeros M.length + 8 := by
  simp only [pad, List.length_append, List.length_singleton, List.length_replicate, be64_length]

/-- Settles O19: `padZeros` is the smallest number of zero bytes, and a bit length below 2^64 fits the length field. -/
theorem paddingIsMinimal : Obligations.PaddingIsMinimal := by
  unfold Obligations.PaddingIsMinimal
  intro M hM
  have hz := padZeros_mod M.length
  refine ⟨padZeros M.length, be64 (8 * M.length), rfl, be64_length _, beVal_be64 (by omega), hz, fun z' => padZeros_le, ?_⟩
  rw [length_pad]
  omega

/-! ## The message schedule (R168, R169) -/

/-- The first word by which a schedule is extended is the next one (R169). -/
theorem extendSchedule_getD_length (n : Nat) (W : List Word) :
    (extendSchedule (n + 1) W).getD W.length 0#32 = nextScheduleWord W := by
  rw [extendSchedule, extendSchedule_getD_of_lt _ _ _ (by simp), List.getD_append_right _ _ _ _ le_rfl, Nat.sub_self,
    List.getD_cons_zero]

/-- Every word by which a schedule of 16 or more words is extended follows the recurrence (R169). -/
theorem extendSchedule_getD_of_ge (n : Nat) {W : List Word} {t : Nat} (hW : 16 ≤ W.length) (ht : W.length ≤ t)
    (ht' : t < W.length + n) :
    (extendSchedule n W).getD t 0#32 =
      (extendSchedule n W).getD (t - 16) 0#32 + smallSigma0 ((extendSchedule n W).getD (t - 15) 0#32)
        + (extendSchedule n W).getD (t - 7) 0#32 + smallSigma1 ((extendSchedule n W).getD (t - 2) 0#32) := by
  induction n generalizing W with
  | zero => omega
  | succ n ih =>
    obtain rfl | hlt := Nat.eq_or_lt_of_le ht
    · have keep (k : Nat) (hk : k < W.length) : (extendSchedule (n + 1) W).getD k 0#32 = W.getD k 0#32 :=
        extendSchedule_getD_of_lt _ _ _ hk
      rw [extendSchedule_getD_length, keep _ (by omega), keep _ (by omega), keep _ (by omega), keep _ (by omega)]
      rfl
    · have hlen : (W ++ [nextScheduleWord W]).length = W.length + 1 := List.length_append
      exact ih (by omega) (by omega) (by omega)

@[simp] theorem length_messageWords (block : List Byte) : (messageWords block).length = 16 := by simp [messageWords]

theorem messageWords_getD (block : List Byte) {t : Nat} (h : t < 16) :
    (messageWords block).getD t 0#32 = beWord block t := by
  simp [messageWords, h]

/-- Settles O20: the words of the block stay as the schedule is extended by 48 more, each by the recurrence. -/
theorem scheduleRecurrence : Obligations.ScheduleRecurrence := by
  unfold Obligations.ScheduleRecurrence schedule
  intro block
  have hlen : (messageWords block).length = 16 := length_messageWords block
  refine ⟨?length, fun t ht => ?fromBlock, fun t ht ht' => ?recurrence⟩
  case length => rw [extendSchedule_length, hlen]
  case fromBlock => rw [extendSchedule_getD_of_lt _ _ _ (by omega), messageWords_getD block ht]
  case recurrence => exact extendSchedule_getD_of_ge 48 (by omega) (by omega) (by omega)

/-! ## HASH1 and HASH2 (R178, R179) -/

@[simp] theorem legal_hash1 (st : SearchState) (v : Bool) :
    legal .hash1 st v = true ↔ st ≠ .dispatched := by cases st <;> simp [legal]

@[simp] theorem legal_hash2 (st : SearchState) (v : Bool) :
    legal .hash2 st v = true ↔ st ≠ .dispatched := by cases st <;> simp [legal]

/-- A command that only Dispatched shuts out is refused there and has its effect everywhere else (R94, R95). -/
theorem exec_of_legal_outside_dispatched {i : Instr} {w : Word} (hw : decode w = .ok i)
    (hl : ∀ (st : SearchState) (v : Bool), legal i st v = true ↔ st ≠ .dispatched) :
    (∀ s : State, s.err = .none → s.state = .dispatched →
      exec i s = .next { s with err := .illegalCommand, errInfo := w }) ∧
    ∀ s : State, s.err = .none → s.state ≠ .dispatched → exec i s = .next (effectOf i s) :=
  ⟨fun _ he hs => exec_illegal hw he fun h => (hl _ _).1 h hs, fun _ he hs => exec_passes (.inl he) ((hl _ _).2 hs)⟩

/-- Settles O23: the gate of R95, then one hash of HDR. -/
theorem hash1HashesHdr : Obligations.Hash1HashesHdr := by
  unfold Obligations.Hash1HashesHdr
  have hw : decode 0x00000005#32 = .ok .hash1 := decode_encode .hash1
  exact ⟨hw, exec_of_legal_outside_dispatched hw legal_hash1⟩

/-- Settles O24: the gate of R95, then the double hash of HDR and its verdict. -/
theorem hash2HashesHdrTwice : Obligations.Hash2HashesHdrTwice := by
  unfold Obligations.Hash2HashesHdrTwice
  have hw : decode 0x00000006#32 = .ok .hash2 := decode_encode .hash2
  exact ⟨hw, exec_of_legal_outside_dispatched hw legal_hash2⟩

/-! ## HASH2 and the lane (R180) -/

/-- The candidate depends on the first 76 bytes of the header and on the nonce only (R180). -/
theorem candidate_congr {h h' : Bytes 80} (n : Word) (e : ∀ j (_ : j < 76), h[j] = h'[j]) :
    candidate h n = candidate h' n := by
  rw [candidate, withNonce_congr n e, candidate]

/-- A lane step puts its lane in HIT exactly when its digest is accepted (R210). -/
theorem mem_hit_laneStep_self (s : State) (i : Nat) :
    i ∈ (s.laneStep i).hit ↔ accept (s.laneDigest i) s.target = true := by
  simp

/-- Settles O25: both compute the candidate of the one nonce, and its verdict against the one target. -/
theorem hash2AgreesWithTheLane : Obligations.Hash2AgreesWithTheLane := by
  unfold Obligations.Hash2AgreesWithTheLane
  intro s r i he hs hr hi hn hh ht
  have hD : r.laneDigest i = candidate s.hdr s.nonce := by
    rw [State.laneDigest, State.laneNonce, hn, candidate_congr _ hh]
  refine ⟨effectOf .setNonce s, effectOf .hash2 (effectOf .setNonce s), r.laneStep i, ?setNonce, ?hash2, ?lane, ?digest,
    ?verdict⟩
  case setNonce => exact exec_passes (.inl he) ((legal_setNonce _ _).2 hs)
  case hash2 => exact exec_passes (.inl he) ((legal_hash2 _ _).2 hs)
  case lane => rw [perform, laneTurn_enabled hr hi]
  case digest =>
    have hslot := slotHolds_laneStep r i
    rwa [hD] at hslot
  case verdict =>
    have hhit := mem_hit_laneStep_self r i
    rwa [hD, ht] at hhit

end Sys2Proof.Machine
end

section
/-! PROOFS. The commands of the dispatch unit: the control commands (R220 to R222), SUBMIT and its errors (R205 to
R208), RETIRE and REARM (R218, R219). -/

namespace Sys2Proof.Machine

/-! ## The error record (R252) -/

/-- With no error pending an error is recorded (R252). -/
theorem raise_of_no_error {s : State} (he : s.err = .none) (e : ErrCode) (info : Word) :
    s.raise e info = { s with err := e, errInfo := info } := by
  simp only [State.raise, he, if_true]

/-- While an error is pending another one is not recorded (R252). -/
theorem raise_of_pending {s : State} (he : s.err ≠ .none) (e : ErrCode) (info : Word) : s.raise e info = s := by
  simp only [State.raise, he, if_false]

/-! ## The control commands (R220 to R222) -/

/-- Settles O7: NOP is the command that does nothing in every state. -/
theorem nopDoesNothing : Obligations.NopDoesNothing :=
  ⟨decode_encode .nop, (exec_eq_self_iff .nop).2 rfl⟩

/-- Settles O8: no state and no pending error shuts CLEAR_ERR out. -/
theorem clearErrClearsTheError : Obligations.ClearErrClearsTheError :=
  ⟨decode_encode .clearErr, fun _ => ⟨exec_passes (.inr rfl) rfl, rfl⟩⟩

/-- Settles O9: Dispatched alone shuts SOFT_RESET out, and the refusal there is not recorded over a pending error. -/
theorem softResetResets : Obligations.SoftResetResets := by
  unfold Obligations.SoftResetResets
  refine ⟨fun s hs => exec_passes (.inr rfl) ((legal_softReset _ _).2 hs), fun s hs he => ?_⟩
  have hl : legal .softReset s.state s.hdrValid = false :=
    Bool.eq_false_iff.2 fun h => (legal_softReset _ _).1 h hs
  rw [exec_eq, runCommand_illegal (.inr rfl) hl, raise_of_pending he]

/-! ## SUBMIT (R205 to R208) -/

/-- SUBMIT passes the gate in HeaderLoaded with no error pending (R95). -/
theorem exec_submit {s : State} (he : s.err = .none) (hs : s.state = .headerLoaded) :
    exec .submit s = .next s.submit :=
  exec_passes (.inl he) ((legal_submit _ _).2 hs)

/-- The first check of SUBMIT: BATCH_SIZE (R206). -/
theorem submit_badBatchSize {s : State} (h : s.batchSize.toNat = 0 ∨ s.maxBatch < s.batchSize.toNat) :
    s.submit = s.raise .badBatchSize (encode .submit) :=
  if_pos (h.imp_left fun h => BitVec.eq_of_toNat_eq h)

/-- SUBMIT with a legal BATCH_SIZE goes on to the other checks (R205). -/
theorem submit_of_legal_size {s : State} (h1 : 1 ≤ s.batchSize.toNat) (h2 : s.batchSize.toNat ≤ s.maxBatch) :
    s.submit =
      if 2 ^ 32 < s.off + s.batchSize.toNat then
        { s.raise .searchSpaceExhausted (encode .submit) with state := .idle, hdrValid := false }
      else if s.lanesReady = false then s.raise .deviceUnavailable (encode .submit)
      else { s with found := false, nsr := false, pending := List.range s.batchSize.toNat, state := .dispatched } := by
  have hne : s.batchSize ≠ 0#32 := fun h => by simp [h] at h1
  exact if_neg (not_or.2 ⟨hne, by omega⟩)

/-- The second check of SUBMIT: the batch must end within the nonce space (R207). -/
theorem submit_exhausted {s : State} (h1 : 1 ≤ s.batchSize.toNat) (h2 : s.batchSize.toNat ≤ s.maxBatch)
    (h : 2 ^ 32 < s.off + s.batchSize.toNat) :
    s.submit = { s.raise .searchSpaceExhausted (encode .submit) with state := .idle, hdrValid := false } := by
  rw [submit_of_legal_size h1 h2, if_pos h]

/-- The third check of SUBMIT: lanes_ready (R208). -/
theorem submit_unavailable {s : State} (h1 : 1 ≤ s.batchSize.toNat) (h2 : s.batchSize.toNat ≤ s.maxBatch)
    (h : s.off + s.batchSize.toNat ≤ 2 ^ 32) (hr : s.lanesReady = false) :
    s.submit = s.raise .deviceUnavailable (encode .submit) := by
  rw [submit_of_legal_size h1 h2, if_neg (Nat.not_lt.2 h), if_pos hr]

/-- SUBMIT whose checks all pass (R205). -/
theorem submit_accepted {s : State} (h1 : 1 ≤ s.batchSize.toNat) (h2 : s.batchSize.toNat ≤ s.maxBatch)
    (h : s.off + s.batchSize.toNat ≤ 2 ^ 32) (hr : s.lanesReady = true) :
    s.submit =
      { s with found := false, nsr := false, pending := List.range s.batchSize.toNat, state := .dispatched } := by
  rw [submit_of_legal_size h1 h2, if_neg (Nat.not_lt.2 h), if_neg (by simp [hr])]

/-- Settles O27: each of the three checks, the ones before it passed, and the record of its error. -/
theorem submitErrors : Obligations.SubmitErrors := by
  unfold Obligations.SubmitErrors
  intro s he hs
  rw [exec_submit he hs]
  refine ⟨fun h => ?badBatchSize, fun h1 h2 h => ?exhausted, fun h1 h2 h hr => ?unavailable⟩
  case badBatchSize => rw [submit_badBatchSize h, raise_of_no_error he]; rfl
  case exhausted => rw [submit_exhausted h1 h2 h, raise_of_no_error he]; rfl
  case unavailable => rw [submit_unavailable h1 h2 h hr, raise_of_no_error he]; rfl

/-- A batch of a lane or more ends within the nonce space only if it starts there (R34, R205). -/
theorem offsetHi_eq_false {s : State} (h1 : 1 ≤ s.batchSize.toNat) (h : s.off + s.batchSize.toNat ≤ 2 ^ 32) :
    s.offsetHi = false := by
  refine Bool.eq_false_iff.2 fun hhi => ?_
  rw [State.off, hhi, Bool.toNat_true] at h
  omega

/-- Settles O28: the checks of SUBMIT pass, and PENDING is the list of the lanes below BATCH_SIZE. -/
theorem submitDispatchesTheBatch : Obligations.SubmitDispatchesTheBatch := by
  unfold Obligations.SubmitDispatchesTheBatch
  refine ⟨decode_encode .submit, fun s he hs h1 h2 h hr => ?_⟩
  have hlo := offsetHi_eq_false h1 h
  refine ⟨⟨_, exec_submit he hs, ?dispatched⟩, hlo, by omega⟩
  case dispatched =>
    rw [submit_accepted h1 h2 h hr]
    exact ⟨rfl, fun i => List.mem_range, List.pairwise_lt_range⟩

/-! ## RETIRE and REARM (R218, R219) -/

/-- RETIRE passes the gate in ResultsReady with no error pending (R95). -/
theorem exec_retire {s : State} (he : s.err = .none) (hs : s.state = .resultsReady) :
    exec .retire s = .next s.retire :=
  exec_passes (.inl he) ((legal_retire _ _).2 hs)

/-- RETIRE of a batch with a solution (R218). -/
theorem retire_found {s : State} (hf : s.found = true) : s.retire = { s with state := .solved } := if_pos hf

/-- RETIRE of a batch without a solution, which ends within the nonce space (R218). -/
theorem retire_unsolved {s : State} (hf : s.found = false) (h : s.off + s.batchSize.toNat ≤ 2 ^ 32) :
    ∃ (lo : Word) (hi : Bool), s.retire = { s with nonceOffset := lo, offsetHi := hi, state := .idle } ∧
      hi.toNat * 2 ^ 32 + lo.toNat = s.off + s.batchSize.toNat :=
  ⟨_, _, if_neg (by simp [hf]), off_split _ h⟩

/-- Settles O33: the gate of R95, then the two branches of R218. -/
theorem retireAdvancesTheOffset : Obligations.RetireAdvancesTheOffset := by
  unfold Obligations.RetireAdvancesTheOffset
  refine ⟨decode_encode .retire, fun s he hs => ?_⟩
  rw [exec_retire he hs]
  refine ⟨fun hf => by rw [retire_found hf], fun hf h => ?_⟩
  obtain ⟨lo, hi, e, hoff⟩ := retire_unsolved hf h
  exact ⟨lo, hi, by rw [e], hoff⟩

/-- Settles O34: REARM is admitted in Idle with a valid header, and nowhere else. -/
theorem rearmReentersHeaderLoaded : Obligations.RearmReentersHeaderLoaded := by
  unfold Obligations.RearmReentersHeaderLoaded
  have hw : decode 0x00000009#32 = .ok .rearm := decode_encode .rearm
  refine ⟨hw, fun s he => ⟨fun hs hv => exec_passes (.inl he) ((legal_rearm _ _).2 ⟨hs, hv⟩), fun h => ?illegal⟩⟩
  case illegal =>
    refine exec_illegal hw he fun hl => ?_
    obtain ⟨hs, hv⟩ := (legal_rearm _ _).1 hl
    exact h.elim (fun hn => by simp [hn] at hv) (fun hn => hn hs)

end Sys2Proof.Machine
end

section
/-! PROOFS. The comparator (R200, R201): byte arrays of one length compare as big-endian integers as they do byte by
byte. -/

namespace Sys2Proof.Machine

/-- The first byte of a big-endian value counts above all the others (R13). -/
theorem beVal_cons (x : Byte) (X : List Byte) : beVal (x :: X) = x.toNat * 256 ^ X.length + beVal X := by
  induction X using List.reverseRecOn with
  | nil => simp [beVal]
  | append_singleton X b ih =>
    rw [← List.cons_append, beVal_append_singleton, beVal_append_singleton, ih, List.length_append,
      List.length_singleton, Nat.pow_succ]
    ring

/-- Big-endian values of one length compare as their bytes do, the first difference deciding (R201). -/
theorem beVal_lt_beVal_iff {X Y : List Byte} (h : X.length = Y.length) : beVal X < beVal Y ↔ X < Y := by
  induction X generalizing Y with
  | nil => simp [List.length_eq_zero_iff.1 h.symm]
  | cons x X ih =>
    obtain _ | ⟨y, Y⟩ := Y
    · simp at h
    have hlen : X.length = Y.length := by simpa using h
    have hX := beVal_lt X
    have hY := beVal_lt Y
    rw [List.cons_lt_cons_iff, ← ih hlen, beVal_cons, beVal_cons, BitVec.lt_def, ← BitVec.toNat_inj]
    rw [hlen] at hX ⊢
    obtain hlt | heq | hgt := Nat.lt_trichotomy x.toNat y.toNat
    · have := Nat.mul_le_mul_right (256 ^ Y.length) (Nat.succ_le_of_lt hlt)
      rw [Nat.succ_mul] at this
      exact iff_of_true (by omega) (.inl hlt)
    · simp [heq]
    · have := Nat.mul_le_mul_right (256 ^ Y.length) (Nat.succ_le_of_lt hgt)
      rw [Nat.succ_mul] at this
      exact iff_of_false (by omega) (by omega)

/-- The comparator's verdict as a comparison of integers (R200). -/
theorem accept_iff (D T : Bytes 32) : accept D T = true ↔ beVal (rev D).toList < beVal T.toList := decide_eq_true_iff

/-- Settles O26: the reversed digest is below the target as an integer exactly when it is in the order of the bytes. -/
theorem comparatorIsStrictLess : Obligations.ComparatorIsStrictLess := by
  unfold Obligations.ComparatorIsStrictLess
  intro D T
  refine ⟨?integers, ?bytes, ?tie⟩
  case integers => rw [accept_iff, toList_rev, beVal_reverse]
  case bytes =>
    rw [accept_iff, beVal_lt_beVal_iff (by simp), Vector.lt_toList, Vector.lt_iff_exists]
    simp only [BitVec.lt_def, and_comm]
  case tie =>
    rintro rfl
    exact decide_eq_false (Nat.lt_irrefl _)

end Sys2Proof.Machine
end

section
/-! PROOFS. A batch: the lane step and what it leaves alone (R210, R212), the order of the lane steps (R211), the
completion step (R213 to R215), and the outcome of a whole batch. -/

namespace Sys2Proof.Machine

/-! ## The lane step (R210, R212) -/

/-- Settles O29: a lane step writes at its slot's addresses and at its own index only. -/
theorem laneStepWritesOnlyItsOwn : Obligations.LaneStepWritesOnlyItsOwn := by
  unfold Obligations.LaneStepWritesOnlyItsOwn
  intro s i hs hi
  refine ⟨s.laneStep i, congrArg _ (laneTurn_enabled hs hi), rfl, slotHolds_laneStep s i,
    fun a ha => read?_laneStep_other ha, mem_hit_laneStep_self s i, fun j hj => ?otherHit, fun j => ?pending⟩
  case otherHit => simp [hj]
  case pending => exact IndexSet.mem_remove

/-! ## The order of the lane steps (R211) -/

section SameLanes

variable {s : State} {order order' : List Nat} (hs : s.state = .dispatched) (h : ∀ i, i ∈ order ↔ i ∈ order')
include hs h

/-- Which lanes have had their turns determines PENDING. -/
theorem pending_lanes_congr : (s.lanes order).pending = (s.lanes order').pending := by
  simp only [pending_lanes hs, h]

/-- Which lanes have had their turns determines the bits of HIT. -/
theorem mem_hit_lanes_congr (i : Nat) : i ∈ (s.lanes order).hit ↔ i ∈ (s.lanes order').hit := by
  simp only [mem_hit_lanes hs, h]

/-- Which lanes have had their turns determines the bytes of RESULT: those in the slot of a lane that has stepped are
its digest's, and the others are as before. -/
theorem read?_lanes_congr (a : Nat) : (s.lanes order).result.read? a = (s.lanes order').result.read? a := by
  by_cases hin : ∃ i ∈ order, i ∈ s.pending ∧ slotBase i ≤ a ∧ a < slotBase i + 32
  · obtain ⟨i, ho, hp, hlo, hhi⟩ := hin
    obtain ⟨j, rfl⟩ := Nat.exists_eq_add_of_le hlo
    have hj : j < 32 := by omega
    rw [slotHolds_lanes hs ho hp j hj, slotHolds_lanes hs ((h i).1 ho) hp j hj]
  · have out (i : Nat) (ho : i ∈ order) (hp : i ∈ s.pending) : a < slotBase i ∨ slotBase i + 32 ≤ a := by
      by_contra hc
      exact hin ⟨i, ho, hp, by omega, by omega⟩
    rw [read?_lanes_other order out, read?_lanes_other order' fun i ho => out i ((h i).2 ho)]

/-- Which lanes have had their turns determines the state, where RESULT and HIT are in canonical form. -/
theorem lanes_congr (hr : s.result.wf) (hh : s.hit.wf) : s.lanes order = s.lanes order' := by
  have hresult := Memory.ext (wf_result_lanes order hr) (wf_result_lanes order' hr) (read?_lanes_congr hs h)
  have hhit := IndexSet.ext (wf_hit_lanes order hh) (wf_hit_lanes order' hh) (mem_hit_lanes_congr hs h)
  rw [lanes_frame s order, hresult, hhit, pending_lanes_congr hs h, ← lanes_frame]

end SameLanes

/-- Events that begin with a batch (R210, R213). -/
theorem runAll_batchEvents (s : State) (order : List Nat) (rest : List Event) :
    s.runAll (batchEvents order ++ rest) = (s.lanes order).completionTurn.runAll rest := by
  rw [State.runAll, List.length_append]
  exact run_batchEvents rest.length s order rest

/-- Settles O30: the state before the completion step depends only on which lanes have had their turns. -/
theorem laneOrderDoesNotMatter : Obligations.LaneOrderDoesNotMatter := by
  unfold Obligations.LaneOrderDoesNotMatter
  intro s order order' hr hh hs h
  have hrun (o : List Nat) : s.runAll (batchEvents o) = (s.lanes o).completionTurn.runAll [] := by
    simpa using runAll_batchEvents s o []
  exact ⟨_, (hrun order).trans (runAll_nil _), by rw [hrun, ← lanes_congr hs (fun _ => h.mem_iff) hr hh, runAll_nil]⟩

/-! ## The completion step (R213 to R215) -/

/-- Settles O31: the lowest accepted lane of the batch is the winner, and its slot is read as its digest. -/
theorem completionReportsTheLowestLane : Obligations.CompletionReportsTheLowestLane := by
  unfold Obligations.CompletionReportsTheLowestLane
  intro s hs hp
  rw [perform, completionTurn_enabled hs hp]
  refine ⟨fun m D hm hhit hmin hD => ?found, fun hnone => ?none⟩
  case found => rw [completeBatch_found (winner_eq_some hm hhit hmin) hD]; rfl
  case none => rw [completeBatch_none (winner_eq_none hnone)]

/-! ## A whole batch (R210 to R216) -/

/-- Where the lane steps of `order` and the completion step after them leave a batch. -/
def State.batch (s : State) (order : List Nat) : State := (s.lanes order).completeBatch

/-- The lanes of a batch write RESULT, HIT and PENDING, and its completion the verdict, the SOL registers and STATE. -/
theorem batch_frame (s : State) (order : List Nat) :
    s.batch order =
      { s with
        state := .resultsReady, found := (s.batch order).found, nsr := (s.batch order).nsr
        solNonce := (s.batch order).solNonce, solDigest := (s.batch order).solDigest
        pending := (s.lanes order).pending, hit := (s.lanes order).hit, result := (s.lanes order).result
        draws := (s.batch order).draws } := by
  unfold State.batch
  obtain ⟨m, d, -, e⟩ | ⟨-, e⟩ := completeBatch_cases (s.lanes order) <;> rw [e, lanes_frame s order]

@[simp] theorem batch_state (s : State) (order : List Nat) : (s.batch order).state = .resultsReady := by
  rw [batch_frame]
@[simp] theorem batch_hdrValid (s : State) (order : List Nat) : (s.batch order).hdrValid = s.hdrValid := by
  rw [batch_frame]
@[simp] theorem batch_err (s : State) (order : List Nat) : (s.batch order).err = s.err := by rw [batch_frame]
@[simp] theorem batch_lanesReady (s : State) (order : List Nat) : (s.batch order).lanesReady = s.lanesReady := by
  rw [batch_frame]
@[simp] theorem batch_hdr (s : State) (order : List Nat) : (s.batch order).hdr = s.hdr := by rw [batch_frame]
@[simp] theorem batch_target (s : State) (order : List Nat) : (s.batch order).target = s.target := by rw [batch_frame]
@[simp] theorem batch_nonceOffset (s : State) (order : List Nat) : (s.batch order).nonceOffset = s.nonceOffset := by
  rw [batch_frame]
@[simp] theorem batch_batchSize (s : State) (order : List Nat) : (s.batch order).batchSize = s.batchSize := by
  rw [batch_frame]
@[simp] theorem batch_maxBatch (s : State) (order : List Nat) : (s.batch order).maxBatch = s.maxBatch := by
  rw [batch_frame]; rfl
@[simp] theorem batch_off (s : State) (order : List Nat) : (s.batch order).off = s.off := by rw [batch_frame]; rfl
@[simp] theorem batch_pending (s : State) (order : List Nat) : (s.batch order).pending = (s.lanes order).pending := by
  rw [batch_frame]
@[simp] theorem batch_result (s : State) (order : List Nat) : (s.batch order).result = (s.lanes order).result := by
  rw [batch_frame]

section WholeBatch

variable {s : State} {order : List Nat} (hs : s.state = .dispatched) (hp : s.pending = List.range s.batchSize.toNat)
  (ho : order.Perm (List.range s.batchSize.toNat))
include hs hp ho

/-- No lane is pending once every lane of the batch has had its turn. -/
theorem pending_lanes_eq_nil : (s.lanes order).pending = [] := by
  rw [pending_lanes hs, List.filter_eq_nil_iff]
  intro i hi
  simpa [ho.mem_iff, hp] using hi

/-- Events that begin with all the lane steps of a batch and its completion. -/
theorem runAll_batch (rest : List Event) : s.runAll (batchEvents order ++ rest) = (s.batch order).runAll rest := by
  have hd : (s.lanes order).state = .dispatched := by rw [lanes_frame]; exact hs
  rw [runAll_batchEvents, completionTurn_enabled hd (pending_lanes_eq_nil hs hp ho), State.batch]

theorem slotHolds_lanes_all {i : Nat} (hi : i < s.batchSize.toNat) : (s.lanes order).slotHolds i (s.laneDigest i) :=
  slotHolds_lanes hs (ho.mem_iff.2 (List.mem_range.2 hi)) (hp ▸ List.mem_range.2 hi)

theorem mem_hit_lanes_all {i : Nat} (hi : i < s.batchSize.toNat) :
    i ∈ (s.lanes order).hit ↔ accept (s.laneDigest i) s.target = true := by
  simp [mem_hit_lanes hs, ho.mem_iff, hp, hi]

/-- A batch reports its smallest accepted nonce (R213, R214). -/
theorem batch_found {m : Nat} (hm : m < s.batchSize.toNat) (ha : accept (s.laneDigest m) s.target = true)
    (hmin : ∀ i < m, accept (s.laneDigest i) s.target = false) :
    (s.batch order).found = true ∧ (s.batch order).nsr = false ∧ (s.batch order).solNonce = s.laneNonce m ∧
      (s.batch order).solDigest = s.laneDigest m := by
  have hw : (s.lanes order).winner = some m := by
    refine winner_eq_some (by rw [lanes_frame]; exact hm) ((mem_hit_lanes_all hs hp ho hm).2 ha) fun i hi hhit => ?_
    rw [mem_hit_lanes_all hs hp ho (by omega), hmin i hi] at hhit
    cases hhit
  rw [State.batch, completeBatch_found hw (slotHolds_lanes_all hs hp ho hm)]
  exact ⟨rfl, rfl, by rw [lanes_frame]; rfl, rfl⟩

/-- A batch without an accepted nonce leaves the SOL registers (R215). -/
theorem batch_none (hnone : ∀ i < s.batchSize.toNat, accept (s.laneDigest i) s.target = false) :
    (s.batch order).found = false ∧ (s.batch order).nsr = true ∧ (s.batch order).solNonce = s.solNonce ∧
      (s.batch order).solDigest = s.solDigest := by
  have hw : (s.lanes order).winner = none := by
    refine winner_eq_none fun i hi hhit => ?_
    replace hi : i < s.batchSize.toNat := by rw [lanes_frame] at hi; exact hi
    rw [mem_hit_lanes_all hs hp ho hi, hnone i hi] at hhit
    cases hhit
  rw [State.batch, completeBatch_none hw, lanes_frame]
  exact ⟨rfl, rfl, rfl, rfl⟩

end WholeBatch

/-- Settles O32: every lane has stepped, so that the completion step finds each slot and each HIT bit of the batch. -/
theorem batchComputesEveryCandidate : Obligations.BatchComputesEveryCandidate := by
  unfold Obligations.BatchComputesEveryCandidate
  intro s order hs hp ho
  have hrun := runAll_batch hs hp ho []
  rw [List.append_nil, runAll_nil] at hrun
  refine ⟨_, hrun, batch_state s order, (batch_pending s order).trans (pending_lanes_eq_nil hs hp ho),
    batch_hdr s order, batch_target s order, batch_nonceOffset s order, batch_batchSize s order, batch_err s order,
    fun i hi => ?slots, fun m hm ha hmin => batch_found hs hp ho hm ha hmin, batch_none hs hp ho⟩
  case slots =>
    have hslot := slotHolds_lanes_all hs hp ho hi
    rwa [State.slotHolds, ← batch_result] at hslot

end Sys2Proof.Machine
end

section
/-! PROOFS. The host's search loop (R223, R224): what a round without a solution leads to, the round that has the first
accepted nonce, and the end of the nonce space. -/

namespace Sys2Proof.Machine

/-! ## Nonces (R202, R210) -/

/-- The nonce of lane `i` is the `i`-th from the offset on (R34, R210). -/
theorem laneNonce_eq (s : State) (i : Nat) : s.laneNonce i = BitVec.ofNat 32 (s.off + i) := by
  refine BitVec.eq_of_toNat_eq ?_
  simp only [State.laneNonce, State.off, BitVec.toNat_add, BitVec.toNat_ofNat]
  omega

/-- The verdict on the digest of lane `i` is the one on its nonce (R200, R202). -/
theorem accept_laneDigest_iff (s : State) (i : Nat) :
    accept (s.laneDigest i) s.target = true ↔ s.accepts (s.off + i) := by
  rw [State.laneDigest, laneNonce_eq, State.accepts]

theorem accept_laneDigest_eq_false_iff (s : State) (i : Nat) :
    accept (s.laneDigest i) s.target = false ↔ ¬s.accepts (s.off + i) := by
  rw [← accept_laneDigest_iff, Bool.not_eq_true]

/-- A target of 0 accepts no nonce (R201). -/
theorem not_accepts_of_target_zero {s : State} (h : beVal s.target.toList = 0) (n : Nat) : ¬s.accepts n := by
  rw [State.accepts, accept_iff, h]
  exact Nat.not_lt_zero _

/-! ## Runs of the loop's commands (R73, R94) -/

theorem submit_agenda (s : State) (rest : List Event) :
    ({ s with agenda := rest } : State).submit = { s.submit with agenda := rest } := by
  obtain ⟨hb, e⟩ | ⟨h1, h2, h, e⟩ | ⟨h1, h2, h, hr, e⟩ | ⟨h1, h2, h, hr, e⟩ := submit_cases s <;> rw [e]
  · exact if_pos hb
  · exact submit_exhausted (s := { s with agenda := rest }) h1 h2 h
  · exact submit_unavailable (s := { s with agenda := rest }) h1 h2 h hr
  · exact submit_accepted (s := { s with agenda := rest }) h1 h2 h hr

theorem retire_agenda (s : State) (rest : List Event) :
    ({ s with agenda := rest } : State).retire = { s.retire with agenda := rest } := by
  by_cases hf : s.found = true
  · rw [retire_found hf]
    exact retire_found (s := { s with agenda := rest }) hf
  · rw [State.retire, if_neg hf, State.retire, if_neg hf]
    rfl

theorem computeTarget_agenda (s : State) (rest : List Event) :
    ({ s with agenda := rest } : State).computeTarget = { s.computeTarget with agenda := rest } := by
  cases he : expand s.bits <;> simp only [State.computeTarget, he]
  rfl

/-- The effect of a command does not look at the events to come. -/
theorem effectOf_agenda (i : Instr) (s : State) (rest : List Event) :
    effectOf i { s with agenda := rest } = { effectOf i s with agenda := rest } := by
  cases i with
  | computeTarget => exact computeTarget_agenda s rest
  | submit => exact submit_agenda s rest
  | retire => exact retire_agenda s rest
  | nop | encodeHeader | loadHeader | setNonce | hash1 | hash2 | rearm | clearErr | softReset => rfl

/-- Events that begin with the host's write of the word of a command that passes the gate. -/
theorem runAll_command {i : Instr} {s : State} (rest : List Event) (he : s.err = .none)
    (hl : legal i s.state s.hdrValid = true) : s.runAll (commandEvent i :: rest) = (effectOf i s).runAll rest := by
  refine run_cons ?_
  have hw : perform (commandEvent i) { s with agenda := rest } = executeWord (encode i) { s with agenda := rest } :=
    perform_write_cmd _ _
  rw [hw, executeWord_of_decode (decode_encode i), exec_passes (s := { s with agenda := rest }) (.inl he) hl,
    effectOf_agenda]

theorem runAll_submit {s : State} (rest : List Event) (he : s.err = .none) (hs : s.state = .headerLoaded) :
    s.runAll (commandEvent .submit :: rest) = s.submit.runAll rest :=
  runAll_command rest he ((legal_submit _ _).2 hs)

theorem runAll_retire {s : State} (rest : List Event) (he : s.err = .none) (hs : s.state = .resultsReady) :
    s.runAll (commandEvent .retire :: rest) = s.retire.runAll rest :=
  runAll_command rest he ((legal_retire _ _).2 hs)

/-- A run of rounds is a run of the rounds before the last one, then of that one. -/
theorem searchRounds_succ (order : Nat → List Nat) (k : Nat) :
    searchRounds order (k + 1) = searchRounds order k ++ searchRound (order k) := by
  simp [searchRounds, List.range_succ]

/-! ## Where the search stands between rounds -/

/-- `t` is a state of the search that started in `s`: the header, the target and the batch size are those of `s`, and
nothing but STATE and the offset can keep the host from a SUBMIT. -/
structure State.Searches (s t : State) : Prop where
  hdrValid : t.hdrValid = true
  noError : t.err = .none
  lanesReady : t.lanesReady = true
  hdr : t.hdr = s.hdr
  target : t.target = s.target
  batchSize : t.batchSize = s.batchSize
  nonempty : 1 ≤ t.batchSize.toNat
  sizeLe : t.batchSize.toNat ≤ t.maxBatch

/-- Between two rounds, the search that started in `s` stands in `t` before the batch of the nonces from `off` on. -/
structure State.SearchAt (s t : State) (off : Nat) : Prop extends s.Searches t where
  state : t.state = .headerLoaded
  off : t.off = off

/-- The state in which the lanes of a batch start (R205). -/
def State.dispatch (s : State) : State :=
  { s with found := false, nsr := false, pending := List.range s.batchSize.toNat, state := .dispatched }

/-- A batch leaves all that the search depends on (R216). -/
theorem searches_batch {s t : State} (h : s.Searches t) (order : List Nat) : s.Searches (t.dispatch.batch order) where
  hdrValid := by rw [batch_hdrValid]; exact h.hdrValid
  noError := by rw [batch_err]; exact h.noError
  lanesReady := by rw [batch_lanesReady]; exact h.lanesReady
  hdr := by rw [batch_hdr]; exact h.hdr
  target := by rw [batch_target]; exact h.target
  batchSize := by rw [batch_batchSize]; exact h.batchSize
  nonempty := by rw [batch_batchSize]; exact h.nonempty
  sizeLe := by rw [batch_batchSize, batch_maxBatch]; exact h.sizeLe

/-- RETIRE of a batch without a solution and REARM lead to the next batch (R218, R219). -/
theorem exists_searchAt_after_retire {s b : State} {off : Nat} (h : s.Searches b) (hs : b.state = .resultsReady)
    (hf : b.found = false) (hb : b.off = off) (hoff : off + s.batchSize.toNat ≤ 2 ^ 32) :
    ∃ u : State, s.SearchAt u (off + s.batchSize.toNat) ∧
      ∀ rest, b.runAll (commandEvent .retire :: commandEvent .rearm :: rest) = u.runAll rest := by
  subst hb
  rw [← h.batchSize] at hoff ⊢
  obtain ⟨lo, hi, e, hnext⟩ := retire_unsolved hf hoff
  refine ⟨{ b with nonceOffset := lo, offsetHi := hi, state := .headerLoaded }, { h with state := rfl, off := hnext },
    fun rest => ?_⟩
  rw [runAll_retire _ h.noError hs, e]
  exact runAll_command rest h.noError ((legal_rearm _ _).2 ⟨rfl, h.hdrValid⟩)

section Search

variable {s t : State} {off : Nat} (h : s.SearchAt t off)
include h

/-- A nonce is accepted wherever the search stands as it is at its start. -/
theorem accepts_iff_of_searchAt (n : Nat) : t.accepts n ↔ s.accepts n := by
  rw [State.accepts, h.hdr, h.target, State.accepts]

/-- SUBMIT past the last batch of the nonce space (R207, R224). -/
theorem submit_exhausted_of_searchAt (hoff : 2 ^ 32 < off + s.batchSize.toNat) :
    t.submit =
      { t with err := .searchSpaceExhausted, errInfo := encode .submit, state := .idle, hdrValid := false } := by
  rw [← h.off, ← h.batchSize] at hoff
  rw [submit_exhausted h.nonempty h.sizeLe hoff, raise_of_no_error h.noError]

/-- SUBMIT of a batch within the nonce space (R205). -/
theorem submit_eq_dispatch (hoff : off + s.batchSize.toNat ≤ 2 ^ 32) : t.submit = t.dispatch := by
  rw [← h.off, ← h.batchSize] at hoff
  exact submit_accepted h.nonempty h.sizeLe hoff h.lanesReady

variable {order : List Nat} (ho : order.Perm (List.range s.batchSize.toNat))
include ho

/-- SUBMIT and all of the batch (R205, R210, R213). -/
theorem runAll_submit_batch (hoff : off + s.batchSize.toNat ≤ 2 ^ 32) (rest : List Event) :
    t.runAll (commandEvent .submit :: (batchEvents order ++ rest)) = (t.dispatch.batch order).runAll rest := by
  rw [← h.batchSize] at ho
  rw [runAll_submit _ h.noError h.state, submit_eq_dispatch h hoff]
  exact runAll_batch (s := t.dispatch) rfl rfl ho rest

/-- The batch that has the first accepted nonce from its offset on reports it (R213, R214). -/
theorem batch_found_of_searchAt {n : Nat} (hlo : off ≤ n) (hhi : n < off + s.batchSize.toNat) (ha : s.accepts n)
    (hmin : ∀ n', off ≤ n' → n' < n → ¬s.accepts n') :
    (t.dispatch.batch order).found = true ∧ (t.dispatch.batch order).solNonce = BitVec.ofNat 32 n ∧
      (t.dispatch.batch order).solDigest = candidate s.hdr (BitVec.ofNat 32 n) := by
  rw [← h.batchSize] at ho hhi
  obtain ⟨m, rfl⟩ := Nat.exists_eq_add_of_le hlo
  have hd : t.dispatch.off = off := h.off
  have hv (i : Nat) : t.dispatch.accepts (off + i) ↔ s.accepts (off + i) := accepts_iff_of_searchAt h _
  have hm : accept (t.dispatch.laneDigest m) t.dispatch.target = true := by
    rwa [accept_laneDigest_iff, hd, hv]
  obtain ⟨hf, -, hn, hD⟩ := batch_found (s := t.dispatch) rfl rfl ho (Nat.lt_of_add_lt_add_left hhi) hm fun i hi => by
    rw [accept_laneDigest_eq_false_iff, hd, hv]
    exact hmin _ (by omega) (by omega)
  rw [laneNonce_eq, hd] at hn
  rw [State.laneDigest, laneNonce_eq, hd] at hD
  exact ⟨hf, hn, h.hdr ▸ hD⟩

/-- A batch whose nonces are all rejected has no solution (R215). -/
theorem batch_none_of_searchAt (hnone : ∀ n, off ≤ n → n < off + s.batchSize.toNat → ¬s.accepts n) :
    (t.dispatch.batch order).found = false := by
  rw [← h.batchSize] at ho hnone
  have hd : t.dispatch.off = off := h.off
  refine (batch_none (s := t.dispatch) rfl rfl ho fun i hi => ?_).1
  rw [accept_laneDigest_eq_false_iff, hd]
  replace hi : i < t.batchSize.toNat := hi
  exact fun ha => hnone (off + i) (by omega) (by omega) ((accepts_iff_of_searchAt h _).1 ha)

/-- A round whose nonces are all rejected leaves the search before the next batch (R215, R218, R219). -/
theorem exists_searchAt_after_round (hoff : off + s.batchSize.toNat ≤ 2 ^ 32)
    (hnone : ∀ n, off ≤ n → n < off + s.batchSize.toNat → ¬s.accepts n) :
    ∃ u : State, s.SearchAt u (off + s.batchSize.toNat) ∧
      ∀ rest, t.runAll (searchRound order ++ rest) = u.runAll rest := by
  obtain ⟨u, hu, hrun⟩ := exists_searchAt_after_retire (searches_batch h.toSearches order) (batch_state _ _)
    (batch_none_of_searchAt h ho hnone) ((batch_off _ _).trans h.off) hoff
  refine ⟨u, hu, fun rest => ?_⟩
  have hev : searchRound order ++ rest =
      commandEvent .submit :: (batchEvents order ++ commandEvent .retire :: commandEvent .rearm :: rest) := by
    simp [searchRound]
  rw [hev, runAll_submit_batch h ho hoff, hrun]

end Search

/-! ## Rounds without a solution (R223) -/

/-- A state that may start a search stands at its own offset. -/
theorem searchAt_self {s : State} (hi : s.Inv) (hs : s.state = .headerLoaded) (he : s.err = .none)
    (hr : s.lanesReady = true) (h1 : 1 ≤ s.batchSize.toNat) (h2 : s.batchSize.toNat ≤ s.maxBatch) :
    s.SearchAt s s.off where
  state := hs
  hdrValid := hi.header (by simp [hs])
  noError := he
  lanesReady := hr
  hdr := rfl
  target := rfl
  batchSize := rfl
  nonempty := h1
  sizeLe := h2
  off := rfl

/-- `k` rounds whose nonces are all rejected leave the search before batch `k`. -/
theorem exists_searchAt_after_rounds {s : State} {order : Nat → List Nat} (h : s.SearchAt s s.off)
    (ho : ∀ r, (order r).Perm (List.range s.batchSize.toNat)) (k : Nat)
    (hoff : s.off + k * s.batchSize.toNat ≤ 2 ^ 32)
    (hnone : ∀ n, s.off ≤ n → n < s.off + k * s.batchSize.toNat → ¬s.accepts n) :
    ∃ t : State, s.SearchAt t (s.off + k * s.batchSize.toNat) ∧
      ∀ rest, s.runAll (searchRounds order k ++ rest) = t.runAll rest := by
  induction k with
  | zero => exact ⟨s, by simpa using h, fun _ => rfl⟩
  | succ k ih =>
    rw [Nat.succ_mul, ← Nat.add_assoc] at hoff hnone ⊢
    obtain ⟨t, ht, hrun⟩ := ih (by omega) fun n hlo hhi => hnone n hlo (by omega)
    obtain ⟨u, hu, hround⟩ := exists_searchAt_after_round ht (ho k) hoff fun n hlo => hnone n (by omega)
    exact ⟨u, hu, fun rest => by rw [searchRounds_succ, List.append_assoc, hrun, hround]⟩

/-- Settles O56: the rounds before batch `k` have no accepted nonce, and batch `k` reports its first one. -/
theorem firstSolutionInNonceOrder : Obligations.FirstSolutionInNonceOrder := by
  unfold Obligations.FirstSolutionInNonceOrder
  intro s k n order hi hs he hr h1 h2 hoff ho hlo hhi ha hmin
  rw [Nat.succ_mul, ← Nat.add_assoc] at hoff hhi
  obtain ⟨t, ht, hrun⟩ := exists_searchAt_after_rounds (searchAt_self hi hs he hr h1 h2) ho k (by omega)
    fun n' h h' => hmin n' h (by omega)
  obtain ⟨hf, hnonce, hdigest⟩ := batch_found_of_searchAt ht (ho k) hlo hhi ha fun n' h => hmin n' (by omega)
  have hb := searches_batch ht.toSearches (order k)
  refine ⟨{ t.dispatch.batch (order k) with state := .solved, agenda := [] }, ?runs, rfl, hf, hnonce, hdigest,
    hb.noError⟩
  case runs =>
    rw [List.append_assoc, List.append_assoc, hrun]
    refine (runAll_submit_batch ht (ho k) hoff _).trans ?_
    rw [runAll_retire [] hb.noError (batch_state _ _), retire_found hf, runAll_nil]

/-- Settles O57: with a target of 0 every round ends without a solution, and the SUBMIT after the last one is past the
end of the nonce space. -/
theorem exhaustionTerminates : Obligations.ExhaustionTerminates := by
  unfold Obligations.ExhaustionTerminates
  intro s k order hi hs he hr h1 h2 hz ho hoff hend
  rw [Nat.succ_mul, ← Nat.add_assoc] at hend
  obtain ⟨t, ht, hrun⟩ := exists_searchAt_after_rounds (searchAt_self hi hs he hr h1 h2) ho k hoff
    fun n _ _ => not_accepts_of_target_zero hz n
  have hrun' := hrun [commandEvent .submit]
  rw [runAll_submit _ ht.noError ht.state, submit_exhausted_of_searchAt ht hend, runAll_nil] at hrun'
  exact ⟨_, hrun', rfl, rfl, rfl, rfl, ht.off⟩

end Sys2Proof.Machine
end

section
/-! PROOFS. Every step answers (R252, R258): each gate and check either passes or raises, and both lead to a next state.
The level of the interrupt output (R260). -/

namespace Sys2Proof.Machine

/-! ## Every step has a next state (R94, R252, R258) -/

/-- The gate drops a command, refuses it or lets it have its effect (R94). -/
theorem exists_runCommand_eq_next (i : Instr) (f : State → State) (s : State) : ∃ t, runCommand i f s = .next t := by
  unfold runCommand
  split
  · exact ⟨_, rfl⟩
  · split <;> exact ⟨_, rfl⟩

theorem exists_exec_eq_next (i : Instr) (s : State) : ∃ t, exec i s = .next t := by
  rw [exec_eq]
  exact exists_runCommand_eq_next i (effectOf i) s

/-- A reserved word raises an error, and any other word is a command (R92, R94). -/
theorem exists_executeWord_eq_next (v : Word) (s : State) : ∃ t, executeWord v s = .next t := by
  cases h : decode v with
  | error e => exact ⟨_, executeWord_of_reserved ⟨e, h⟩ s⟩
  | ok i =>
    rw [executeWord_of_decode h]
    exact exists_exec_eq_next i s

/-- A host write is refused, executes a word or sets its location (R67). -/
theorem exists_hostWrite_eq_next {execute : Word → State → Host.Outcome State Fault Refusal} {s : State} {v : Word}
    (h : ∃ t, execute v s = .next t) (a : Word) : ∃ t, s.hostWrite execute a v = .next t := by
  unfold State.hostWrite
  split
  · exact ⟨_, rfl⟩
  · split
    · exact ⟨_, rfl⟩
    · split
      · exact ⟨_, rfl⟩
      · split
        · exact h
        · split <;> exact ⟨_, rfl⟩

/-- Of the events only a host write may execute a command; the others have one outcome each (R20). -/
theorem exists_perform_eq_next (e : Event) (s : State) : ∃ t, perform e s = .next t := by
  cases e with
  | write a v => exact exists_hostWrite_eq_next (exists_executeWord_eq_next v s) a
  | read | readWidth | writeWidth | lane | complete | rstN | lanesReady => exact ⟨_, rfl⟩

/-- Settles O38: the next event has an outcome, and with none to come the block moves on its own. -/
theorem everyStepAnswers : Obligations.EveryStepAnswers := by
  unfold Obligations.EveryStepAnswers
  intro s
  cases h : s.agenda with
  | nil => exact ⟨_, step_nil h⟩
  | cons e rest =>
    rw [step_cons h]
    exact exists_perform_eq_next e { s with agenda := rest }

/-! ## The interrupt output (R260) -/

theorem irq_eq_true_iff (s : State) :
    s.irq = true ↔ (s.doneIE = true ∧ s.state = .resultsReady) ∨ (s.errIE = true ∧ s.err ≠ .none) := by
  simp [State.irq, State.errPend]

/-- DONE_IE after a write of IRQ_EN is bit 0 of the word written (R43). -/
theorem doneIE_setReg_irqEn (s : State) (v : Word) : (s.setReg v .irqEn).doneIE = v.getLsbD 0 := by
  simp [State.doneIE, State.setReg]

/-- ERR_IE after a write of IRQ_EN is bit 1 of the word written (R43). -/
theorem errIE_setReg_irqEn (s : State) (v : Word) : (s.setReg v .irqEn).errIE = v.getLsbD 1 := by
  simp [State.errIE, State.setReg]

/-- Settles O49: no check refuses the write of IRQ_EN, which sets the two enable bits and leaves STATE and ERR. -/
theorem interruptLevel : Obligations.InterruptLevel := by
  unfold Obligations.InterruptLevel
  intro s v
  obtain ⟨hwrite, -⟩ := scalarWritesLand s v
  refine ⟨s.setReg v .irqEn, hwrite, ?_⟩
  rw [irq_eq_true_iff, doneIE_setReg_irqEn, errIE_setReg_irqEn]
  rfl

end Sys2Proof.Machine
end

section
/-! PROOFS. The reset input (R280 to R282): what it leaves is the state after reset, which meets the invariant, and no
step of the batch it aborted can follow. -/

namespace Sys2Proof.Machine

/-! ## The state after reset (R281) -/

/-- Settles O52: the model's own fields are among those that the invariant leaves free. -/
theorem resetMeetsTheInvariant : Obligations.ResetMeetsTheInvariant := by
  unfold Obligations.ResetMeetsTheInvariant
  intro m level events
  exact inv_reset m level events State.reset.readData State.reset.draws

/-! ## The reset input (R280, R282) -/

/-- With rst_n the next event, the step is the reset of the state with the rest to come. -/
theorem step_rstN {s : State} {rest : List Event} (h : s.agenda = .rstN :: rest) :
    step s = .next ({ s with agenda := rest } : State).resetBlock := step_cons h

/-- The completion step is not enabled outside Dispatched (R213). -/
theorem completionTurn_of_not_dispatched {s : State} (h : s.state ≠ .dispatched) : s.completionTurn = s := by
  obtain e | ⟨hd, -, -⟩ := completionTurn_cases s
  · exact e
  · exact absurd hd h

/-- No lane and no completion follows a batch that is not running (R210, R213). -/
theorem perform_batch_of_not_dispatched {s : State} (h : s.state ≠ .dispatched) :
    (∀ i, perform (.lane i) s = .next s) ∧ perform .complete s = .next s :=
  ⟨fun _ => congrArg _ (laneTurn_disabled (.inl h)), congrArg _ (completionTurn_of_not_dispatched h)⟩

theorem resetBlock_not_dispatched (s : State) : s.resetBlock.state ≠ .dispatched := by
  rw [State.resetBlock_state]
  exact SearchState.noConfusion

/-- Settles O10: the step resets the block, and in the state it leaves no batch is running. -/
theorem resetInputResets : Obligations.ResetInputResets := by
  unfold Obligations.ResetInputResets
  intro s rest hs
  refine ⟨step_rstN hs, fun t ht => ?_⟩
  obtain rfl : ({ s with agenda := rest } : State).resetBlock = t :=
    Host.Outcome.next.inj ((step_rstN hs).symm.trans ht)
  exact ⟨State.resetBlock_state _, State.resetBlock_pending _, State.resetBlock_result _,
    perform_batch_of_not_dispatched (resetBlock_not_dispatched _)⟩

end Sys2Proof.Machine
end

section
/-! PROOFS. Known answers of SHA-256 (`95_test_vectors.md` V-S2, V-S6, V-W5): the running state H that each hash ends
in, and the digest that is its bytes (R172, R173). The kernel evaluates the running states, one hash at a time. -/

namespace Sys2Proof.Machine

/-! ## From the running state to the digest (R172, R173) -/

theorem Words8.length_bytes (H : Words8) : H.bytes.length = 32 := by simp [Words8.bytes]

/-- The digest is the bytes of the running state after the last block of the padded message (R172, R173). -/
theorem toList_sha256_of_compressBlocks {M : List Byte} {n : Nat} {H : Words8} (hn : (pad M).length = 64 * n)
    (hH : compressBlocks (pad M) n = H) : (sha256 M).toList = H.bytes := by
  have hblocks : (pad M).length / 64 = n := by omega
  rw [sha256, hblocks, hH, Bytes.toList_ofList H.length_bytes]

/-! ## The message "abc" (V-S2) -/

/-- H after the one block of "abc". -/
def abcState : Words8 where
  a := 0xba7816bf#32
  b := 0x8f01cfea#32
  c := 0x414140de#32
  d := 0x5dae2223#32
  e := 0xb00361a3#32
  f := 0x96177a9c#32
  g := 0xb410ff61#32
  h := 0xf20015ad#32

theorem compressBlocks_abc : compressBlocks (pad [0x61#8, 0x62#8, 0x63#8]) 1 = abcState := by decide +kernel

theorem toList_sha256_abc : (sha256 [0x61#8, 0x62#8, 0x63#8]).toList = abcState.bytes :=
  toList_sha256_of_compressBlocks (by simp [length_pad, padZeros]) compressBlocks_abc

/-! ## The all-zero header (V-S6) -/

/-- H after the two blocks of the all-zero header: the first hash, which is the message of the second (R176). -/
def zeroHeaderState1 : Words8 where
  a := 0x5b6fb58e#32
  b := 0x61fa4759#32
  c := 0x39767d68#32
  d := 0xa446f97f#32
  e := 0x1bff02c0#32
  f := 0xe5935a3e#32
  g := 0xa8bb51e6#32
  h := 0x515783d8#32

/-- H after the one block of the second hash. -/
def zeroHeaderState2 : Words8 where
  a := 0x4be7570e#32
  b := 0x8f70eb09#32
  c := 0x3640c846#32
  d := 0x8274ba75#32
  e := 0x9745a7aa#32
  f := 0x2b7d25ab#32
  g := 0x1e0421b2#32
  h := 0x59845014#32

theorem compressBlocks_zeroHeader : compressBlocks (pad (List.replicate 80 0#8)) 2 = zeroHeaderState1 := by
  decide +kernel

theorem compressBlocks_zeroHeaderState1 : compressBlocks (pad zeroHeaderState1.bytes) 1 = zeroHeaderState2 := by
  decide +kernel

theorem toList_sha256d_zeroHeader : (sha256d (List.replicate 80 0#8)).toList = zeroHeaderState2.bytes := by
  have hfirst : (sha256 (List.replicate 80 0#8)).toList = zeroHeaderState1.bytes :=
    toList_sha256_of_compressBlocks (by simp [length_pad, padZeros]) compressBlocks_zeroHeader
  rw [sha256d, hfirst]
  exact toList_sha256_of_compressBlocks (by simp [length_pad, padZeros, Words8.length_bytes])
    compressBlocks_zeroHeaderState1

/-! ## The digests (V-S2, V-W5) -/

/-- Settles O22: the digests are the bytes of the running states that the hashes end in. -/
theorem sha256KnownAnswers : Obligations.Sha256KnownAnswers := by
  unfold Obligations.Sha256KnownAnswers
  constructor
  · rw [toList_sha256_abc]
    decide
  · rw [Vector.toList_replicate, toList_sha256d_zeroHeader]
    decide

end Sys2Proof.Machine
end
